-- ==== Sys2Proof/Word.lean ====
section
/-! DEFINITION. The word types of the SiBi block and the one piece of arithmetic every unit shares. -/

namespace Sys2Proof

/-- A byte of a byte buffer, of `PREV` or of a run-length pair (10_state R18 to R22, R28). -/
abbrev Byte := BitVec 8

/-- One 64-bit tile word (10_state R25). -/
abbrev Tile := BitVec 64

/-- A command word `CW` (30_encoding R54). -/
abbrev CmdWord := BitVec 80

/-- A response word `RW` (30_encoding R56). -/
abbrev RspWord := BitVec 72

/-- `ceil8(a) = (a + 7) div 8` (00_scope R8). -/
def ceil8 (a : Nat) : Nat := (a + 7) / 8

end Sys2Proof
end

