-- ==== Sys2Proof/Syntax.lean ====
section
/-! DEFINITION. The commands of the SiBi block: one constructor per row of spec/opcode_table.json, its operands as the
fields of the command word give them (30_encoding R55, R61: unsigned, contiguous, nothing truncated). Bank and buffer
ids are the full 4-bit fields; Sys2Proof/WellFormed.lean says which of them name something. -/

namespace Sys2Proof

/-- A command of 30_encoding R57. -/
inductive Instr where
  /-- `SYS.NOP` (R138). -/
  | sysNop
  /-- `BS.CLEAR` (R77). -/
  | bsClear
  /-- `BS.REWIND` (R78). -/
  | bsRewind
  /-- `BS.PUSH value, bitCount` (R79). -/
  | bsPush (value : BitVec 64) (bitCount : BitVec 8)
  /-- `BS.PULL bitCount` (R80). -/
  | bsPull (bitCount : BitVec 8)
  /-- `BS.GET` (R81). -/
  | bsGet
  /-- `BS.TELL` (R82). -/
  | bsTell
  /-- `BM.CONFIG Mk, width, height` (R93). -/
  | bmConfig (k : BitVec 4) (width height : BitVec 32)
  /-- `BM.BIT Mk, x, y` (R94). -/
  | bmBit (k : BitVec 4) (x y : BitVec 32)
  /-- `BM.SET Mk, x, y` (R95). -/
  | bmSet (k : BitVec 4) (x y : BitVec 32)
  /-- `BM.CLEAR Mk, x, y` (R96). -/
  | bmClear (k : BitVec 4) (x y : BitVec 32)
  /-- `BM.DSIZE Mk` (R97). -/
  | bmDsize (k : BitVec 4)
  /-- `BM.GETSIZE Mk` (R98). -/
  | bmGetsize (k : BitVec 4)
  /-- `BM.CMP Ma, Mb` (R99). -/
  | bmCmp (a b : BitVec 4)
  /-- `BM.PACK Mk` (R100). -/
  | bmPack (k : BitVec 4)
  /-- `BM.UNPACK Mk` (R101). -/
  | bmUnpack (k : BitVec 4)
  /-- `BM.RDTILE Mk, t` (R102). -/
  | bmRdtile (k : BitVec 4) (t : BitVec 64)
  /-- `RL.ENC dst, src` (R115). -/
  | rlEnc (dst src : BitVec 4)
  /-- `RL.DEC dst, src` (R116). -/
  | rlDec (dst src : BitVec 4)
  /-- `DN.CONFIG bands` (R125). -/
  | dnConfig (bands : BitVec 32)
  /-- `DN.DELTA src` (R126). -/
  | dnDelta (src : BitVec 4)
  /-- `DN.CHECK src` (R127). -/
  | dnCheck (src : BitVec 4)
  /-- `DN.RECODE` (R128). -/
  | dnRecode
  /-- `DN.RDPREV c` (R129). -/
  | dnRdprev (c : BitVec 32)
  /-- `BUF.CLEAR dst` (R139). -/
  | bufClear (dst : BitVec 4)
  /-- `BUF.APPEND dst, byte` (R140). -/
  | bufAppend (dst : BitVec 4) (byte : Byte)
  /-- `BUF.READ src, index` (R141). -/
  | bufRead (src : BitVec 4) (index : BitVec 64)
  /-- `BUF.LEN src` (R142). -/
  | bufLen (src : BitVec 4)
deriving DecidableEq, Repr

end Sys2Proof
end

