-- ==== Sys2Proof/WellFormed.lean ====
section
/-! DEFINITION. Which commands name only banks and buffers that exist (30_encoding R58 step 4, R60; 20_memory R44).
The other check of R58, the must-be-zero bits, is about the command WORD and stands in Sys2Proof/Decode.lean: a term of
`Instr` has no such bits. -/

namespace Sys2Proof

/-- `NBANK` (00_scope R6, decision D31). -/
def NBANK : Nat := 2

/-- `NBUF` (00_scope R6, decision D8). -/
def NBUF : Nat := 4

/-- A bank id that names a bank: ids `NBANK..15` are reserved (20_memory R44). -/
def isBankId (k : BitVec 4) : Bool := decide (k.toNat < NBANK)

/-- A buffer id that names a buffer: ids `4..15` are reserved (20_memory R44). -/
def isBufId (b : BitVec 4) : Bool := decide (b.toNat < NBUF)

/-- Every bank id and every buffer id of the command is one that exists (30_encoding R58 step 4). -/
def Instr.wf : Instr → Bool
  | .sysNop => true
  | .bsClear => true
  | .bsRewind => true
  | .bsPush _ _ => true
  | .bsPull _ => true
  | .bsGet => true
  | .bsTell => true
  | .bmConfig k _ _ => isBankId k
  | .bmBit k _ _ => isBankId k
  | .bmSet k _ _ => isBankId k
  | .bmClear k _ _ => isBankId k
  | .bmDsize k => isBankId k
  | .bmGetsize k => isBankId k
  | .bmCmp a b => isBankId a && isBankId b
  | .bmPack k => isBankId k
  | .bmUnpack k => isBankId k
  | .bmRdtile k _ => isBankId k
  | .rlEnc dst src => isBufId dst && isBufId src
  | .rlDec dst src => isBufId dst && isBufId src
  | .dnConfig _ => true
  | .dnDelta src => isBufId src
  | .dnCheck src => isBufId src
  | .dnRecode => true
  | .dnRdprev _ => true
  | .bufClear dst => isBufId dst
  | .bufAppend dst _ => isBufId dst
  | .bufRead src _ => isBufId src
  | .bufLen src => isBufId src

end Sys2Proof
end

