-- ==== Sys2Proof/Decode.lean ====
section
/-! DEFINITION. Command words to commands and back (30_encoding §1, §2, §4, §5). The decoder is total and refuses by
name; the encoder is written from the same tables. The rows of spec/opcode_table.json stand at the end, as the table
prints them, so that a statement can hold the decoder against them. -/

namespace Sys2Proof

/-! ### The three fields of a command word (R54) -/

/-- `op = CW[79:72]`. -/
def opField (w : CmdWord) : BitVec 8 := w.extractLsb' 72 8

/-- `n = CW[71:64]`. -/
def nField (w : CmdWord) : BitVec 8 := w.extractLsb' 64 8

/-- `d = CW[63:0]`. -/
def dField (w : CmdWord) : BitVec 64 := w.extractLsb' 0 64

/-- `CW = op·2^72 + n·2^64 + d` (R54). -/
def mkWord (op n : BitVec 8) (d : BitVec 64) : CmdWord := op ++ n ++ d

/-! ### Sub-fields (00_scope R12, 30_encoding R55) -/

/-- `n[7:4]`: `db` or `kb`. -/
def nHi (n : BitVec 8) : BitVec 4 := n.extractLsb' 4 4

/-- `n[3:0]`: `sb` or `ka`. -/
def nLo (n : BitVec 8) : BitVec 4 := n.extractLsb' 0 4

/-- `d[63:32]`: `y`, or the height. -/
def dHi (d : BitVec 64) : BitVec 32 := d.extractLsb' 32 32

/-- `d[31:0]`: `x`, the width, or the immediate. -/
def dLo (d : BitVec 64) : BitVec 32 := d.extractLsb' 0 32

/-- `d[7:0]`: the byte of `BUF.APPEND`. -/
def dByte (d : BitVec 64) : Byte := d.extractLsb' 0 8

/-! ### Operand formats (R55) -/

/-- The thirteen operand formats of R55. -/
inductive Format where
  | Z | PV | PC | KXY | K | KK | KI | SD | S | SI | D | DB | I
deriving DecidableEq, Repr

/-- The must-be-zero bits of `n`, as a mask (R55). -/
def mbzN : Format → BitVec 8
  | .Z | .I => 0xFF
  | .PV | .PC | .KK | .SD => 0x00
  | .KXY | .K | .KI | .S | .SI => 0xF0
  | .D | .DB => 0x0F

/-- The must-be-zero bits of `d`, as a mask (R55). -/
def mbzD : Format → BitVec 64
  | .Z | .PC | .K | .KK | .SD | .S | .D => 0xFFFFFFFFFFFFFFFF
  | .PV | .KXY | .KI | .SI => 0
  | .DB => 0xFFFFFFFFFFFFFF00
  | .I => 0xFFFFFFFF00000000

/-- The format of each command (R57). -/
def formatOf : Instr → Format
  | .sysNop => .Z
  | .bsClear => .Z
  | .bsRewind => .Z
  | .bsPush _ _ => .PV
  | .bsPull _ => .PC
  | .bsGet => .Z
  | .bsTell => .Z
  | .bmConfig _ _ _ => .KXY
  | .bmBit _ _ _ => .KXY
  | .bmSet _ _ _ => .KXY
  | .bmClear _ _ _ => .KXY
  | .bmDsize _ => .K
  | .bmGetsize _ => .K
  | .bmCmp _ _ => .KK
  | .bmPack _ => .K
  | .bmUnpack _ => .K
  | .bmRdtile _ _ => .KI
  | .rlEnc _ _ => .SD
  | .rlDec _ _ => .SD
  | .dnConfig _ => .I
  | .dnDelta _ => .S
  | .dnCheck _ => .S
  | .dnRecode => .Z
  | .dnRdprev _ => .I
  | .bufClear _ => .D
  | .bufAppend _ _ => .DB
  | .bufRead _ _ => .SI
  | .bufLen _ => .S

/-! ### The opcode map and the operands (R57, R61) -/

/-- The command an opcode byte selects, with the operands its format takes from `n` and `d`; `none` for a reserved
opcode (R57, R59). The must-be-zero bits are looked at by `decode`, not here. -/
def instrOf (op n : BitVec 8) (d : BitVec 64) : Option Instr :=
  match op.toNat with
  | 0x00 => some .sysNop
  | 0x10 => some .bsClear
  | 0x11 => some .bsRewind
  | 0x12 => some (.bsPush d n)
  | 0x13 => some (.bsPull n)
  | 0x14 => some .bsGet
  | 0x15 => some .bsTell
  | 0x20 => some (.bmConfig (nLo n) (dLo d) (dHi d))
  | 0x21 => some (.bmBit (nLo n) (dLo d) (dHi d))
  | 0x22 => some (.bmSet (nLo n) (dLo d) (dHi d))
  | 0x23 => some (.bmClear (nLo n) (dLo d) (dHi d))
  | 0x24 => some (.bmDsize (nLo n))
  | 0x25 => some (.bmGetsize (nLo n))
  | 0x26 => some (.bmCmp (nLo n) (nHi n))
  | 0x27 => some (.bmPack (nLo n))
  | 0x28 => some (.bmUnpack (nLo n))
  | 0x29 => some (.bmRdtile (nLo n) d)
  | 0x30 => some (.rlEnc (nHi n) (nLo n))
  | 0x31 => some (.rlDec (nHi n) (nLo n))
  | 0x40 => some (.dnConfig (dLo d))
  | 0x41 => some (.dnDelta (nLo n))
  | 0x42 => some (.dnCheck (nLo n))
  | 0x43 => some .dnRecode
  | 0x44 => some (.dnRdprev (dLo d))
  | 0x50 => some (.bufClear (nHi n))
  | 0x51 => some (.bufAppend (nHi n) (dByte d))
  | 0x52 => some (.bufRead (nLo n) d)
  | 0x53 => some (.bufLen (nLo n))
  | _ => none

/-! ### Decoding (R58) -/

/-- Why the decoder refuses a word. -/
inductive DecodeError where
  /-- The opcode is reserved: status `E_OPCODE` (R58 step 2, R59). -/
  | reservedOpcode
  /-- A must-be-zero bit is 1, or a bank or buffer id does not exist: status `E_FIELD` (R58 steps 3 and 4, R60). -/
  | reservedField
deriving DecidableEq, Repr

/-- No must-be-zero bit of the format is 1 (R55, R58 step 3). -/
def mbzClear (f : Format) (n : BitVec 8) (d : BitVec 64) : Bool :=
  n &&& mbzN f == 0 && d &&& mbzD f == 0

/-- The decode procedure of R58, steps 1 to 4, on every 80-bit word. -/
def decode (w : CmdWord) : Except DecodeError Instr :=
  match instrOf (opField w) (nField w) (dField w) with
  | none => .error .reservedOpcode
  | some i =>
    if mbzClear (formatOf i) (nField w) (dField w) && i.wf then .ok i else .error .reservedField

/-! ### Encoding -/

/-- The opcode byte of each command (R57). -/
def opcodeOf : Instr → BitVec 8
  | .sysNop => 0x00
  | .bsClear => 0x10
  | .bsRewind => 0x11
  | .bsPush _ _ => 0x12
  | .bsPull _ => 0x13
  | .bsGet => 0x14
  | .bsTell => 0x15
  | .bmConfig _ _ _ => 0x20
  | .bmBit _ _ _ => 0x21
  | .bmSet _ _ _ => 0x22
  | .bmClear _ _ _ => 0x23
  | .bmDsize _ => 0x24
  | .bmGetsize _ => 0x25
  | .bmCmp _ _ => 0x26
  | .bmPack _ => 0x27
  | .bmUnpack _ => 0x28
  | .bmRdtile _ _ => 0x29
  | .rlEnc _ _ => 0x30
  | .rlDec _ _ => 0x31
  | .dnConfig _ => 0x40
  | .dnDelta _ => 0x41
  | .dnCheck _ => 0x42
  | .dnRecode => 0x43
  | .dnRdprev _ => 0x44
  | .bufClear _ => 0x50
  | .bufAppend _ _ => 0x51
  | .bufRead _ _ => 0x52
  | .bufLen _ => 0x53

/-- `n` of each command: the bit count, or the ids in the nibbles R55 gives them; every other bit 0. -/
def nOf : Instr → BitVec 8
  | .sysNop => 0
  | .bsClear => 0
  | .bsRewind => 0
  | .bsPush _ bitCount => bitCount
  | .bsPull bitCount => bitCount
  | .bsGet => 0
  | .bsTell => 0
  | .bmConfig k _ _ => 0#4 ++ k
  | .bmBit k _ _ => 0#4 ++ k
  | .bmSet k _ _ => 0#4 ++ k
  | .bmClear k _ _ => 0#4 ++ k
  | .bmDsize k => 0#4 ++ k
  | .bmGetsize k => 0#4 ++ k
  | .bmCmp a b => b ++ a
  | .bmPack k => 0#4 ++ k
  | .bmUnpack k => 0#4 ++ k
  | .bmRdtile k _ => 0#4 ++ k
  | .rlEnc dst src => dst ++ src
  | .rlDec dst src => dst ++ src
  | .dnConfig _ => 0
  | .dnDelta src => 0#4 ++ src
  | .dnCheck src => 0#4 ++ src
  | .dnRecode => 0
  | .dnRdprev _ => 0
  | .bufClear dst => dst ++ 0#4
  | .bufAppend dst _ => dst ++ 0#4
  | .bufRead src _ => 0#4 ++ src
  | .bufLen src => 0#4 ++ src

/-- `d` of each command: a value, an index, `y` above `x`, an immediate or a byte; every other bit 0 (R55). -/
def dOf : Instr → BitVec 64
  | .sysNop => 0
  | .bsClear => 0
  | .bsRewind => 0
  | .bsPush value _ => value
  | .bsPull _ => 0
  | .bsGet => 0
  | .bsTell => 0
  | .bmConfig _ width height => height ++ width
  | .bmBit _ x y => y ++ x
  | .bmSet _ x y => y ++ x
  | .bmClear _ x y => y ++ x
  | .bmDsize _ => 0
  | .bmGetsize _ => 0
  | .bmCmp _ _ => 0
  | .bmPack _ => 0
  | .bmUnpack _ => 0
  | .bmRdtile _ t => t
  | .rlEnc _ _ => 0
  | .rlDec _ _ => 0
  | .dnConfig bands => 0#32 ++ bands
  | .dnDelta _ => 0
  | .dnCheck _ => 0
  | .dnRecode => 0
  | .dnRdprev c => 0#32 ++ c
  | .bufClear _ => 0
  | .bufAppend _ byte => 0#56 ++ byte
  | .bufRead _ index => index
  | .bufLen _ => 0

/-- The command word of a command (R54, R55, R57). -/
def encode (i : Instr) : CmdWord := mkWord (opcodeOf i) (nOf i) (dOf i)

/-! ### The opcode table as printed, and the host's way in -/

/-- One row of spec/opcode_table.json (R68). -/
structure TableRow where
  /-- `match`: the fixed bits of the row's opcode. -/
  pattern : CmdWord
  /-- `mask`: the bits that select the row. -/
  mask : CmdWord
  /-- `strict_mask`: the opcode bits together with every must-be-zero bit. -/
  strictMask : CmdWord
deriving DecidableEq, Repr

/-- The 28 rows of spec/opcode_table.json, in its order. -/
def opcodeTable : List TableRow :=
  [ ⟨0x00000000000000000000, 0xFF000000000000000000, 0xFFFFFFFFFFFFFFFFFFFF⟩,
    ⟨0x10000000000000000000, 0xFF000000000000000000, 0xFFFFFFFFFFFFFFFFFFFF⟩,
    ⟨0x11000000000000000000, 0xFF000000000000000000, 0xFFFFFFFFFFFFFFFFFFFF⟩,
    ⟨0x12000000000000000000, 0xFF000000000000000000, 0xFF000000000000000000⟩,
    ⟨0x13000000000000000000, 0xFF000000000000000000, 0xFF00FFFFFFFFFFFFFFFF⟩,
    ⟨0x14000000000000000000, 0xFF000000000000000000, 0xFFFFFFFFFFFFFFFFFFFF⟩,
    ⟨0x15000000000000000000, 0xFF000000000000000000, 0xFFFFFFFFFFFFFFFFFFFF⟩,
    ⟨0x20000000000000000000, 0xFF000000000000000000, 0xFFF00000000000000000⟩,
    ⟨0x21000000000000000000, 0xFF000000000000000000, 0xFFF00000000000000000⟩,
    ⟨0x22000000000000000000, 0xFF000000000000000000, 0xFFF00000000000000000⟩ ] ++
  [ ⟨0x23000000000000000000, 0xFF000000000000000000, 0xFFF00000000000000000⟩,
    ⟨0x24000000000000000000, 0xFF000000000000000000, 0xFFF0FFFFFFFFFFFFFFFF⟩,
    ⟨0x25000000000000000000, 0xFF000000000000000000, 0xFFF0FFFFFFFFFFFFFFFF⟩,
    ⟨0x26000000000000000000, 0xFF000000000000000000, 0xFF00FFFFFFFFFFFFFFFF⟩,
    ⟨0x27000000000000000000, 0xFF000000000000000000, 0xFFF0FFFFFFFFFFFFFFFF⟩,
    ⟨0x28000000000000000000, 0xFF000000000000000000, 0xFFF0FFFFFFFFFFFFFFFF⟩,
    ⟨0x29000000000000000000, 0xFF000000000000000000, 0xFFF00000000000000000⟩,
    ⟨0x30000000000000000000, 0xFF000000000000000000, 0xFF00FFFFFFFFFFFFFFFF⟩,
    ⟨0x31000000000000000000, 0xFF000000000000000000, 0xFF00FFFFFFFFFFFFFFFF⟩ ] ++
  [ ⟨0x40000000000000000000, 0xFF000000000000000000, 0xFFFFFFFFFFFF00000000⟩,
    ⟨0x41000000000000000000, 0xFF000000000000000000, 0xFFF0FFFFFFFFFFFFFFFF⟩,
    ⟨0x42000000000000000000, 0xFF000000000000000000, 0xFFF0FFFFFFFFFFFFFFFF⟩,
    ⟨0x43000000000000000000, 0xFF000000000000000000, 0xFFFFFFFFFFFFFFFFFFFF⟩,
    ⟨0x44000000000000000000, 0xFF000000000000000000, 0xFFFFFFFFFFFF00000000⟩,
    ⟨0x50000000000000000000, 0xFF000000000000000000, 0xFF0FFFFFFFFFFFFFFFFF⟩,
    ⟨0x51000000000000000000, 0xFF000000000000000000, 0xFF0FFFFFFFFFFFFFFF00⟩,
    ⟨0x52000000000000000000, 0xFF000000000000000000, 0xFFF00000000000000000⟩,
    ⟨0x53000000000000000000, 0xFF000000000000000000, 0xFFF0FFFFFFFFFFFFFFFF⟩ ]

/-- A table row's word as the block receives it: the low `nbits` bits of `w`, every bit above them 0, in one 80-bit
command word (R54, R62; log 15). -/
def tableWord (nbits w : Nat) : CmdWord := BitVec.ofNat 80 (w % 2 ^ nbits)

/-- The command the decoder reads from a table word, `none` where it refuses. -/
def decodeTableWord (nbits w : Nat) : Option Instr :=
  match decode (tableWord nbits w) with
  | .ok i => some i
  | .error _ => none

end Sys2Proof
end

