-- ==== Sys2Proof/Config.lean ====
section
/-! DEFINITION. What an implementation fixes (the OPEN parameters of 00_scope R6) and the free result field: a
point no rule of the spec gives a value to, as a constant without a body. (The other free value, Config.latency, takes
a State and stands in Machine/Port.lean.) -/

namespace Sys2Proof

/-- The OPEN parameters of 00_scope R6 (decision D7). `none` stands for the capacity `inf`. A value of this record is
carried in the machine's state and no step changes it, so a statement about every state is a statement about every
choice of the parameters (log 1). -/
structure Config where
  /-- `CAP[0]`, in bytes: the capacity of `SB`. -/
  capSB : Option Nat
  /-- `CAP[1]`, in bytes: the capacity of `IB`. -/
  capIB : Option Nat
  /-- `CAP[2]`, in bytes: the capacity of `OB`. -/
  capOB : Option Nat
  /-- `CAP[3]`, in bytes: the capacity of `VB`. -/
  capVB : Option Nat
  /-- `TILE_CAP`, in 64-bit words, of one bank. -/
  tileCap : Option Nat
  /-- `BANDS_MAX`, the largest legal band count. -/
  bandsMax : Nat
deriving DecidableEq, Repr

/-- The constraints 00_scope R6 and R7 put on the OPEN parameters: `1 ≤ BANDS_MAX ≤ 2^32 − 1`, and a finite `CAP[0]`
has `8·CAP[0] < 2^64`. -/
abbrev Config.wf (c : Config) : Prop :=
  1 ≤ c.bandsMax ∧ c.bandsMax ≤ 2 ^ 32 - 1 ∧ ∀ n ∈ c.capSB, 8 * n < 2 ^ 64

/-- The values that match the source (00_scope R6): every capacity `inf`, `BANDS_MAX = 2^32 − 1`.
DESIGN CHOICE (log 1): the spec leaves the parameters OPEN; this is what the reset state of the model takes. -/
def Config.unbounded : Config := ⟨none, none, none, none, none, 2 ^ 32 - 1⟩

/-- The 64-bit result field of the `k`-th response word when the result is `2^64` or more: "no rule says what a
response carries beyond that" (00_scope R7, U22). A FREE VALUE: no body, nothing constrains it (log 5). -/
opaque Config.freeResult : Nat → BitVec 64

end Sys2Proof
end

