-- ==== Sys2Proof/Machine/Constants.lean ====
section
/-! DEFINITION. The parameters of 00_scope R6 that the spec fixes by a decision, other than the Morton table
(Machine/BMap.lean) and the number of banks and buffers (WellFormed.lean). -/

namespace Sys2Proof.Machine

/-- `W`, the largest bit count of a push or a pull (00_scope R6, decision D6). -/
def maxBits : Nat := 64

/-- `PREV_DEFAULT`, the value that seeds every `PREV[c]` (00_scope R6, decision D20; log 10). -/
def prevDefault : Byte := 127

end Sys2Proof.Machine
end

