-- ==== Sys2Proof/Machine/State.lean ====
section
/-! DEFINITION. The state of the SiBi block (10_state), the responses it gives, and the state after reset. -/

namespace Sys2Proof.Machine

/-- The twelve statuses of 60_exceptions R148; `Status.code` (Machine/Flags.lean) gives their bytes. -/
inductive Status where
  /-- Carried out; the boolean result is true; the check succeeded. -/
  | ok
  /-- Carried out; the source's boolean false: the pull ran out of bits, a difference, a mismatch (R152). -/
  | sFalse
  /-- Refused: reserved opcode. -/
  | eOpcode
  /-- Refused: a must-be-zero bit is 1, or a bank or buffer id does not exist. -/
  | eField
  /-- Refused: bit count above 64. -/
  | eCount
  /-- Refused: the push value has a bit at or above the bit count. -/
  | eUnmasked
  /-- Refused: a coordinate or an index out of range. -/
  | eRange
  /-- Refused: a buffer or a tile array would exceed its capacity. -/
  | eCapacity
  /-- Refused: `BM.UNPACK` with too few bits in the stream. -/
  | eUnderrun
  /-- Refused: the source of `RL.DEC` is not a well-formed pair sequence. -/
  | eMalformed
  /-- Refused: `DN.CONFIG` with an illegal band count. -/
  | eParam
  /-- Refused: source and destination are the same buffer. -/
  | eAlias
deriving DecidableEq, Repr

/-- One response: a status and a result. The result is a natural, as 00_scope R7 asks of a model whose capacities may
be `inf`; `Response.word` (Machine/Flags.lean) is the 72-bit word. -/
structure Response where
  /-- `st`. -/
  st : Status
  /-- `r`. -/
  r : Nat
deriving DecidableEq, Repr

/-- What the host does to the block: it sends a command word, or it applies reset between two commands
(30_encoding R53, 70_reset R173). -/
inductive HostEvent where
  /-- The host sends the command word `w`. -/
  | command (w : CmdWord)
  /-- The host applies reset. -/
  | rst
deriving DecidableEq, Repr

/-- The two banks (10_state R23, decision D31). -/
inductive BankId where
  | m0 | m1
deriving DecidableEq, Repr

/-- The four byte buffers (10_state R18 to R22, decision D8). -/
inductive BufId where
  | sb | ib | ob | vb
deriving DecidableEq, Repr

/-- One bitmap (10_state R23, R25). -/
structure Bank where
  /-- `BW`: width. -/
  bw : BitVec 32
  /-- `BH`: height. -/
  bh : BitVec 32
  /-- `TILES`: the tile words, in storage order. -/
  tiles : List Tile
deriving DecidableEq, Repr

/-- The state: every element of 10_state's record, the OPEN parameters the step reads, and the host's side of the
command port. -/
structure State where
  /-- `SB`, the stream buffer (R18). -/
  sb : List Byte
  /-- `CUR`, the bit cursor (R19); a natural, as 00_scope R7 asks when `CAP[0]` may be `inf`. -/
  cur : Nat
  /-- `IB`, the input buffer (R20). -/
  ib : List Byte
  /-- `OB`, the output buffer (R21). -/
  ob : List Byte
  /-- `VB`, the delta buffer (R22). -/
  vb : List Byte
  /-- `BW[0]`, `BH[0]`, `TILES[0]` (R23, R25). -/
  bank0 : Bank
  /-- `BW[1]`, `BH[1]`, `TILES[1]` (R23, R25). -/
  bank1 : Bank
  /-- `BANDS` (R27). -/
  bands : Nat
  /-- `PREV` (R28). -/
  prev : List Byte
  /-- The MODEL's own: the OPEN parameters of 00_scope R6, which no step changes (log 1). -/
  cfg : Config
  /-- The MODEL's own: what the host will still do, in order (R16; log 2). -/
  inbox : List HostEvent
  /-- The MODEL's own: the responses the host has received, newest first (log 2). The block retains none (R30) and
  no command reads this. -/
  rsps : List Response
deriving DecidableEq, Repr

/-- Why the machine stops with a fault: it never does. Every refusal of the spec is a response after which the machine
goes on (60_exceptions R149, R155), and `exec` is total (30_encoding R53), so there is no constructor. -/
inductive Fault where
deriving DecidableEq, Repr

/-- Why the model refuses to run an instruction. -/
inductive Refusal where
  /-- Raised by an arm of `exec` whose instruction has no meaning yet; no arm does. Safe: the machine stops. -/
  | notModelled (mnemonic : String)
deriving DecidableEq, Repr

/-- A bank of no size, before `BM.CONFIG` (10_state R32). -/
def Bank.reset : Bank := ⟨0, 0, []⟩

/-- The machine right after reset: 10_state R32, 70_reset R171. The last three fields are the model's own: the OPEN
parameters at the values that match the source, no host event, no response (logs 1, 2). -/
def State.reset : State where
  sb := []
  cur := 0
  ib := []
  ob := []
  vb := []
  bank0 := Bank.reset
  bank1 := Bank.reset
  bands := 1
  prev := [prevDefault]
  cfg := Config.unbounded
  inbox := []
  rsps := []

end Sys2Proof.Machine
end

