-- ==== Sys2Proof/Machine/Flags.lean ====
section
/-! DEFINITION. The block has no flag register (10_state R17): the source's boolean outcomes are the status of the
response. This file holds all there is to say about statuses: their codes, their classes, the response word. -/

namespace Sys2Proof.Machine

/-- The status byte (60_exceptions R148). -/
def Status.code : Status → BitVec 8
  | .ok => 0x00
  | .sFalse => 0x01
  | .eOpcode => 0x80
  | .eField => 0x81
  | .eCount => 0x82
  | .eUnmasked => 0x83
  | .eRange => 0x84
  | .eCapacity => 0x85
  | .eUnderrun => 0x86
  | .eMalformed => 0x87
  | .eParam => 0x88
  | .eAlias => 0x89

/-- "Codes below `0x80` mean the command was carried out; codes from `0x80` up mean it was refused" (R148). -/
def Status.refused (st : Status) : Bool := decide (0x80 ≤ st.code.toNat)

/-- The status that carries a boolean outcome: `OK` for true, `S_FALSE` for false (10_state R17). -/
def Status.ofBool (b : Bool) : Status := if b then .ok else .sFalse

/-- The status the decoder's refusal answers (30_encoding R58). -/
def statusOfDecodeError : DecodeError → Status
  | .reservedOpcode => .eOpcode
  | .reservedField => .eField

/-- The 64-bit result field of the `k`-th response (30_encoding R56). At `2^64` and above no rule gives it a value
(00_scope R7, U22): a free value (log 5). -/
def resultField (k r : Nat) : BitVec 64 :=
  if r < 2 ^ 64 then BitVec.ofNat 64 r else Config.freeResult k

/-- The `k`-th response as a word: `RW = st·2^64 + r` (30_encoding R56). -/
def Response.word (k : Nat) (p : Response) : RspWord := p.st.code ++ resultField k p.r

/-- The word of the newest response, numbered by its place among all responses since the model began. -/
def State.lastWord (s : State) : Option RspWord :=
  s.rsps.head?.map (Response.word s.rsps.length)

end Sys2Proof.Machine
end

