-- ==== Sys2Proof/Machine/Operands.lean ====
section
/-! DEFINITION. The operand forms (00_scope R12, 30_encoding R55, R61): bank ids, buffer ids, and what they select in
the state. Values, counts, coordinates, indices and immediates are plain unsigned numbers and need no more than
`BitVec.toNat`. -/

namespace Sys2Proof.Machine

/-- The bank a 4-bit id names; ids `NBANK..15` are reserved (20_memory R44). -/
def bankOf (k : BitVec 4) : Option BankId :=
  match k.toNat with
  | 0 => some .m0
  | 1 => some .m1
  | _ => none

/-- `Buf(i)` of 00_scope R12: the buffer a 4-bit id names; ids `4..15` are reserved (20_memory R44). -/
def bufOf (b : BitVec 4) : Option BufId :=
  match b.toNat with
  | 0 => some .sb
  | 1 => some .ib
  | 2 => some .ob
  | 3 => some .vb
  | _ => none

/-- The contents of a buffer. -/
def State.buf (s : State) : BufId → List Byte
  | .sb => s.sb
  | .ib => s.ib
  | .ob => s.ob
  | .vb => s.vb

/-- A buffer's contents replaced, nothing else: in particular `CUR` stays (but see `State.replaceBuf`). -/
def State.setBuf (s : State) (b : BufId) (bytes : List Byte) : State :=
  match b with
  | .sb => { s with sb := bytes }
  | .ib => { s with ib := bytes }
  | .ob => { s with ob := bytes }
  | .vb => { s with vb := bytes }

/-- A bank. -/
def State.bank (s : State) : BankId → Bank
  | .m0 => s.bank0
  | .m1 => s.bank1

/-- A bank replaced. -/
def State.setBank (s : State) (k : BankId) (m : Bank) : State :=
  match k with
  | .m0 => { s with bank0 := m }
  | .m1 => { s with bank1 := m }

/-- `CAP[b]` (00_scope R6); `none` is `inf`. -/
def capOf (c : Config) : BufId → Option Nat
  | .sb => c.capSB
  | .ib => c.capIB
  | .ob => c.capOB
  | .vb => c.capVB

end Sys2Proof.Machine
end

