-- ==== Sys2Proof/Machine/Ops.lean ====
section
/-! DEFINITION. The named operations every command is made of: ending a command (00_scope R11), the checks shared by
several commands, the storage (20_memory), the stream primitives (20_memory R37, R38) and their chunked form (R39), and
what the host does between commands. -/

namespace Sys2Proof.Machine

/-- What a command answers. -/
abbrev Outcome := Host.Outcome State Fault Refusal

/-! ### Ending a command (00_scope R11) -/

/-- The host receives a response; nothing else changes. -/
def State.deliver (s : State) (p : Response) : State := { s with rsps := p :: s.rsps }

/-- `respond(st, r)`: end the command with every state write it made so far. -/
def State.respond (s : State) (st : Status) (r : Nat) : Outcome := .next (s.deliver ⟨st, r⟩)

/-- `raise E`: end the command with the error status, `r = 0`, and the state as it was at the start of the command
(00_scope R11, 60_exceptions R149). Always applied to the state the command started from. This is the whole of
"taking an exception" on this hardware, a next state (R159; log 3); there is no return from one (R154, R155). -/
def State.raise (s : State) (e : Status) : Outcome := s.respond e 0

/-- The bank an id names, or `E_FIELD` (30_encoding R60; log 9). -/
def withBank (s : State) (k : BitVec 4) (f : BankId → Outcome) : Outcome :=
  match bankOf k with
  | none => s.raise .eField
  | some b => f b

/-- The buffer an id names, or `E_FIELD` (30_encoding R60; log 9). -/
def withBuf (s : State) (b : BitVec 4) (f : BufId → Outcome) : Outcome :=
  match bufOf b with
  | none => s.raise .eField
  | some x => f x

/-! ### Capacities and whole buffers (20_memory R51, R52) -/

/-- A size exceeds a capacity; it never exceeds `inf` (20_memory R51). -/
def overCap (cap : Option Nat) (size : Nat) : Bool :=
  match cap with
  | none => false
  | some c => decide (c < size)

/-- A buffer's whole contents replaced (or emptied): when it is `SB`, `CUR` goes to 0 (20_memory R52). -/
def State.replaceBuf (s : State) (b : BufId) (bytes : List Byte) : State :=
  match b with
  | .sb => { s with sb := bytes, cur := 0 }
  | .ib => { s with ib := bytes }
  | .ob => { s with ob := bytes }
  | .vb => { s with vb := bytes }

/-- `MemRead((b,k), 1)` of 00_scope R9: byte `k` of a buffer, `none` where it does not exist (20_memory R35). -/
def State.readByte (s : State) (b : BufId) (k : Nat) : Option Byte := (s.buf b)[k]?

/-! ### The bit view of a byte buffer (00_scope R10) -/

/-- `BitAt(B, p) = B[p div 8][p mod 8]`; false where there is no such byte (log 7). -/
def bitAt (bytes : List Byte) (p : Nat) : Bool := (bytes.getD (p / 8) 0).getLsbD (p % 8)

/-- A byte with bit `j` replaced by `b`. -/
def byteSetBit (x : Byte) (j : Nat) (b : Bool) : Byte :=
  if b then x ||| BitVec.twoPow 8 j else x &&& ~~~ BitVec.twoPow 8 j

/-- `SetBit(B, p, b)`: bit `p mod 8` of byte `p div 8` replaced, no other bit changed. -/
def setBit (bytes : List Byte) (p : Nat) (b : Bool) : List Byte :=
  bytes.modify (p / 8) (fun x => byteSetBit x (p % 8) b)

/-- One zero byte appended when position `p` lies just past the end (20_memory R37). -/
def growAt (bytes : List Byte) (p : Nat) : List Byte :=
  if p / 8 = bytes.length then bytes ++ [0] else bytes

/-! ### The stream primitives -/

/-- `StreamWrite(c, n, v)` (20_memory R37): bit `i` of `v` goes to position `c + i`, lowest first. -/
def streamWrite (bytes : List Byte) (c : Nat) : Nat → Nat → List Byte
  | 0, _ => bytes
  | n + 1, v => streamWrite (setBit (growAt bytes c) c (v.testBit 0)) (c + 1) n (v / 2)

/-- `StreamRead(c, m)` (20_memory R38): the bit at the lowest position becomes bit 0 of the result. -/
def streamRead (bytes : List Byte) (c : Nat) : Nat → Nat
  | 0 => 0
  | m + 1 => (bitAt bytes c).toNat + 2 * streamRead bytes (c + 1) m

/-! ### The chunked datapath (20_memory R39) -/

/-- How many bits the next chunk moves: at most what is left in the current byte. -/
def chunkLen (c n : Nat) : Nat := min (8 - c % 8) n

/-- One chunk of a write: `k` bits at bit offset `off` of a byte, the other bits kept. -/
def chunkMerge (x : Byte) (off k v : Nat) : Byte :=
  (x &&& ~~~ BitVec.ofNat 8 ((2 ^ k - 1) * 2 ^ off)) ||| BitVec.ofNat 8 ((v % 2 ^ k) * 2 ^ off)

/-- The write loop of R39, with the number of bits as its bound: each turn moves at least one. -/
def chunkWriteLoop : Nat → List Byte → Nat → Nat → Nat → List Byte
  | 0, bytes, _, _, _ => bytes
  | fuel + 1, bytes, c, n, v =>
    if n = 0 then bytes
    else
      let k := chunkLen c n
      chunkWriteLoop fuel ((growAt bytes c).modify (c / 8) (fun x => chunkMerge x (c % 8) k v))
        (c + k) (n - k) (v / 2 ^ k)

/-- The chunked write of R39. -/
def chunkWrite (bytes : List Byte) (c n v : Nat) : List Byte := chunkWriteLoop n bytes c n v

/-- The read loop of R39: `res` and `got` are its accumulators. -/
def chunkReadLoop : Nat → List Byte → Nat → Nat → Nat → Nat → Nat
  | 0, _, _, _, res, _ => res
  | fuel + 1, bytes, c, m, res, got =>
    if m = 0 then res
    else
      let k := chunkLen c m
      chunkReadLoop fuel bytes (c + k) (m - k)
        (res + ((bytes.getD (c / 8) 0).toNat / 2 ^ (c % 8) % 2 ^ k) * 2 ^ got) (got + k)

/-- The chunked read of R39. -/
def chunkRead (bytes : List Byte) (c m : Nat) : Nat := chunkReadLoop m bytes c m 0 0

/-! ### What the host does between commands -/

/-- Reset (70_reset R171, R173): the block's whole state takes the reset values. The OPEN parameters are constants and
stay, and so does the host's own side of the port. -/
def State.applyReset (s : State) : State :=
  { State.reset with cfg := s.cfg, inbox := s.inbox, rsps := s.rsps }

end Sys2Proof.Machine
end

