-- ==== Sys2Proof/Machine/BitStream.lean ====
section
/-! DEFINITION. The BitStream unit (40_bitstream). -/

namespace Sys2Proof.Machine

/-- The bits of `SB` from the cursor to the end (R80). -/
def State.avail (s : State) : Nat := 8 * s.sb.length - s.cur

/-- The length `SB` has after `n` bits are written at the cursor (R79, R100). -/
def State.lenAfterWrite (s : State) (n : Nat) : Nat := max s.sb.length (ceil8 (s.cur + n))

/-- `BS.CLEAR` (R77). -/
def execBsClear (s : State) : Outcome := (s.replaceBuf .sb []).respond .ok 0

/-- `BS.REWIND` (R78). -/
def execBsRewind (s : State) : Outcome := State.respond { s with cur := 0 } .ok 0

/-- `BS.PUSH value, bitCount` (R79): the three checks in order, then the write. -/
def execBsPush (value : BitVec 64) (bitCount : BitVec 8) (s : State) : Outcome :=
  let n := bitCount.toNat
  if maxBits < n then s.raise .eCount
  else if 2 ^ n ≤ value.toNat then s.raise .eUnmasked
  else if overCap s.cfg.capSB (s.lenAfterWrite n) then s.raise .eCapacity
  else State.respond { s with sb := streamWrite s.sb s.cur n value.toNat, cur := s.cur + n } .ok (s.cur + n)

/-- `BS.PULL bitCount` (R80): what is there, zero-extended; `S_FALSE` when it is less than was asked for. -/
def execBsPull (bitCount : BitVec 8) (s : State) : Outcome :=
  let n := bitCount.toNat
  if maxBits < n then s.raise .eCount
  else
    let m := min n s.avail
    State.respond { s with cur := s.cur + m } (Status.ofBool (decide (n ≤ s.avail))) (streamRead s.sb s.cur m)

/-- `BS.GET` (R81): at the end of the stream it answers 0 and does not advance. -/
def execBsGet (s : State) : Outcome :=
  if s.cur < 8 * s.sb.length then State.respond { s with cur := s.cur + 1 } .ok (bitAt s.sb s.cur).toNat
  else s.respond .ok 0

/-- `BS.TELL` (R82). -/
def execBsTell (s : State) : Outcome := s.respond .ok s.cur

end Sys2Proof.Machine
end

