-- ==== Sys2Proof/Machine/BMap.lean ====
section
/-! DEFINITION. The BMap unit (41_bmap): the Morton table, where a bit of the bitmap lies, and the ten commands. -/

namespace Sys2Proof.Machine

/-! ### Geometry (R90 to R92) -/

/-- The Morton table as R91 prints it, index `ly*8 + lx` (decision D12; log 10). -/
def mortonTable : List Nat :=
  [ 0, 1, 4, 5, 16, 17, 20, 21,   2, 3, 6, 7, 18, 19, 22, 23 ] ++
  [ 8, 9, 12, 13, 24, 25, 28, 29,   10, 11, 14, 15, 26, 27, 30, 31 ] ++
  [ 32, 33, 36, 37, 48, 49, 52, 53,   34, 35, 38, 39, 50, 51, 54, 55 ] ++
  [ 40, 41, 44, 45, 56, 57, 60, 61,   42, 43, 46, 47, 58, 59, 62, 63 ]

/-- `MORTON[i]`. -/
def morton (i : Nat) : Nat := mortonTable.getD i 0

/-- `NT` for given dimensions: `ceil8(width)·ceil8(height)` (10_state R24). -/
def tileCount (width height : BitVec 32) : Nat := ceil8 width.toNat * ceil8 height.toNat

/-- `TileIndex(k, x, y)` for a bank of the given width (R92). -/
def tileIndex (width x y : BitVec 32) : Nat := ceil8 width.toNat * (y.toNat / 8) + x.toNat / 8

/-- `BitPos(x, y)` (R92): position `p` is the bit of weight `2^p`. -/
def bitPos (x y : BitVec 32) : Nat := morton (y.toNat % 8 * 8 + x.toNat % 8)

/-- The coordinates are inside the bitmap (R94): the bitmap's dimensions, not the tile grid's. -/
def Bank.inRange (m : Bank) (x y : BitVec 32) : Bool :=
  decide (x.toNat < m.bw.toNat) && decide (y.toNat < m.bh.toNat)

/-- The bit of `(x, y)` (R92). -/
def Bank.bitXY (m : Bank) (x y : BitVec 32) : Bool :=
  (m.tiles.getD (tileIndex m.bw x y) 0).getLsbD (bitPos x y)

/-- One tile word changed. -/
def Bank.modifyTile (m : Bank) (t : Nat) (f : Tile → Tile) : Bank := { m with tiles := m.tiles.modify t f }

/-- The mask of one bit position of a tile word. -/
def posMask (p : Nat) : Tile := BitVec.twoPow 64 p

/-- The bank an id names and coordinates inside it, or `E_FIELD`, then `E_RANGE` (R94). -/
def withPoint (s : State) (k : BitVec 4) (x y : BitVec 32) (f : BankId → Outcome) : Outcome :=
  withBank s k fun b => if (s.bank b).inRange x y then f b else s.raise .eRange

/-! ### Construction and single bits -/

/-- `BM.CONFIG Mk, width, height` (R93). -/
def execBmConfig (k : BitVec 4) (width height : BitVec 32) (s : State) : Outcome :=
  withBank s k fun b =>
    let nt := tileCount width height
    if overCap s.cfg.tileCap nt then s.raise .eCapacity
    else (s.setBank b ⟨width, height, List.replicate nt 0⟩).respond .ok nt

/-- `BM.BIT Mk, x, y` (R94). -/
def execBmBit (k : BitVec 4) (x y : BitVec 32) (s : State) : Outcome :=
  withPoint s k x y fun b => s.respond .ok ((s.bank b).bitXY x y).toNat

/-- `BM.SET Mk, x, y` (R95). -/
def execBmSet (k : BitVec 4) (x y : BitVec 32) (s : State) : Outcome :=
  withPoint s k x y fun b =>
    let m := s.bank b
    (s.setBank b (m.modifyTile (tileIndex m.bw x y) (fun w => w ||| posMask (bitPos x y)))).respond .ok 0

/-- `BM.CLEAR Mk, x, y` (R96). -/
def execBmClear (k : BitVec 4) (x y : BitVec 32) (s : State) : Outcome :=
  withPoint s k x y fun b =>
    let m := s.bank b
    (s.setBank b (m.modifyTile (tileIndex m.bw x y) (fun w => w &&& ~~~ posMask (bitPos x y)))).respond .ok 0

/-! ### Sizes and comparison -/

/-- `BM.DSIZE Mk` (R97). -/
def execBmDsize (k : BitVec 4) (s : State) : Outcome :=
  withBank s k fun b => s.respond .ok (8 * (s.bank b).tiles.length)

/-- `BM.GETSIZE Mk` (R98): the height in `r[63:32]`, the width in `r[31:0]`. -/
def execBmGetsize (k : BitVec 4) (s : State) : Outcome :=
  withBank s k fun b => s.respond .ok ((s.bank b).bh.toNat * 2 ^ 32 + (s.bank b).bw.toNat)

/-- `BM.CMP Ma, Mb` (R99): the tile arrays only; the dimensions are not compared. -/
def execBmCmp (a b : BitVec 4) (s : State) : Outcome :=
  withBank s a fun ka => withBank s b fun kb =>
    if (s.bank ka).tiles = (s.bank kb).tiles then s.respond .ok 1 else s.respond .sFalse 0

/-! ### Pack, unpack, and reading a tile -/

/-- The tiles of a bank pushed whole, in storage order, from position `c` on (R100). -/
def packTiles (bytes : List Byte) (c : Nat) : List Tile → List Byte
  | [] => bytes
  | t :: rest => packTiles (streamWrite bytes c 64 t.toNat) (c + 64) rest

/-- `n` tiles read from position `c` on (R101). -/
def unpackTiles (bytes : List Byte) (c : Nat) : Nat → List Tile
  | 0 => []
  | n + 1 => BitVec.ofNat 64 (streamRead bytes c 64) :: unpackTiles bytes (c + 64) n

/-- `BM.PACK Mk` (R100). `NT[k]` is read as the length of the tile array (10_state R33; log 6). -/
def execBmPack (k : BitVec 4) (s : State) : Outcome :=
  withBank s k fun b =>
    let total := 64 * (s.bank b).tiles.length
    if overCap s.cfg.capSB (s.lenAfterWrite total) then s.raise .eCapacity
    else State.respond { s with sb := packTiles s.sb s.cur (s.bank b).tiles, cur := s.cur + total } .ok total

/-- `BM.UNPACK Mk` (R101): all the tiles or nothing. -/
def execBmUnpack (k : BitVec 4) (s : State) : Outcome :=
  withBank s k fun b =>
    let m := s.bank b
    let total := 64 * m.tiles.length
    if s.avail < total then s.raise .eUnderrun
    else
      State.respond { s.setBank b { m with tiles := unpackTiles s.sb s.cur m.tiles.length } with cur := s.cur + total }
        .ok total

/-- `BM.RDTILE Mk, t` (R102). -/
def execBmRdtile (k : BitVec 4) (t : BitVec 64) (s : State) : Outcome :=
  withBank s k fun b =>
    match (s.bank b).tiles[t.toNat]? with
    | none => s.raise .eRange
    | some w => s.respond .ok w.toNat

end Sys2Proof.Machine
end

