-- ==== Sys2Proof/Machine/Denc.lean ====
section
/-! DEFINITION. The Denc unit (43_denc): per-band deltas, their self-check, and the sign-folding recode. Byte arithmetic
wraps modulo 256, as `BitVec 8` does. -/

namespace Sys2Proof.Machine

/-- `P = (L div BANDS)·BANDS`: how many bytes of an input of length `len` are processed (R124). -/
def processed (len bands : Nat) : Nat := len / bands * bands

/-- The loop of R126 from input index `i` on: the delta bytes in the order of the input (R130), and the final
`PREV`. -/
def deltaLoop (bands : Nat) : Nat → List Byte → List Byte → List Byte × List Byte
  | _, [], prev => ([], prev)
  | i, x :: rest, prev =>
    let c := i % bands
    let out := deltaLoop bands (i + 1) rest (prev.set c x)
    ((x - prev.getD c 0) :: out.1, out.2)

/-- The loop of R127 from index `i` on, over the rest of the input and the rest of `VB`: the final `PREV`, and the
index of the first divergence where there is one. The running value is stored before it is compared. -/
def checkLoop (bands : Nat) : Nat → List Byte → List Byte → List Byte → List Byte × Option Nat
  | _, [], _, prev => (prev, none)
  | i, _ :: _, [], prev => (prev, some i)
  | i, x :: xs, v :: vs, prev =>
    let c := i % bands
    let rec' := prev.getD c 0 + v
    if rec' = x then checkLoop bands (i + 1) xs vs (prev.set c rec') else (prev.set c rec', some i)

/-- The sign-folding map of one byte (R128). -/
def recodeByte (b : Byte) : Byte :=
  if 128 ≤ b.toNat then BitVec.ofNat 8 255 - 2 * b else 2 * b

/-- `DN.CONFIG bands` (R125). -/
def execDnConfig (bands : BitVec 32) (s : State) : Outcome :=
  if bands.toNat = 0 ∨ s.cfg.bandsMax < bands.toNat then s.raise .eParam
  else
    State.respond { s with bands := bands.toNat, prev := List.replicate bands.toNat prevDefault, vb := [] } .ok 0

/-- `DN.DELTA src` (R126): `PREV` goes on from where it stands. -/
def execDnDelta (src : BitVec 4) (s : State) : Outcome :=
  withBuf s src fun b =>
    if b = .vb then s.raise .eAlias
    else
      let p := processed (s.buf b).length s.bands
      if overCap s.cfg.capVB (s.vb.length + p) then s.raise .eCapacity
      else
        let out := deltaLoop s.bands 0 ((s.buf b).take p) s.prev
        State.respond { s with vb := s.vb ++ out.1, prev := out.2 } .ok p

/-- `DN.CHECK src` (R127): every `PREV[c]` is set to the default first, and keeps what the replay wrote. -/
def execDnCheck (src : BitVec 4) (s : State) : Outcome :=
  withBuf s src fun b =>
    let p := processed (s.buf b).length s.bands
    let out := checkLoop s.bands 0 ((s.buf b).take p) s.vb (List.replicate s.bands prevDefault)
    let t := { s with prev := out.1 }
    match out.2 with
    | none => t.respond .ok p
    | some i => t.respond .sFalse i

/-- `DN.RECODE` (R128). -/
def execDnRecode (s : State) : Outcome :=
  State.respond { s with vb := s.vb.map recodeByte } .ok s.vb.length

/-- `DN.RDPREV c` (R129). -/
def execDnRdprev (c : BitVec 32) (s : State) : Outcome :=
  if s.bands ≤ c.toNat then s.raise .eRange else s.respond .ok (s.prev.getD c.toNat 0).toNat

end Sys2Proof.Machine
end

