-- ==== Sys2Proof/Machine/HostAccess.lean ====
section
/-! DEFINITION. The host commands (44_host): `SYS.NOP` and the host's access to the byte buffers. -/

namespace Sys2Proof.Machine

/-- `SYS.NOP` (R138). -/
def execSysNop (s : State) : Outcome := s.respond .ok 0

/-- `BUF.CLEAR dst` (R139). -/
def execBufClear (dst : BitVec 4) (s : State) : Outcome :=
  withBuf s dst fun b => (s.replaceBuf b []).respond .ok 0

/-- `BUF.APPEND dst, byte` (R140): the cursor stays, also for `SB` (20_memory R52). -/
def execBufAppend (dst : BitVec 4) (byte : Byte) (s : State) : Outcome :=
  withBuf s dst fun b =>
    if overCap (capOf s.cfg b) ((s.buf b).length + 1) then s.raise .eCapacity
    else (s.setBuf b (s.buf b ++ [byte])).respond .ok ((s.buf b).length + 1)

/-- `BUF.READ src, index` (R141). -/
def execBufRead (src : BitVec 4) (index : BitVec 64) (s : State) : Outcome :=
  withBuf s src fun b =>
    match s.readByte b index.toNat with
    | none => s.raise .eRange
    | some x => s.respond .ok x.toNat

/-- `BUF.LEN src` (R142). -/
def execBufLen (src : BitVec 4) (s : State) : Outcome :=
  withBuf s src fun b => s.respond .ok (s.buf b).length

end Sys2Proof.Machine
end

