-- ==== Sys2Proof/Machine/Rle.lean ====
section
/-! DEFINITION. The RLE unit (42_rle): pairs (count, value), count first, 1 to 255 (R114, decision D18). -/

namespace Sys2Proof.Machine

/-- The encoder inside a run: `v` has been seen `len` times in a row (`1 ≤ len ≤ 255`). One pass over the input that
makes the greedy runs of R115's loop (log 8). -/
def rlRun (v : Byte) (len : Nat) : List Byte → List Byte
  | [] => [BitVec.ofNat 8 len, v]
  | x :: rest =>
    if x = v ∧ len < 255 then rlRun v (len + 1) rest else BitVec.ofNat 8 len :: v :: rlRun x 1 rest

/-- The run-length encoding of a byte sequence (R115). -/
def rlEncode : List Byte → List Byte
  | [] => []
  | x :: rest => rlRun x 1 rest

/-- A well-formed pair sequence: even length and no zero count (R114, R116). -/
def rlWellFormed : List Byte → Bool
  | [] => true
  | [_] => false
  | count :: _ :: rest => decide (count ≠ 0) && rlWellFormed rest

/-- The sum of the count bytes: the length of the decoding (R116). -/
def rlTotal : List Byte → Nat
  | count :: _ :: rest => count.toNat + rlTotal rest
  | _ => 0

/-- The decoding of a well-formed pair sequence (R116). -/
def rlDecode : List Byte → List Byte
  | count :: v :: rest => List.replicate count.toNat v ++ rlDecode rest
  | _ => []

/-- `RL.ENC dst, src` (R115). -/
def execRlEnc (dst src : BitVec 4) (s : State) : Outcome :=
  withBuf s dst fun tgt => withBuf s src fun frm =>
    if frm = tgt then s.raise .eAlias
    else
      let out := rlEncode (s.buf frm)
      if overCap (capOf s.cfg tgt) out.length then s.raise .eCapacity
      else (s.replaceBuf tgt out).respond .ok out.length

/-- `RL.DEC dst, src` (R116): the whole source is validated before anything is written. -/
def execRlDec (dst src : BitVec 4) (s : State) : Outcome :=
  withBuf s dst fun tgt => withBuf s src fun frm =>
    if frm = tgt then s.raise .eAlias
    else if rlWellFormed (s.buf frm) = false then s.raise .eMalformed
    else if overCap (capOf s.cfg tgt) (rlTotal (s.buf frm)) then s.raise .eCapacity
    else (s.replaceBuf tgt (rlDecode (s.buf frm))).respond .ok (rlDecode (s.buf frm)).length

/-! ### The encoder as R115 writes it, for the statement that both agree -/

/-- The inner loop of R115: how far a run of `v` that has length `len` goes, at most 255. -/
def rlScan (v : Byte) : Nat → List Byte → Nat
  | len, [] => len
  | len, x :: rest => if len < 255 ∧ x = v then rlScan v (len + 1) rest else len

/-- The outer loop of R115, with the input's length as its bound: each turn takes at least one byte. -/
def rlEncodeLoop : Nat → List Byte → List Byte
  | 0, _ => []
  | _ + 1, [] => []
  | fuel + 1, v :: rest =>
    let len := rlScan v 1 rest
    BitVec.ofNat 8 len :: v :: rlEncodeLoop fuel (rest.drop (len - 1))

end Sys2Proof.Machine
end

