-- ==== Sys2Proof/Machine/Dispatch.lean ====
section
/-! DEFINITION. One arm per command: exec is 30_encoding R53's function on a decoded command. -/

namespace Sys2Proof.Machine

def exec (i : Instr) (s : State) : Host.Outcome State Fault Refusal :=
  match i with
  | .sysNop => Sys2Proof.Machine.execSysNop s
  | .bsClear => Sys2Proof.Machine.execBsClear s
  | .bsRewind => Sys2Proof.Machine.execBsRewind s
  | .bsPush value bitCount => Sys2Proof.Machine.execBsPush value bitCount s
  | .bsPull bitCount => Sys2Proof.Machine.execBsPull bitCount s
  | .bsGet => Sys2Proof.Machine.execBsGet s
  | .bsTell => Sys2Proof.Machine.execBsTell s
  | .bmConfig k width height => Sys2Proof.Machine.execBmConfig k width height s
  | .bmBit k x y => Sys2Proof.Machine.execBmBit k x y s
  | .bmSet k x y => Sys2Proof.Machine.execBmSet k x y s
  | .bmClear k x y => Sys2Proof.Machine.execBmClear k x y s
  | .bmDsize k => Sys2Proof.Machine.execBmDsize k s
  | .bmGetsize k => Sys2Proof.Machine.execBmGetsize k s
  | .bmCmp a b => Sys2Proof.Machine.execBmCmp a b s
  | .bmPack k => Sys2Proof.Machine.execBmPack k s
  | .bmUnpack k => Sys2Proof.Machine.execBmUnpack k s
  | .bmRdtile k t => Sys2Proof.Machine.execBmRdtile k t s
  | .rlEnc dst src => Sys2Proof.Machine.execRlEnc dst src s
  | .rlDec dst src => Sys2Proof.Machine.execRlDec dst src s
  | .dnConfig bands => Sys2Proof.Machine.execDnConfig bands s
  | .dnDelta src => Sys2Proof.Machine.execDnDelta src s
  | .dnCheck src => Sys2Proof.Machine.execDnCheck src s
  | .dnRecode => Sys2Proof.Machine.execDnRecode s
  | .dnRdprev c => Sys2Proof.Machine.execDnRdprev c s
  | .bufClear dst => Sys2Proof.Machine.execBufClear dst s
  | .bufAppend dst byte => Sys2Proof.Machine.execBufAppend dst byte s
  | .bufRead src index => Sys2Proof.Machine.execBufRead src index s
  | .bufLen src => Sys2Proof.Machine.execBufLen src s

end Sys2Proof.Machine
end

