-- ==== Sys2Proof/Machine/Step.lean ====
section
/-! DEFINITION. One step of the machine: one command, or one reset, or nothing to do. -/

namespace Sys2Proof.Machine

/-- A command word handed to the block (30_encoding R58): a refused word answers its status and changes nothing; any
other is executed. -/
def execWord (w : CmdWord) (s : State) : Host.Outcome State Fault Refusal :=
  match decode w with
  | .ok i => exec i s
  | .error e => s.raise (statusOfDecodeError e)

/-- One step (70_reset R185: one step per command; log 14). The next host event is taken from `inbox`: a command word is
executed completely (20_memory R45), a reset maps the state to the reset state (70_reset R173). With no event the block
is idle and its state is held (60_exceptions R166; log 4). -/
def step (s : State) : Host.Outcome State Fault Refusal :=
  match s.inbox with
  | [] => .next s
  | .rst :: rest => .next { s with inbox := rest }.applyReset
  | .command w :: rest => execWord w { s with inbox := rest }

/-- The state in which the host's next event is the command word of a table row (log 2, log 15). -/
def State.withFetchWord (s : State) (nbits w : Nat) : State :=
  { s with inbox := .command (tableWord nbits w) :: s.inbox }

end Sys2Proof.Machine
end

