-- ==== Sys2Proof/Machine/Assembler.lean ====
section
/-! DEFINITION. The assembler's side of the spec: mnemonics and syntax (30_encoding R57, R63), and the two
pseudo-instructions (R64). No rule of the block depends on this file. -/

namespace Sys2Proof.Machine

/-- How a bank is written (R63). -/
def bankName (k : BitVec 4) : String := "M" ++ toString k.toNat

/-- How a buffer is written (R63); an id that names no buffer is written as a number. -/
def bufName (b : BitVec 4) : String :=
  match b.toNat with
  | 0 => "SB"
  | 1 => "IB"
  | 2 => "OB"
  | 3 => "VB"
  | n => toString n

/-- A number operand; decimal, one of the three forms R63 allows (log 16). -/
def numText {w : Nat} (v : BitVec w) : String := toString v.toNat

/-- A command as one line of assembler (R63): the mnemonic in upper case, the operands in the order of R63's table, a
destination before a source. -/
def asmText : Instr → String
  | .sysNop => "SYS.NOP"
  | .bsClear => "BS.CLEAR"
  | .bsRewind => "BS.REWIND"
  | .bsPush value bitCount => "BS.PUSH " ++ numText value ++ ", " ++ numText bitCount
  | .bsPull bitCount => "BS.PULL " ++ numText bitCount
  | .bsGet => "BS.GET"
  | .bsTell => "BS.TELL"
  | .bmConfig k width height => "BM.CONFIG " ++ bankName k ++ ", " ++ numText width ++ ", " ++ numText height
  | .bmBit k x y => "BM.BIT " ++ bankName k ++ ", " ++ numText x ++ ", " ++ numText y
  | .bmSet k x y => "BM.SET " ++ bankName k ++ ", " ++ numText x ++ ", " ++ numText y
  | .bmClear k x y => "BM.CLEAR " ++ bankName k ++ ", " ++ numText x ++ ", " ++ numText y
  | .bmDsize k => "BM.DSIZE " ++ bankName k
  | .bmGetsize k => "BM.GETSIZE " ++ bankName k
  | .bmCmp a b => "BM.CMP " ++ bankName a ++ ", " ++ bankName b
  | .bmPack k => "BM.PACK " ++ bankName k
  | .bmUnpack k => "BM.UNPACK " ++ bankName k
  | .bmRdtile k t => "BM.RDTILE " ++ bankName k ++ ", " ++ numText t
  | .rlEnc dst src => "RL.ENC " ++ bufName dst ++ ", " ++ bufName src
  | .rlDec dst src => "RL.DEC " ++ bufName dst ++ ", " ++ bufName src
  | .dnConfig bands => "DN.CONFIG " ++ numText bands
  | .dnDelta src => "DN.DELTA " ++ bufName src
  | .dnCheck src => "DN.CHECK " ++ bufName src
  | .dnRecode => "DN.RECODE"
  | .dnRdprev c => "DN.RDPREV " ++ numText c
  | .bufClear dst => "BUF.CLEAR " ++ bufName dst
  | .bufAppend dst byte => "BUF.APPEND " ++ bufName dst ++ ", " ++ numText byte
  | .bufRead src index => "BUF.READ " ++ bufName src ++ ", " ++ numText index
  | .bufLen src => "BUF.LEN " ++ bufName src

/-- The pseudo-instructions (R64). -/
inductive Pseudo where
  /-- `BS.PULL` with no operand. -/
  | pullDefault
  /-- `BUF.LOAD dst, b0 b1 .. bm`. -/
  | bufLoad (dst : BitVec 4) (bytes : List Byte)
deriving DecidableEq, Repr

/-- What a pseudo-instruction stands for (R64). -/
def expandPseudo : Pseudo → List Instr
  | .pullDefault => [.bsPull 1]
  | .bufLoad dst bytes => .bufClear dst :: bytes.map (Instr.bufAppend dst)

end Sys2Proof.Machine
end

