-- ==== Sys2Proof/Machine/Port.lean ====
section
/-! DEFINITION. The block at the level of its signals (30_encoding R66, informative; 70_reset R171, R173, R185), beside
the command-level machine of Step.lean, which needs none of them. One `tick` is one cycle of `clk`. -/

namespace Sys2Proof

/-- How many whole clock cycles lie between the cycle in which the `k`-th accepted command transfers and the first cycle
in which its response can: finite, otherwise unspecified, and it "may depend on the command, on its operands and on the
state" (70_reset R185, U25). A FREE VALUE: no body, nothing constrains it (log 11). -/
opaque Config.latency : Nat → CmdWord → Machine.State → Nat

end Sys2Proof

namespace Sys2Proof.Machine

/-- What the block is doing between clock edges: at most one command is in it (R66). -/
inductive Phase where
  /-- No command is in the block. -/
  | idle
  /-- The command `w` has been accepted; after this cycle, `left` more pass before its response is on the channel. -/
  | busy (w : CmdWord) (left : Nat)
  /-- The response of `w` is on the response channel. -/
  | done (w : CmdWord)
deriving DecidableEq, Repr

/-- The phase of the next cycle, when `left` more cycles pass before the response of `w` is on the channel. -/
def Phase.waiting (w : CmdWord) : Nat → Phase
  | 0 => .done w
  | left + 1 => .busy w left

/-- The block, its phase, and how many commands it has accepted. A command takes effect in the cycle in which its
response transfers, so that a command abandoned by reset has left no effect (70_reset R173; log 11). -/
structure Port where
  /-- The architectural state. -/
  block : State
  /-- What the block is doing. -/
  phase : Phase
  /-- How many commands have been accepted: an argument of the free latency. -/
  accepted : Nat
deriving DecidableEq, Repr

/-- The input signals of one cycle: `rst`, `cmd_valid`, `cmd[79:0]`, `rsp_ready`. -/
structure PortIn where
  /-- `rst`, synchronous and active high. -/
  rst : Bool
  /-- `cmd_valid`. -/
  cmdValid : Bool
  /-- `cmd[79:0]`. -/
  cmd : CmdWord
  /-- `rsp_ready`. -/
  rspReady : Bool
deriving DecidableEq, Repr

/-- The state after a command word, at the command level. -/
def afterWord (w : CmdWord) (s : State) : State :=
  match execWord w s with
  | .next t => t
  | .fault _ => s
  | .refused _ => s

/-- `cmd_ready`: 0 while `rst` is 1, and from the transfer of a command until its response has transferred (R66,
R173). -/
def Port.cmdReady (p : Port) (i : PortIn) : Bool := !i.rst && decide (p.phase = .idle)

/-- `rsp_valid`: 0 while `rst` is 1 (R173). -/
def Port.rspValid (p : Port) (i : PortIn) : Bool :=
  match p.phase with
  | .done _ => !i.rst
  | _ => false

/-- `rsp[71:0]`, where a response is on the channel. -/
def Port.rsp (p : Port) : Option RspWord :=
  match p.phase with
  | .done w => (afterWord w p.block).lastWord
  | _ => none

/-- One clock cycle. Reset wins; a word transfers where valid and ready are both 1 (R66).
DESIGN CHOICE (log 11; unsafe): the fewest cycles between command and response. 70_reset R185 leaves the number of cycles
open; here a response is on the channel in the cycle after its command transfers at the earliest (latency 0), never in
that cycle itself, and every latency adds its number of cycles to that. -/
def Port.tick (p : Port) (i : PortIn) : Port :=
  if i.rst then { p with block := p.block.applyReset, phase := .idle }
  else
    match p.phase with
    | .idle =>
      if i.cmdValid then
        { p with phase := .waiting i.cmd (Config.latency p.accepted i.cmd p.block), accepted := p.accepted + 1 }
      else p
    | .busy w left => { p with phase := .waiting w left }
    | .done w => if i.rspReady then { p with block := afterWord w p.block, phase := .idle } else p

/-- Cycles with the given inputs, in order. -/
def Port.ticks (p : Port) : List PortIn → Port
  | [] => p
  | i :: rest => (p.tick i).ticks rest

end Sys2Proof.Machine
end

