-- ==== Sys2Proof/Safety.lean ====
section
/-! DEFINITION. The invariants at rest (10_state R29), the predicates claims are stated with, and runs of commands. -/

namespace Sys2Proof.Machine

/-! ### The invariants of 10_state R29 -/

/-- (I-3) for one bank: the tile array has `ceil8(BW)·ceil8(BH)` words, and they fit `TILE_CAP`. -/
def Bank.wf (c : Config) (m : Bank) : Bool :=
  decide (m.tiles.length = tileCount m.bw m.bh) && !overCap c.tileCap m.tiles.length

/-- The storage has its form: (I-2) every buffer fits its capacity, (I-3) both tile arrays have the length their
dimensions give, (I-4, second half) `PREV` has `BANDS` entries. The storage is finite sequences with no unlisted
element (20_memory R35), so equal contents are equal data (log 13). -/
def Memory.wf (s : State) : Bool :=
  !overCap s.cfg.capSB s.sb.length && !overCap s.cfg.capIB s.ib.length && !overCap s.cfg.capOB s.ob.length &&
    !overCap s.cfg.capVB s.vb.length && s.bank0.wf s.cfg && s.bank1.wf s.cfg && decide (s.prev.length = s.bands)

/-- The invariants at rest: the parameters are legal (00_scope R6, R7), (I-1) the cursor is inside the stream, (I-2),
(I-3), (I-4). -/
abbrev AtRest (s : State) : Prop :=
  s.cfg.wf ∧ s.cur ≤ 8 * s.sb.length ∧ Memory.wf s = true ∧ 1 ≤ s.bands ∧ s.bands ≤ s.cfg.bandsMax

/-! ### Predicates of the units -/

/-- `Free` (40_bitstream R76): every bit of `SB` from the cursor on is 0. -/
def Free (s : State) : Prop := ∀ p, s.cur ≤ p → p < 8 * s.sb.length → bitAt s.sb p = false

/-- The coordinates lie in the tile grid (41_bmap R90), inside the bitmap or in its padding. -/
def Bank.covers (m : Bank) (x y : BitVec 32) : Prop :=
  x.toNat / 8 < ceil8 m.bw.toNat ∧ y.toNat / 8 < ceil8 m.bh.toNat

/-- Every padding bit is 0 (41_bmap R104). -/
def Bank.paddingClear (m : Bank) : Prop :=
  ∀ x y, m.covers x y → m.inRange x y = false → m.bitXY x y = false

/-! ### Runs -/

/-- `exec` applied left to right over a list of commands (20_memory R45). -/
def runInstrs : List Instr → State → Outcome
  | [], s => .next s
  | i :: rest, s =>
    match exec i s with
    | .next t => runInstrs rest t
    | .fault f => .fault f
    | .refused r => .refused r

/-- What a safe run is: every response the host received says the command was carried out (60_exceptions R159). -/
def AllCarriedOut (rs : List Response) : Prop := ∀ p ∈ rs, p.st.refused = false

/-! ### What a command may read and write (10_state R33) -/

/-- A piece of the block's state, as the table of R33 names them; `bufLen` and `tilesLen` are its "(its length)". -/
inductive Piece where
  | buf (b : BufId)
  | bufLen (b : BufId)
  | cur
  | dims (k : BankId)
  | tiles (k : BankId)
  | tilesLen (k : BankId)
  | bands
  | prev
deriving DecidableEq, Repr

/-- Two states hold the same in a piece. -/
def sameAt (s t : State) : Piece → Prop
  | .buf b => s.buf b = t.buf b
  | .bufLen b => (s.buf b).length = (t.buf b).length
  | .cur => s.cur = t.cur
  | .dims k => (s.bank k).bw = (t.bank k).bw ∧ (s.bank k).bh = (t.bank k).bh
  | .tiles k => (s.bank k).tiles = (t.bank k).tiles
  | .tilesLen k => (s.bank k).tiles.length = (t.bank k).tiles.length
  | .bands => s.bands = t.bands
  | .prev => s.prev = t.prev

/-- The pieces of the bank an id names; none where it names no bank. -/
def bankPieces (k : BitVec 4) (f : BankId → List Piece) : List Piece :=
  match bankOf k with
  | some b => f b
  | none => []

/-- The pieces of the buffer an id names; none where it names no buffer. -/
def bufPieces (b : BitVec 4) (f : BufId → List Piece) : List Piece :=
  match bufOf b with
  | some x => f x
  | none => []

/-- A buffer, and the cursor when it is `SB`: "`Buf(db)`; and `CUR` when db = 0". -/
def bufAndCursor : BufId → List Piece
  | .sb => [.buf .sb, .cur]
  | b => [.buf b]

/-- The column "reads" of R33. -/
def readsOf : Instr → List Piece
  | .sysNop => []
  | .bsClear => []
  | .bsRewind => []
  | .bsPush _ _ => [.buf .sb, .cur]
  | .bsPull _ => [.buf .sb, .cur]
  | .bsGet => [.buf .sb, .cur]
  | .bsTell => [.cur]
  | .bmConfig _ _ _ => []
  | .bmBit k _ _ => bankPieces k fun b => [.dims b, .tiles b]
  | .bmSet k _ _ => bankPieces k fun b => [.dims b, .tiles b]
  | .bmClear k _ _ => bankPieces k fun b => [.dims b, .tiles b]
  | .bmDsize k => bankPieces k fun b => [.tilesLen b]
  | .bmGetsize k => bankPieces k fun b => [.dims b]
  | .bmCmp a b => (bankPieces a fun x => [.tiles x]) ++ bankPieces b fun x => [.tiles x]
  | .bmPack k => bankPieces k fun b => [.tiles b, .buf .sb, .cur]
  | .bmUnpack k => bankPieces k fun b => [.buf .sb, .cur, .tilesLen b]
  | .bmRdtile k _ => bankPieces k fun b => [.tiles b]
  | .rlEnc _ src => bufPieces src fun b => [.buf b]
  | .rlDec _ src => bufPieces src fun b => [.buf b]
  | .dnConfig _ => []
  | .dnDelta src => bufPieces src fun b => [.buf b, .bands, .prev, .bufLen .vb]
  | .dnCheck src => bufPieces src fun b => [.buf b, .bands, .buf .vb]
  | .dnRecode => [.buf .vb]
  | .dnRdprev _ => [.bands, .prev]
  | .bufClear _ => []
  | .bufAppend dst _ => bufPieces dst fun b => [.bufLen b]
  | .bufRead src _ => bufPieces src fun b => [.buf b]
  | .bufLen src => bufPieces src fun b => [.buf b]

/-- The column "writes" of R33. -/
def writesOf : Instr → List Piece
  | .sysNop => []
  | .bsClear => [.buf .sb, .cur]
  | .bsRewind => [.cur]
  | .bsPush _ _ => [.buf .sb, .cur]
  | .bsPull _ => [.cur]
  | .bsGet => [.cur]
  | .bsTell => []
  | .bmConfig k _ _ => bankPieces k fun b => [.dims b, .tiles b]
  | .bmBit _ _ _ => []
  | .bmSet k _ _ => bankPieces k fun b => [.tiles b]
  | .bmClear k _ _ => bankPieces k fun b => [.tiles b]
  | .bmDsize _ => []
  | .bmGetsize _ => []
  | .bmCmp _ _ => []
  | .bmPack _ => [.buf .sb, .cur]
  | .bmUnpack k => bankPieces k fun b => [.tiles b, .cur]
  | .bmRdtile _ _ => []
  | .rlEnc dst _ => bufPieces dst bufAndCursor
  | .rlDec dst _ => bufPieces dst bufAndCursor
  | .dnConfig _ => [.bands, .prev, .buf .vb]
  | .dnDelta _ => [.buf .vb, .prev]
  | .dnCheck _ => [.prev]
  | .dnRecode => [.buf .vb]
  | .dnRdprev _ => []
  | .bufClear dst => bufPieces dst bufAndCursor
  | .bufAppend dst _ => bufPieces dst fun b => [.buf b]
  | .bufRead _ _ => []
  | .bufLen _ => []

/-- The pieces a command adds to: what it writes there begins with what stood there, of which it reads the length
only (`BUF.APPEND`, `DN.DELTA`). -/
def extendsOf : Instr → List Piece
  | .bufAppend dst _ => bufPieces dst fun b => [.buf b]
  | .dnDelta _ => [.buf .vb]
  | _ => []

/-- The statuses a command can answer: `OK` and the cells marked in the table of 60_exceptions R150. -/
def statusesOf : Instr → List Status
  | .sysNop => [.ok, .eField]
  | .bsClear => [.ok, .eField]
  | .bsRewind => [.ok, .eField]
  | .bsPush _ _ => [.ok, .eCount, .eUnmasked, .eCapacity]
  | .bsPull _ => [.ok, .sFalse, .eField, .eCount]
  | .bsGet => [.ok, .eField]
  | .bsTell => [.ok, .eField]
  | .bmConfig _ _ _ => [.ok, .eField, .eCapacity]
  | .bmBit _ _ _ => [.ok, .eField, .eRange]
  | .bmSet _ _ _ => [.ok, .eField, .eRange]
  | .bmClear _ _ _ => [.ok, .eField, .eRange]
  | .bmDsize _ => [.ok, .eField]
  | .bmGetsize _ => [.ok, .eField]
  | .bmCmp _ _ => [.ok, .sFalse, .eField]
  | .bmPack _ => [.ok, .eField, .eCapacity]
  | .bmUnpack _ => [.ok, .eField, .eUnderrun]
  | .bmRdtile _ _ => [.ok, .eField, .eRange]
  | .rlEnc _ _ => [.ok, .eField, .eCapacity, .eAlias]
  | .rlDec _ _ => [.ok, .eField, .eCapacity, .eMalformed, .eAlias]
  | .dnConfig _ => [.ok, .eField, .eParam]
  | .dnDelta _ => [.ok, .eField, .eCapacity, .eAlias]
  | .dnCheck _ => [.ok, .sFalse, .eField]
  | .dnRecode => [.ok, .eField]
  | .dnRdprev _ => [.ok, .eField, .eRange]
  | .bufClear _ => [.ok, .eField]
  | .bufAppend _ _ => [.ok, .eField, .eCapacity]
  | .bufRead _ _ => [.ok, .eField, .eRange]
  | .bufLen _ => [.ok, .eField]

/-! ### Shapes that many statements share -/

/-- A command of format `Z` (30_encoding R55) has exactly one word: it is the encoding, it decodes to the command, and
every other word of the same opcode answers `E_FIELD` and changes nothing (R60). -/
def HasOneWord (i : Instr) (w : CmdWord) : Prop :=
  encode i = w ∧ decode w = .ok i ∧
    ∀ v s, opField v = opField w → v ≠ w → execWord v s = .next (s.deliver ⟨.eField, 0⟩)

/-- Every word of the opcode with a 1 in one of the masked bits of `n` or `d` answers `E_FIELD` and changes nothing
(30_encoding R60). -/
def RefusesBits (op nMask : BitVec 8) (dMask : BitVec 64) : Prop :=
  ∀ w s, opField w = op → (nField w &&& nMask ≠ 0 ∨ dField w &&& dMask ≠ 0) →
    execWord w s = .next (s.deliver ⟨.eField, 0⟩)

end Sys2Proof.Machine
end

