-- ==== Sys2Proof/Certificates/Slice0/Obligations.lean ====
section
/-! DEFINITION. The statements for the provers. Each docstring says what is stated and which rule of spec/ it comes
from. A premise such as `s.cur ≤ 8 * s.sb.length` is a part of `AtRest` (10_state R29), the model's invariant, which
StepKeepsInvariants states on its own. -/

open Sys2Proof Sys2Proof.Machine

/-! ### Encoding and decoding -/

/-- Decode and encode agree: every well-formed command is read back from its word, with every operand at every value
(30_encoding R54, R55, R57, R61). -/
def Obligations.DecodeOfEncode : Prop := ∀ i : Instr, i.wf = true → decode (encode i) = .ok i

/-- Each word that decodes is the encoding of what it decodes to, and names only banks and buffers that exist: no two
words mean the same command, and no bit of a word is ignored (30_encoding R58, R60). -/
def Obligations.EncodeOfDecode : Prop := ∀ w i, decode w = .ok i → i.wf = true ∧ encode i = w

/-- 30_encoding R59: the decoder's refusal of an opcode is exactly the seven ranges of the rule; such a word answers
`E_OPCODE` with `r = 0` and changes nothing, whatever `n` and `d` hold. The all-zero word is `SYS.NOP`, the all-ones
word is refused. -/
def Obligations.ReservedOpcodesAnswer : Prop :=
  (∀ w : CmdWord, decode w = .error .reservedOpcode ↔
    let op := (opField w).toNat
    (0x01 ≤ op ∧ op ≤ 0x0F) ∨ (0x16 ≤ op ∧ op ≤ 0x1F) ∨ (0x2A ≤ op ∧ op ≤ 0x2F) ∨ (0x32 ≤ op ∧ op ≤ 0x3F) ∨
      (0x45 ≤ op ∧ op ≤ 0x4F) ∨ (0x54 ≤ op ∧ op ≤ 0x5F) ∨ 0x60 ≤ op) ∧
  (∀ w s, decode w = .error .reservedOpcode → execWord w s = .next (s.deliver ⟨.eOpcode, 0⟩)) ∧
  decode 0 = .ok .sysNop ∧ decode (BitVec.allOnes 80) = .error .reservedOpcode

/-- 30_encoding R60, held against the table of R68 as printed: a word that a row's `mask` selects and whose
must-be-zero bits (`strict_mask`) are not all 0 answers `E_FIELD` with `r = 0` and changes nothing; so does one whose
bank or buffer id does not exist; every other word of the row is a command. -/
def Obligations.ReservedFieldsAnswer : Prop :=
  (∀ row ∈ opcodeTable, ∀ w s, w &&& row.mask = row.pattern → w &&& row.strictMask ≠ row.pattern →
    execWord w s = .next (s.deliver ⟨.eField, 0⟩)) ∧
  (∀ w s i, instrOf (opField w) (nField w) (dField w) = some i → i.wf = false →
    execWord w s = .next (s.deliver ⟨.eField, 0⟩)) ∧
  (∀ row ∈ opcodeTable, ∀ w, w &&& row.mask = row.pattern → w &&& row.strictMask = row.pattern →
    ∃ i, instrOf (opField w) (nField w) (dField w) = some i ∧ (i.wf = true → decode w = .ok i))

/-- Words written out from the examples of the command rules (R79, R94, R99, R115, R125, R126, R140) decode to the
commands they stand for. -/
def Obligations.ExampleWordsDecode : Prop :=
  decode 0x12030000000000000005 = .ok (.bsPush 5 3) ∧
  decode 0x21000000000800000009 = .ok (.bmBit 0 9 8) ∧
  decode 0x26100000000000000000 = .ok (.bmCmp 0 1) ∧
  decode 0x30210000000000000000 = .ok (.rlEnc 2 1) ∧
  decode 0x40000000000000000003 = .ok (.dnConfig 3) ∧
  decode 0x41010000000000000000 = .ok (.dnDelta 1) ∧
  decode 0x51100000000000000007 = .ok (.bufAppend 1 7)

/-! ### The step, reset and the whole machine -/

/-- A step runs the decoded command: when the host's next event is a word that decodes to a (well-formed) command, the
step takes that event and is `exec` of the command; a word that does not decode answers its status and changes nothing
else (30_encoding R58, 20_memory R45). -/
def Obligations.StepRunsDecodedCommand : Prop :=
  ∀ s w rest, s.inbox = .command w :: rest →
    (∀ i, decode w = .ok i → i.wf = true ∧ step s = exec i { s with inbox := rest }) ∧
    (decode w = .error .reservedOpcode → step s = .next ({ s with inbox := rest }.deliver ⟨.eOpcode, 0⟩)) ∧
    (decode w = .error .reservedField → step s = .next ({ s with inbox := rest }.deliver ⟨.eField, 0⟩))

/-- 10_state R29, the step: from every state with the invariants, a step (a command of any status, a reset, an idle
step) leads to a state with the invariants. -/
def Obligations.StepKeepsInvariants : Prop := ∀ s t, AtRest s → step s = .next t → AtRest t

/-- 10_state R29, reset: the reset state has the invariants. -/
def Obligations.ResetHasInvariants : Prop := AtRest State.reset

/-- With a finite `CAP[0]` that 00_scope R7 allows, the cursor of every state with the invariants fits the 64 bits of
`CUR`. -/
def Obligations.CursorFitsItsRegister : Prop := ∀ s c, AtRest s → s.cfg.capSB = some c → s.cur < 2 ^ 64

/-- 10_state R32: the reset state is the table of the rule, element by element. -/
def Obligations.ResetLeavesTheTable : Prop :=
  let z := State.reset
  z.sb = [] ∧ z.cur = 0 ∧ z.ib = [] ∧ z.ob = [] ∧ z.vb = [] ∧
    (∀ k, (z.bank k).bw = 0 ∧ (z.bank k).bh = 0 ∧ (z.bank k).tiles = []) ∧ z.bands = 1 ∧ z.prev = [127]

/-- The MODEL's choices about the two steps that run no command. With no host event the step changes nothing (log 4, from
60_exceptions R166, "Between commands the block is idle and its state is held"). A reset by the host, between two
commands, maps every state to the reset state; the parameters, what the host will still do and what it has received are
not the block's and stay (log 12, from 70_reset R173). -/
def Obligations.IdleAndResetSteps : Prop :=
  (∀ s, s.inbox = [] → step s = .next s) ∧
  ∀ s rest, s.inbox = .rst :: rest →
    step s = .next { State.reset with cfg := s.cfg, inbox := rest, rsps := s.rsps }

/-- 70_reset R175: from every state the six commands answer `OK` six times and leave exactly the reset state (the
parameters, which are constants, and the host's side of the port apart). The premise on `BANDS_MAX` is 00_scope R6's. -/
def Obligations.ResetStateReachedByCommands : Prop :=
  ∀ s, 1 ≤ s.cfg.bandsMax →
    runInstrs [.bsClear, .bufClear 1, .bufClear 2, .bmConfig 0 0 0, .bmConfig 1 0 0, .dnConfig 1] s =
      .next { State.reset with cfg := s.cfg, inbox := s.inbox, rsps := List.replicate 6 ⟨.ok, 0⟩ ++ s.rsps }

/-- 30_encoding R53: every one of the 2^80 words has a defined response, exactly one, and a defined next state; and the
machine never stops: every state has a next one. -/
def Obligations.EveryWordIsAnswered : Prop :=
  (∀ w s, ∃ (t : State) (p : Response), execWord w s = .next t ∧ t.rsps = p :: s.rsps ∧ t.inbox = s.inbox ∧ t.cfg = s.cfg) ∧
  ∀ s, ∃ t : State, step s = .next t

/-- 60_exceptions R149: a response with a code from 0x80 up has `r = 0` and the whole state is as it was. -/
def Obligations.RefusalChangesNothing : Prop :=
  ∀ w s t p, execWord w s = .next t → t.rsps = p :: s.rsps → 0x80 ≤ p.st.code.toNat → p.r = 0 ∧ t = s.deliver p

/-- 60_exceptions R150, the empty cells: a word of a defined opcode answers `OK` or a status marked in the command's
row, in every state. -/
def Obligations.StatusesStayInTheMatrix : Prop :=
  ∀ w s i t p, instrOf (opField w) (nField w) (dField w) = some i → execWord w s = .next t → t.rsps = p :: s.rsps →
    p.st ∈ statusesOf i

/-- 10_state R33, writes: a command changes no piece of state outside its row, and never the parameters or what the host
will send. -/
def Obligations.WritesOnlyItsRow : Prop :=
  ∀ i s t, exec i s = .next t →
    t.cfg = s.cfg ∧ t.inbox = s.inbox ∧ (∀ b, Piece.buf b ∉ writesOf i → t.buf b = s.buf b) ∧
    (.cur ∉ writesOf i → t.cur = s.cur) ∧
    (∀ k, Piece.dims k ∉ writesOf i → (t.bank k).bw = (s.bank k).bw ∧ (t.bank k).bh = (s.bank k).bh) ∧
    (∀ k, Piece.tiles k ∉ writesOf i → (t.bank k).tiles = (s.bank k).tiles) ∧
    (.bands ∉ writesOf i → t.bands = s.bands) ∧ (.prev ∉ writesOf i → t.prev = s.prev)

/-- 10_state R33, reads (and 42_rle R119): two states with the same parameters that agree on what a command's row says
it reads give the same response, and, when the command is carried out, agree afterwards on everything it writes (where
it only adds to a piece, if they agreed on that piece before). -/
def Obligations.ReadsOnlyItsRow : Prop :=
  ∀ i s t, s.cfg = t.cfg → (∀ p ∈ readsOf i, sameAt s t p) →
    ∃ (s' t' : State) (r : Response), exec i s = .next s' ∧ exec i t = .next t' ∧ s'.rsps = r :: s.rsps ∧ t'.rsps = r :: t.rsps ∧
      (r.st.code.toNat < 0x80 → ∀ p ∈ writesOf i, (p ∈ extendsOf i → sameAt s t p) → sameAt s' t' p)

/-- 60_exceptions R155, 30_encoding R67: what a command does depends neither on the responses given before nor on what
the host will send next. -/
def Obligations.EarlierStatusesDoNotMatter : Prop :=
  ∀ i s events responses, ∃ (t : State) (p : Response), exec i s = .next (t.deliver p) ∧ t.rsps = s.rsps ∧ t.inbox = s.inbox ∧
    exec i { s with inbox := events, rsps := responses } =
      .next ({ t with inbox := events, rsps := responses }.deliver p)

/-- 20_memory R45: the machine run on the words of a list of commands is `exec` applied left to right. -/
def Obligations.RunIsExecLeftToRight : Prop :=
  ∀ (is : List Instr) (s : State) (rest : List HostEvent), (∀ i ∈ is, i.wf = true) →
    s.inbox = is.map (fun i => HostEvent.command (encode i)) ++ rest →
    (Host.Core.run Sys2Proof.core is.length s : Outcome) = runInstrs is { s with inbox := rest }

/-- The twelve status codes of 60_exceptions R148 and the response word of 30_encoding R56: `RW = st·2^64 + r`, for
every result the 64-bit field can hold. -/
def Obligations.ResponseWordLayout : Prop :=
  ([Status.ok, .sFalse, .eOpcode, .eField, .eCount, .eUnmasked, .eRange, .eCapacity, .eUnderrun, .eMalformed, .eParam,
      .eAlias].map (fun st => st.code.toNat) =
    [0x00, 0x01, 0x80, 0x81, 0x82, 0x83, 0x84, 0x85, 0x86, 0x87, 0x88, 0x89]) ∧
  ∀ (k : Nat) (p : Response), p.r < 2 ^ 64 → (p.word k).toNat = p.st.code.toNat * 2 ^ 64 + p.r

/-! ### Host commands -/

/-- 44_host R138: `SYS.NOP` is the all-zero word and does nothing. -/
def Obligations.NopDoesNothing : Prop :=
  HasOneWord .sysNop 0x00000000000000000000 ∧ ∀ s, exec .sysNop s = .next (s.deliver ⟨.ok, 0⟩)

/-- 44_host R139: `BUF.CLEAR` empties the named buffer, and for `SB` sets the cursor to 0, which is exactly
`BS.CLEAR`. -/
def Obligations.BufClearEmpties : Prop :=
  (∀ dst, encode (.bufClear dst) = mkWord 0x50 (dst ++ 0#4) 0) ∧ RefusesBits 0x50 0x0F 0xFFFFFFFFFFFFFFFF ∧
  (∀ s dst, 4 ≤ dst.toNat → exec (.bufClear dst) s = .next (s.deliver ⟨.eField, 0⟩)) ∧
  (∀ s, exec (.bufClear 0) s = .next ({ s with sb := [], cur := 0 }.deliver ⟨.ok, 0⟩)) ∧
  (∀ s, exec (.bufClear 1) s = .next ({ s with ib := [] }.deliver ⟨.ok, 0⟩)) ∧
  (∀ s, exec (.bufClear 2) s = .next ({ s with ob := [] }.deliver ⟨.ok, 0⟩)) ∧
  (∀ s, exec (.bufClear 3) s = .next ({ s with vb := [] }.deliver ⟨.ok, 0⟩)) ∧
  (∀ s, exec (.bufClear 0) s = exec .bsClear s)

/-- 44_host R140: `BUF.APPEND` adds one byte at the end of the named buffer and answers the new length; the cursor stays,
also for `SB`; a full buffer answers `E_CAPACITY`. -/
def Obligations.BufAppendAddsOneByte : Prop :=
  (∀ dst byte, encode (.bufAppend dst byte) = mkWord 0x51 (dst ++ 0#4) (0#56 ++ byte)) ∧
  RefusesBits 0x51 0x0F 0xFFFFFFFFFFFFFF00 ∧
  (∀ s dst byte, 4 ≤ dst.toNat → exec (.bufAppend dst byte) s = .next (s.deliver ⟨.eField, 0⟩)) ∧
  ∀ s dst b byte, bufOf dst = some b →
    (overCap (capOf s.cfg b) ((s.buf b).length + 1) = true →
      exec (.bufAppend dst byte) s = .next (s.deliver ⟨.eCapacity, 0⟩)) ∧
    (overCap (capOf s.cfg b) ((s.buf b).length + 1) = false →
      ∃ t : State, exec (.bufAppend dst byte) s = .next (t.deliver ⟨.ok, (s.buf b).length + 1⟩) ∧
        t.buf b = s.buf b ++ [byte] ∧ (∀ c, c ≠ b → t.buf c = s.buf c) ∧ t.cur = s.cur ∧
        t = { s with sb := t.sb, ib := t.ib, ob := t.ob, vb := t.vb })

/-- 44_host R141, R142: `BUF.READ` answers the byte at the index, or `E_RANGE` at and beyond the length; `BUF.LEN`
answers the length; neither writes. -/
def Obligations.BufReadAndLenObserve : Prop :=
  (∀ src index, encode (.bufRead src index) = mkWord 0x52 (0#4 ++ src) index) ∧ RefusesBits 0x52 0xF0 0 ∧
  (∀ src, encode (.bufLen src) = mkWord 0x53 (0#4 ++ src) 0) ∧ RefusesBits 0x53 0xF0 0xFFFFFFFFFFFFFFFF ∧
  (∀ s src index, 4 ≤ src.toNat → exec (.bufRead src index) s = .next (s.deliver ⟨.eField, 0⟩) ∧
    exec (.bufLen src) s = .next (s.deliver ⟨.eField, 0⟩)) ∧
  ∀ s src b index, bufOf src = some b →
    (∀ h : index.toNat < (s.buf b).length,
      exec (.bufRead src index) s = .next (s.deliver ⟨.ok, ((s.buf b)[index.toNat]'h).toNat⟩)) ∧
    ((s.buf b).length ≤ index.toNat → exec (.bufRead src index) s = .next (s.deliver ⟨.eRange, 0⟩)) ∧
    exec (.bufLen src) s = .next (s.deliver ⟨.ok, (s.buf b).length⟩)

/-- 30_encoding R64: `BS.PULL` without operand is `BS.PULL 1`; `BUF.LOAD dst, b0 .. bm` expands to
`BUF.CLEAR` and one `BUF.APPEND` for each byte in order; where the bytes fit, these all answer `OK` and leave exactly the
bytes in the buffer. -/
def Obligations.LoadPseudoFillsBuffer : Prop :=
  expandPseudo .pullDefault = [.bsPull 1] ∧
  ∀ s dst b bytes, bufOf dst = some b → overCap (capOf s.cfg b) bytes.length = false →
    expandPseudo (.bufLoad dst bytes) = .bufClear dst :: bytes.map (fun x => Instr.bufAppend dst x) ∧
    ∃ responses : List Response, runInstrs (expandPseudo (.bufLoad dst bytes)) s =
        .next { s.replaceBuf b bytes with rsps := responses ++ s.rsps } ∧
      responses.length = bytes.length + 1 ∧ ∀ p ∈ responses, p.st = .ok

/-! ### BitStream -/

/-- 40_bitstream R77, R78, R82: `BS.CLEAR` empties `SB` and sets `CUR` to 0, `BS.REWIND` sets `CUR` to 0 and keeps `SB`,
`BS.TELL` answers `CUR`; each has one word. -/
def Obligations.StreamControlCommands : Prop :=
  HasOneWord .bsClear 0x10000000000000000000 ∧ HasOneWord .bsRewind 0x11000000000000000000 ∧
  HasOneWord .bsTell 0x15000000000000000000 ∧
  (∀ s, exec .bsClear s = .next ({ s with sb := [], cur := 0 }.deliver ⟨.ok, 0⟩)) ∧
  (∀ s, exec .bsRewind s = .next ({ s with cur := 0 }.deliver ⟨.ok, 0⟩)) ∧
  (∀ s, exec .bsTell s = .next (s.deliver ⟨.ok, s.cur⟩))

/-- 40_bitstream R81: `BS.GET` answers the bit at the cursor (bit `CUR mod 8` of byte `CUR div 8`, 00_scope R10) and
advances by one; at the end it answers 0 without error and without advance. -/
def Obligations.GetReadsOneBit : Prop :=
  HasOneWord .bsGet 0x14000000000000000000 ∧
  (∀ s, s.cur < 8 * s.sb.length → exec .bsGet s =
    .next ({ s with cur := s.cur + 1 }.deliver ⟨.ok, (s.sb.getD (s.cur / 8) 0).toNat / 2 ^ (s.cur % 8) % 2⟩)) ∧
  (∀ s, 8 * s.sb.length ≤ s.cur → exec .bsGet s = .next (s.deliver ⟨.ok, 0⟩))

/-- 40_bitstream R79: the three checks of `BS.PUSH` in order, and its effect bit by bit: bit `i` of the value at position
`CUR + i`, every other bit of `SB` as it was, the bits appended above it 0, the length and the cursor as the rule
says, nothing else changed. -/
def Obligations.PushWritesItsBits : Prop :=
  (∀ v n, encode (.bsPush v n) = mkWord 0x12 n v ∧ decode (mkWord 0x12 n v) = .ok (.bsPush v n)) ∧
  ∀ s (v : BitVec 64) (n : BitVec 8), s.cur ≤ 8 * s.sb.length →
    let len := max s.sb.length ((s.cur + n.toNat + 7) / 8)
    (64 < n.toNat → exec (.bsPush v n) s = .next (s.deliver ⟨.eCount, 0⟩)) ∧
    (n.toNat ≤ 64 → 2 ^ n.toNat ≤ v.toNat → exec (.bsPush v n) s = .next (s.deliver ⟨.eUnmasked, 0⟩)) ∧
    (n.toNat ≤ 64 → v.toNat < 2 ^ n.toNat → overCap s.cfg.capSB len = true →
      exec (.bsPush v n) s = .next (s.deliver ⟨.eCapacity, 0⟩)) ∧
    (n.toNat ≤ 64 → v.toNat < 2 ^ n.toNat → overCap s.cfg.capSB len = false →
      ∃ bytes : List Byte, exec (.bsPush v n) s =
          .next ({ s with sb := bytes, cur := s.cur + n.toNat }.deliver ⟨.ok, s.cur + n.toNat⟩) ∧
        bytes.length = len ∧
        ∀ p, bitAt bytes p =
          if s.cur ≤ p ∧ p < s.cur + n.toNat then v.getLsbD (p - s.cur) else bitAt s.sb p)

/-- 40_bitstream R80: `BS.PULL` returns what is there, zero-extended, advances by as much, and answers `OK` exactly when
that is what was asked for; the stream is not changed. -/
def Obligations.PullReadsWhatIsThere : Prop :=
  (∀ n, encode (.bsPull n) = mkWord 0x13 n 0) ∧ RefusesBits 0x13 0 0xFFFFFFFFFFFFFFFF ∧
  ∀ s (n : BitVec 8),
    (64 < n.toNat → exec (.bsPull n) s = .next (s.deliver ⟨.eCount, 0⟩)) ∧
    (n.toNat ≤ 64 →
      let avail := 8 * s.sb.length - s.cur
      let m := min n.toNat avail
      ∃ r, exec (.bsPull n) s =
          .next ({ s with cur := s.cur + m }.deliver ⟨if n.toNat ≤ avail then .ok else .sFalse, r⟩) ∧
        r < 2 ^ m ∧ ∀ i, i < m → r.testBit i = bitAt s.sb (s.cur + i))

/-- 40_bitstream R84: `BS.GET` and `BS.PULL 1` make the same change and return the same `r`; they differ only in the
status at the end of the stream. -/
def Obligations.GetAgreesWithPullOne : Prop :=
  ∀ s, ∃ (t : State) (r : Nat), exec .bsGet s = .next (t.deliver ⟨.ok, r⟩) ∧
    exec (.bsPull 1) s = .next (t.deliver ⟨if s.cur < 8 * s.sb.length then .ok else .sFalse, r⟩)

/-- 40_bitstream R85: two pushes leave the state of one push of the concatenation, and two pulls that answer `OK` return
the parts of what one pull would have returned. -/
def Obligations.PushesAndPullsConcatenate : Prop :=
  (∀ s (v1 v2 : BitVec 64) (n1 n2 : BitVec 8), s.cur ≤ 8 * s.sb.length → n1.toNat + n2.toNat ≤ 64 →
    v1.toNat < 2 ^ n1.toNat → v2.toNat < 2 ^ n2.toNat →
    overCap s.cfg.capSB (max s.sb.length (ceil8 (s.cur + (n1.toNat + n2.toNat)))) = false →
    ∃ (t u : State) (r1 r2 r : Nat), exec (.bsPush v1 n1) s = .next (t.deliver ⟨.ok, r1⟩) ∧ t.rsps = s.rsps ∧
      exec (.bsPush v2 n2) t = .next (u.deliver ⟨.ok, r2⟩) ∧
      exec (.bsPush (BitVec.ofNat 64 (v1.toNat + v2.toNat * 2 ^ n1.toNat)) (n1 + n2)) s =
        .next (u.deliver ⟨.ok, r⟩)) ∧
  (∀ s (n1 n2 : BitVec 8), n1.toNat + n2.toNat ≤ 64 → s.cur + n1.toNat + n2.toNat ≤ 8 * s.sb.length →
    ∃ (t u : State) (r1 r2 : Nat), exec (.bsPull n1) s = .next (t.deliver ⟨.ok, r1⟩) ∧ t.rsps = s.rsps ∧
      exec (.bsPull n2) t = .next (u.deliver ⟨.ok, r2⟩) ∧
      exec (.bsPull (n1 + n2)) s = .next (u.deliver ⟨.ok, r1 + r2 * 2 ^ n1.toNat⟩))

/-- 40_bitstream R83, the round trip: on an empty stream, any sequence of fields pushed in order and pulled back after
`BS.REWIND` yields the original values; the cursor, the length and the padding bits are as the rule says. -/
def Obligations.PushPullRoundTrip : Prop :=
  ∀ s (fields : List (BitVec 64 × BitVec 8)), s.sb = [] → s.cur = 0 →
    (∀ f ∈ fields, f.2.toNat ≤ 64 ∧ f.1.toNat < 2 ^ f.2.toNat) →
    let total := (fields.map (fun f => f.2.toNat)).sum
    overCap s.cfg.capSB (ceil8 total) = false →
    ∃ (t : State) (pushed : List Response) (u : State), runInstrs (fields.map (fun f => Instr.bsPush f.1 f.2)) s = .next t ∧
      t.rsps = pushed ++ s.rsps ∧ pushed.length = fields.length ∧ (∀ p ∈ pushed, p.st = .ok) ∧
      t.cur = total ∧ t.sb.length = ceil8 total ∧ (∀ p, total ≤ p → bitAt t.sb p = false) ∧
      runInstrs (.bsRewind :: fields.map (fun f => Instr.bsPull f.2)) t = .next u ∧
      u.rsps = (fields.map (fun f => (⟨.ok, f.1.toNat⟩ : Response))).reverse ++ ⟨.ok, 0⟩ :: t.rsps ∧
      u.cur = total ∧ u.sb = t.sb

/-- 40_bitstream R76: `Free` holds after `BS.CLEAR` and after reset, and is preserved by `BS.PUSH`, `BM.PACK`, `BS.PULL`,
`BS.GET` and `BM.UNPACK`. -/
def Obligations.FreeBitsPreserved : Prop :=
  Free State.reset ∧ (∀ s t, exec .bsClear s = .next t → Free t) ∧
  ∀ i s t, (∃ v n, i = .bsPush v n) ∨ (∃ k, i = .bmPack k) ∨ (∃ n, i = .bsPull n) ∨ i = .bsGet ∨ (∃ k, i = .bmUnpack k) →
    s.cur ≤ 8 * s.sb.length → Free s → exec i s = .next t → Free t

/-- 20_memory R39: the two chunked loops are equivalent to the primitives of R37 and R38. -/
def Obligations.ChunkedDatapathAgrees : Prop :=
  (∀ bytes c n v, n ≤ 64 → v < 2 ^ n → c ≤ 8 * bytes.length → chunkWrite bytes c n v = streamWrite bytes c n v) ∧
  (∀ bytes c m, m ≤ 64 → c + m ≤ 8 * bytes.length → chunkRead bytes c m = streamRead bytes c m)

/-- 20_memory R40: the stream has no memory of the widths used to write it or to read it; at a byte-aligned cursor at the
end of the stream a 16-bit value appears as two bytes and a 64-bit tile as eight, low byte first. -/
def Obligations.StreamHasNoWidths : Prop :=
  (∀ bytes c n1 n2 v1 v2, c ≤ 8 * bytes.length → v1 < 2 ^ n1 →
    streamWrite (streamWrite bytes c n1 v1) (c + n1) n2 v2 = streamWrite bytes c (n1 + n2) (v1 + v2 * 2 ^ n1)) ∧
  (∀ bytes c m1 m2, streamRead bytes c (m1 + m2) =
    streamRead bytes c m1 + streamRead bytes (c + m1) m2 * 2 ^ m1) ∧
  (∀ bytes (v : BitVec 16), streamWrite bytes (8 * bytes.length) 16 v.toNat =
    bytes ++ [v.extractLsb' 0 8, v.extractLsb' 8 8]) ∧
  (∀ bytes (v : Tile), streamWrite bytes (8 * bytes.length) 64 v.toNat =
    bytes ++ (List.range 8).map (fun j => v.extractLsb' (8 * j) 8))

/-! ### BMap -/

/-- 41_bmap R91: the table is the bit interleave, x bits in the even positions. -/
def Obligations.MortonInterleavesBits : Prop :=
  mortonTable.length = 64 ∧ ∀ lx < 8, ∀ ly < 8,
    morton (ly * 8 + lx) = lx % 2 + 2 * (ly % 2) + 4 * (lx / 2 % 2) + 8 * (ly / 2 % 2) + 16 * (lx / 4 % 2) +
      32 * (ly / 4 % 2)

/-- 41_bmap R106 (1), (2): the table is a permutation of 0..63, and every aligned s×s sub-block, s in 2, 4, 8, maps into
s² consecutive positions that start at a multiple of s². -/
def Obligations.MortonPermutesAndNests : Prop :=
  ((List.range 64).map morton).Perm (List.range 64) ∧
  ∀ side ∈ [2, 4, 8], ∀ a < 8 / side, ∀ b < 8 / side, ∃ q < 64 / (side * side), ∀ i < side, ∀ j < side,
    morton ((b * side + j) * 8 + (a * side + i)) / (side * side) = q

/-- 41_bmap R93: `BM.CONFIG` gives the bank its dimensions and `ceil8(w)·ceil8(h)` zero tiles, answers their number, and
leaves everything else, the other bank too; `E_CAPACITY` changes nothing. -/
def Obligations.ConfigConstructsBitmap : Prop :=
  (∀ k w h, encode (.bmConfig k w h) = mkWord 0x20 (0#4 ++ k) (h ++ w)) ∧ RefusesBits 0x20 0xF0 0 ∧
  (∀ s k w h, 2 ≤ k.toNat → exec (.bmConfig k w h) s = .next (s.deliver ⟨.eField, 0⟩)) ∧
  ∀ s k b (w h : BitVec 32), bankOf k = some b →
    let nt := (w.toNat + 7) / 8 * ((h.toNat + 7) / 8)
    (overCap s.cfg.tileCap nt = true → exec (.bmConfig k w h) s = .next (s.deliver ⟨.eCapacity, 0⟩)) ∧
    (overCap s.cfg.tileCap nt = false →
      ∃ m : Bank, exec (.bmConfig k w h) s = .next ((s.setBank b m).deliver ⟨.ok, nt⟩) ∧ m.bw = w ∧ m.bh = h ∧
        m.tiles.length = nt ∧ ∀ x ∈ m.tiles, x = 0)

/-- 41_bmap R94: `BM.BIT` answers bit `MORTON[(y mod 8)·8 + (x mod 8)]` of tile word `LW·(y div 8) + (x div 8)` (R92), or
`E_RANGE` outside the bitmap, and writes nothing. -/
def Obligations.BitReadsItsTileBit : Prop :=
  (∀ k x y, encode (.bmBit k x y) = mkWord 0x21 (0#4 ++ k) (y ++ x)) ∧ RefusesBits 0x21 0xF0 0 ∧
  (∀ s k x y, 2 ≤ k.toNat → exec (.bmBit k x y) s = .next (s.deliver ⟨.eField, 0⟩)) ∧
  ∀ s k b (x y : BitVec 32), bankOf k = some b →
    let m := s.bank b
    ((m.bw.toNat ≤ x.toNat ∨ m.bh.toNat ≤ y.toNat) →
      exec (.bmBit k x y) s = .next (s.deliver ⟨.eRange, 0⟩)) ∧
    (x.toNat < m.bw.toNat → y.toNat < m.bh.toNat →
      let tile := m.tiles.getD ((m.bw.toNat + 7) / 8 * (y.toNat / 8) + x.toNat / 8) 0
      exec (.bmBit k x y) s =
        .next (s.deliver ⟨.ok, tile.toNat / 2 ^ morton (y.toNat % 8 * 8 + x.toNat % 8) % 2⟩))

/-- 41_bmap R95, R96: `BM.SET` makes the bit of (x, y) 1 and `BM.CLEAR` makes it 0; every other coordinate of the tile
grid, padding included, reads as before, the tile count and the dimensions stay, and nothing else changes. Outside the
bitmap both answer `E_RANGE`. -/
def Obligations.SetAndClearChangeOneBit : Prop :=
  (∀ k x y, encode (.bmSet k x y) = mkWord 0x22 (0#4 ++ k) (y ++ x) ∧
    encode (.bmClear k x y) = mkWord 0x23 (0#4 ++ k) (y ++ x)) ∧ RefusesBits 0x22 0xF0 0 ∧ RefusesBits 0x23 0xF0 0 ∧
  (∀ s k x y, 2 ≤ k.toNat → exec (.bmSet k x y) s = .next (s.deliver ⟨.eField, 0⟩) ∧
    exec (.bmClear k x y) s = .next (s.deliver ⟨.eField, 0⟩)) ∧
  ∀ s k b (x y : BitVec 32), bankOf k = some b →
    ((s.bank b).inRange x y = false → exec (.bmSet k x y) s = .next (s.deliver ⟨.eRange, 0⟩) ∧
      exec (.bmClear k x y) s = .next (s.deliver ⟨.eRange, 0⟩)) ∧
    (AtRest s → (s.bank b).inRange x y = true →
      ∃ m1 m0 : Bank, exec (.bmSet k x y) s = .next ((s.setBank b m1).deliver ⟨.ok, 0⟩) ∧
        exec (.bmClear k x y) s = .next ((s.setBank b m0).deliver ⟨.ok, 0⟩) ∧
        (m1.bw = (s.bank b).bw ∧ m1.bh = (s.bank b).bh ∧ m1.tiles.length = (s.bank b).tiles.length) ∧
        (m0.bw = (s.bank b).bw ∧ m0.bh = (s.bank b).bh ∧ m0.tiles.length = (s.bank b).tiles.length) ∧
        ∀ x' y', (s.bank b).covers x' y' →
          (m1.bitXY x' y' = if x' = x ∧ y' = y then true else (s.bank b).bitXY x' y') ∧
          (m0.bitXY x' y' = if x' = x ∧ y' = y then false else (s.bank b).bitXY x' y'))

/-- 41_bmap R104: after `BM.CONFIG` every padding bit is 0, and `BM.SET` and `BM.CLEAR` cannot reach one. -/
def Obligations.PaddingStaysClear : Prop :=
  (∀ s t k b w h, bankOf k = some b → exec (.bmConfig k w h) s = .next t →
    overCap s.cfg.tileCap (ceil8 w.toNat * ceil8 h.toNat) = false → (t.bank b).paddingClear) ∧
  (∀ s t k b x y, AtRest s → (s.bank b).paddingClear →
    exec (.bmSet k x y) s = .next t ∨ exec (.bmClear k x y) s = .next t → (t.bank b).paddingClear)

/-- 41_bmap R97, R98, R102: `BM.DSIZE` answers 8 bytes for each tile, `BM.GETSIZE` the height in `r[63:32]` and the width
in `r[31:0]`, `BM.RDTILE` the tile word or `E_RANGE`; none of them writes. -/
def Obligations.SizesAndTilesObserve : Prop :=
  (∀ k t, encode (.bmDsize k) = mkWord 0x24 (0#4 ++ k) 0 ∧ encode (.bmGetsize k) = mkWord 0x25 (0#4 ++ k) 0 ∧
    encode (.bmRdtile k t) = mkWord 0x29 (0#4 ++ k) t) ∧
  RefusesBits 0x24 0xF0 0xFFFFFFFFFFFFFFFF ∧ RefusesBits 0x25 0xF0 0xFFFFFFFFFFFFFFFF ∧ RefusesBits 0x29 0xF0 0 ∧
  (∀ s k t, 2 ≤ k.toNat → exec (.bmDsize k) s = .next (s.deliver ⟨.eField, 0⟩) ∧
    exec (.bmGetsize k) s = .next (s.deliver ⟨.eField, 0⟩) ∧
    exec (.bmRdtile k t) s = .next (s.deliver ⟨.eField, 0⟩)) ∧
  ∀ s k b (t : BitVec 64), AtRest s → bankOf k = some b →
    let m := s.bank b
    let nt := ceil8 m.bw.toNat * ceil8 m.bh.toNat
    exec (.bmDsize k) s = .next (s.deliver ⟨.ok, 8 * nt⟩) ∧
    exec (.bmGetsize k) s = .next (s.deliver ⟨.ok, m.bh.toNat * 2 ^ 32 + m.bw.toNat⟩) ∧
    (nt ≤ t.toNat → exec (.bmRdtile k t) s = .next (s.deliver ⟨.eRange, 0⟩)) ∧
    (t.toNat < nt → exec (.bmRdtile k t) s = .next (s.deliver ⟨.ok, (m.tiles.getD t.toNat 0).toNat⟩))

/-- 41_bmap R99: `BM.CMP` answers `OK` with 1 when the tile arrays have the same length and the same words, `S_FALSE` with
0 otherwise, whatever the dimensions; it writes nothing. -/
def Obligations.CompareAnswersEquality : Prop :=
  (∀ a b, encode (.bmCmp a b) = mkWord 0x26 (b ++ a) 0) ∧ RefusesBits 0x26 0 0xFFFFFFFFFFFFFFFF ∧
  (∀ s a b, 2 ≤ a.toNat ∨ 2 ≤ b.toNat → exec (.bmCmp a b) s = .next (s.deliver ⟨.eField, 0⟩)) ∧
  ∀ s a b ka kb, bankOf a = some ka → bankOf b = some kb →
    let ta := (s.bank ka).tiles
    let tb := (s.bank kb).tiles
    ((ta.length = tb.length ∧ ∀ t < ta.length, ta.getD t 0 = tb.getD t 0) →
      exec (.bmCmp a b) s = .next (s.deliver ⟨.ok, 1⟩)) ∧
    ((ta.length ≠ tb.length ∨ ∃ t < ta.length, ta.getD t 0 ≠ tb.getD t 0) →
      exec (.bmCmp a b) s = .next (s.deliver ⟨.sFalse, 0⟩))

/-- 41_bmap R105: a bank equals itself; one differing bit (padding included) or different lengths are seen; equal storage
compares equal whatever the dimensions; the comparison is symmetric. -/
def Obligations.CompareLaws : Prop :=
  ∀ s a b ka kb, bankOf a = some ka → bankOf b = some kb →
    exec (.bmCmp a a) s = .next (s.deliver ⟨.ok, 1⟩) ∧
    ((∃ t p, (s.bank ka).tiles.length = (s.bank kb).tiles.length ∧ t < (s.bank ka).tiles.length ∧ p < 64 ∧
        ((s.bank ka).tiles.getD t 0).getLsbD p ≠ ((s.bank kb).tiles.getD t 0).getLsbD p) →
      exec (.bmCmp a b) s = .next (s.deliver ⟨.sFalse, 0⟩)) ∧
    ((s.bank ka).tiles.length ≠ (s.bank kb).tiles.length → exec (.bmCmp a b) s = .next (s.deliver ⟨.sFalse, 0⟩)) ∧
    ((s.bank ka).tiles = (s.bank kb).tiles → exec (.bmCmp a b) s = .next (s.deliver ⟨.ok, 1⟩)) ∧
    exec (.bmCmp a b) s = exec (.bmCmp b a) s

/-- 41_bmap R100: `BM.PACK` writes bit `j` of tile `t` at position `CUR + 64·t + j`, leaves every other bit of `SB`, moves
the cursor past them and answers the number of bits; without room it answers `E_CAPACITY` and changes nothing. -/
def Obligations.PackWritesTilesInOrder : Prop :=
  (∀ k, encode (.bmPack k) = mkWord 0x27 (0#4 ++ k) 0) ∧ RefusesBits 0x27 0xF0 0xFFFFFFFFFFFFFFFF ∧
  (∀ s k, 2 ≤ k.toNat → exec (.bmPack k) s = .next (s.deliver ⟨.eField, 0⟩)) ∧
  ∀ s k b, AtRest s → bankOf k = some b →
    let m := s.bank b
    let total := 64 * (ceil8 m.bw.toNat * ceil8 m.bh.toNat)
    let len := max s.sb.length (ceil8 (s.cur + total))
    (overCap s.cfg.capSB len = true → exec (.bmPack k) s = .next (s.deliver ⟨.eCapacity, 0⟩)) ∧
    (overCap s.cfg.capSB len = false →
      ∃ bytes : List Byte, exec (.bmPack k) s =
          .next ({ s with sb := bytes, cur := s.cur + total }.deliver ⟨.ok, total⟩) ∧
        bytes.length = len ∧
        (∀ t j, 64 * t < total → j < 64 → bitAt bytes (s.cur + 64 * t + j) = (m.tiles.getD t 0).getLsbD j) ∧
        ∀ p, p < s.cur ∨ s.cur + total ≤ p → bitAt bytes p = bitAt s.sb p)

/-- 41_bmap R101: `BM.UNPACK` fills every tile word of the bank from the stream in the same order, moves the cursor past
them, keeps the dimensions and `SB`, and answers the number of bits; with too few bits it answers `E_UNDERRUN` and
changes nothing. -/
def Obligations.UnpackReadsTilesInOrder : Prop :=
  (∀ k, encode (.bmUnpack k) = mkWord 0x28 (0#4 ++ k) 0) ∧ RefusesBits 0x28 0xF0 0xFFFFFFFFFFFFFFFF ∧
  (∀ s k, 2 ≤ k.toNat → exec (.bmUnpack k) s = .next (s.deliver ⟨.eField, 0⟩)) ∧
  ∀ s k b, AtRest s → bankOf k = some b →
    let m := s.bank b
    let nt := ceil8 m.bw.toNat * ceil8 m.bh.toNat
    (8 * s.sb.length - s.cur < 64 * nt → exec (.bmUnpack k) s = .next (s.deliver ⟨.eUnderrun, 0⟩)) ∧
    (64 * nt ≤ 8 * s.sb.length - s.cur →
      ∃ tiles : List Tile, exec (.bmUnpack k) s =
          .next ({ s.setBank b { m with tiles := tiles } with cur := s.cur + 64 * nt }.deliver ⟨.ok, 64 * nt⟩) ∧
        tiles.length = nt ∧
        ∀ t j, t < nt → j < 64 → (tiles.getD t 0).getLsbD j = bitAt s.sb (s.cur + 64 * t + j))

/-- 41_bmap R103, the round trip. From any state with enough capacity `BM.PACK Ma` answers `OK`; in any later state `u`
with that stream, the cursor brought back, bank a as it was (unless it is bank b) and bank b of the same dimensions,
`BM.UNPACK Mb` answers `OK` and leaves bank b equal to what bank a was, word for word, the cursor where the pack left it;
then `BM.BIT` answers the same on both banks at every coordinate and `BM.CMP Ma, Mb` answers `OK`. When the cursor was 0,
the same in commands: pack, rewind, configure, unpack, compare. -/
def Obligations.PackUnpackRoundTrip : Prop :=
  ∀ s a b ka kb, AtRest s → bankOf a = some ka → bankOf b = some kb →
    let m := s.bank ka
    let nt := ceil8 m.bw.toNat * ceil8 m.bh.toNat
    overCap s.cfg.capSB (max s.sb.length (ceil8 (s.cur + 64 * nt))) = false →
    (∃ t : State, exec (.bmPack a) s = .next (t.deliver ⟨.ok, 64 * nt⟩) ∧
      ∀ u : State, u.sb = t.sb → u.cur = s.cur → (ka ≠ kb → u.bank ka = m) →
        (u.bank kb).bw = m.bw → (u.bank kb).bh = m.bh → (u.bank kb).tiles.length = nt →
        ∃ v : State, exec (.bmUnpack b) u = .next (v.deliver ⟨.ok, 64 * nt⟩) ∧ v.bank kb = m ∧ v.cur = t.cur ∧
          (∀ x y, ∃ p : Response, exec (.bmBit a x y) v = .next (v.deliver p) ∧
            exec (.bmBit b x y) v = .next (v.deliver p)) ∧
          exec (.bmCmp a b) v = .next (v.deliver ⟨.ok, 1⟩)) ∧
    (ka ≠ kb → s.cur = 0 →
      ∃ t : State, runInstrs [.bmPack a, .bsRewind, .bmConfig b m.bw m.bh, .bmUnpack b, .bmCmp a b] s = .next t ∧
        t.rsps = [⟨.ok, 1⟩, ⟨.ok, 64 * nt⟩, ⟨.ok, nt⟩, ⟨.ok, 0⟩, ⟨.ok, 64 * nt⟩] ++ s.rsps ∧
        t.bank kb = m ∧ t.bank ka = m ∧ t.cur = 64 * nt)

/-! ### RLE -/

/-- 42_rle R115: `RL.ENC` replaces the destination by the greedy run-length encoding of the source, written here as the
rule's own two loops (`rlEncodeLoop`, `rlScan`); it sets the cursor to 0 when the destination is `SB`; the same buffer
twice, or no room, changes nothing. -/
def Obligations.EncodeReplacesDestination : Prop :=
  (∀ dst src, encode (.rlEnc dst src) = mkWord 0x30 (dst ++ src) 0) ∧ RefusesBits 0x30 0 0xFFFFFFFFFFFFFFFF ∧
  (∀ s dst src, 4 ≤ dst.toNat ∨ 4 ≤ src.toNat → exec (.rlEnc dst src) s = .next (s.deliver ⟨.eField, 0⟩)) ∧
  ∀ s dst src tgt frm, bufOf dst = some tgt → bufOf src = some frm →
    let out := rlEncodeLoop (s.buf frm).length (s.buf frm)
    (frm = tgt → exec (.rlEnc dst src) s = .next (s.deliver ⟨.eAlias, 0⟩)) ∧
    (frm ≠ tgt → overCap (capOf s.cfg tgt) out.length = true →
      exec (.rlEnc dst src) s = .next (s.deliver ⟨.eCapacity, 0⟩)) ∧
    (frm ≠ tgt → overCap (capOf s.cfg tgt) out.length = false →
      ∃ t : State, exec (.rlEnc dst src) s = .next (t.deliver ⟨.ok, out.length⟩) ∧ t.buf tgt = out ∧
        (∀ c, c ≠ tgt → t.buf c = s.buf c) ∧ t.cur = (if tgt = .sb then 0 else s.cur) ∧
        t = { s with sb := t.sb, ib := t.ib, ob := t.ob, vb := t.vb, cur := t.cur })

/-- 42_rle R116: `RL.DEC` accepts exactly the sequences of even length without a zero count, and replaces the destination
by each value repeated count times; the checks are in the rule's order and change nothing. -/
def Obligations.DecodeExpandsPairs : Prop :=
  (∀ dst src, encode (.rlDec dst src) = mkWord 0x31 (dst ++ src) 0) ∧ RefusesBits 0x31 0 0xFFFFFFFFFFFFFFFF ∧
  (∀ s dst src, 4 ≤ dst.toNat ∨ 4 ≤ src.toNat → exec (.rlDec dst src) s = .next (s.deliver ⟨.eField, 0⟩)) ∧
  ∀ s dst src tgt frm, bufOf dst = some tgt → bufOf src = some frm →
    let inp := s.buf frm
    let pairs := inp.length / 2
    let out := (List.range pairs).flatMap fun j => List.replicate (inp.getD (2 * j) 0).toNat (inp.getD (2 * j + 1) 0)
    (frm = tgt → exec (.rlDec dst src) s = .next (s.deliver ⟨.eAlias, 0⟩)) ∧
    (frm ≠ tgt → (inp.length % 2 = 1 ∨ ∃ j < pairs, inp.getD (2 * j) 0 = 0) →
      exec (.rlDec dst src) s = .next (s.deliver ⟨.eMalformed, 0⟩)) ∧
    (frm ≠ tgt → inp.length % 2 = 0 → (∀ j < pairs, inp.getD (2 * j) 0 ≠ 0) →
      overCap (capOf s.cfg tgt) out.length = true → exec (.rlDec dst src) s = .next (s.deliver ⟨.eCapacity, 0⟩)) ∧
    (frm ≠ tgt → inp.length % 2 = 0 → (∀ j < pairs, inp.getD (2 * j) 0 ≠ 0) →
      overCap (capOf s.cfg tgt) out.length = false →
      ∃ t : State, exec (.rlDec dst src) s = .next (t.deliver ⟨.ok, out.length⟩) ∧ t.buf tgt = out ∧
        (∀ c, c ≠ tgt → t.buf c = s.buf c) ∧ t.cur = (if tgt = .sb then 0 else s.cur) ∧
        t = { s with sb := t.sb, ib := t.ib, ob := t.ob, vb := t.vb, cur := t.cur })

/-- 42_rle R117, the round trip: encoding a buffer into another and decoding that into any buffer but itself answers `OK`
twice and yields the original bytes, for all inputs (R113 law 1). -/
def Obligations.EncodeDecodeRoundTrip : Prop :=
  ∀ s src mid dst b m d, bufOf src = some b → bufOf mid = some m → bufOf dst = some d → m ≠ b → m ≠ d →
    overCap (capOf s.cfg m) (rlEncode (s.buf b)).length = false → overCap (capOf s.cfg d) (s.buf b).length = false →
    ∃ t u : State, exec (.rlEnc mid src) s = .next (t.deliver ⟨.ok, (rlEncode (s.buf b)).length⟩) ∧
      exec (.rlDec dst mid) (t.deliver ⟨.ok, (rlEncode (s.buf b)).length⟩) =
        .next (u.deliver ⟨.ok, (s.buf b).length⟩) ∧ u.buf d = s.buf b

/-- 42_rle R118: the encoded length is even, at least two bytes for every 255 bytes begun and at most twice the
input. -/
def Obligations.EncodedLengthBounds : Prop :=
  ∀ bytes : List Byte, (rlEncode bytes).length % 2 = 0 ∧ (rlEncode bytes).length ≤ 2 * bytes.length ∧
    2 * ((bytes.length + 254) / 255) ≤ (rlEncode bytes).length

/-! ### Denc -/

/-- 43_denc R125: `DN.CONFIG` sets the band count, seeds every previous value with 127 and empties `VB`; a count of 0 or
above `BANDS_MAX` answers `E_PARAM`. -/
def Obligations.DencConfigSeeds : Prop :=
  (∀ bands, encode (.dnConfig bands) = mkWord 0x40 0 (0#32 ++ bands)) ∧ RefusesBits 0x40 0xFF 0xFFFFFFFF00000000 ∧
  ∀ s (bands : BitVec 32),
    (bands.toNat = 0 ∨ s.cfg.bandsMax < bands.toNat → exec (.dnConfig bands) s = .next (s.deliver ⟨.eParam, 0⟩)) ∧
    (1 ≤ bands.toNat → bands.toNat ≤ s.cfg.bandsMax → ∃ prev : List Byte, exec (.dnConfig bands) s =
        .next ({ s with bands := bands.toNat, prev := prev, vb := [] }.deliver ⟨.ok, 0⟩) ∧
      prev.length = bands.toNat ∧ ∀ x ∈ prev, x = 127)

/-- 43_denc R126, R130, R124: with `P = (L div BANDS)·BANDS`, `DN.DELTA` appends for each input byte `i < P`, in the order
of the input, its difference from the byte one group before (from `PREV` in the first group), and leaves in `PREV` the
last byte of each band; the checks are in the rule's order. -/
def Obligations.DeltaAppendsDifferences : Prop :=
  (∀ src, encode (.dnDelta src) = mkWord 0x41 (0#4 ++ src) 0) ∧ RefusesBits 0x41 0xF0 0xFFFFFFFFFFFFFFFF ∧
  (∀ s src, 4 ≤ src.toNat → exec (.dnDelta src) s = .next (s.deliver ⟨.eField, 0⟩)) ∧
  (∀ s, exec (.dnDelta 3) s = .next (s.deliver ⟨.eAlias, 0⟩)) ∧
  ∀ s src b, AtRest s → bufOf src = some b → b ≠ .vb →
    let inp := s.buf b
    let P := inp.length / s.bands * s.bands
    (overCap s.cfg.capVB (s.vb.length + P) = true → exec (.dnDelta src) s = .next (s.deliver ⟨.eCapacity, 0⟩)) ∧
    (overCap s.cfg.capVB (s.vb.length + P) = false → exec (.dnDelta src) s =
      .next ({ s with
        vb := s.vb ++ (List.range P).map fun i =>
          inp.getD i 0 - (if i < s.bands then s.prev.getD i 0 else inp.getD (i - s.bands) 0)
        prev := (List.range s.bands).map fun c =>
          if P = 0 then s.prev.getD c 0 else inp.getD (P - s.bands + c) 0 }.deliver ⟨.ok, P⟩))

/-- 43_denc R127: `DN.CHECK` re-seeds `PREV`, replays `VB` from its first byte and compares. Position `i` agrees when a
delta byte exists there and added to the byte one group before (127 in the first group) gives input byte `i`. When all of
the processed prefix agrees it answers `OK` with `P`, else `S_FALSE` with the first position that does not; `PREV` keeps
the last byte the replay stored for each band, the diverging one included where a delta byte existed. -/
def Obligations.CheckReportsFirstDivergence : Prop :=
  (∀ src, encode (.dnCheck src) = mkWord 0x42 (0#4 ++ src) 0) ∧ RefusesBits 0x42 0xF0 0xFFFFFFFFFFFFFFFF ∧
  (∀ s src, 4 ≤ src.toNat → exec (.dnCheck src) s = .next (s.deliver ⟨.eField, 0⟩)) ∧
  ∀ s src b, 1 ≤ s.bands → bufOf src = some b →
    let inp := s.buf b
    let P := inp.length / s.bands * s.bands
    let rebuilt : Nat → Byte := fun i => (if i < s.bands then 127 else inp.getD (i - s.bands) 0) + s.vb.getD i 0
    let agrees : Nat → Prop := fun i => i < s.vb.length ∧ rebuilt i = inp.getD i 0
    let stored : Nat → List Byte := fun n => (List.range s.bands).map fun c =>
      if c < n then rebuilt (c + s.bands * ((n - 1 - c) / s.bands)) else 127
    ((∀ i < P, agrees i) → exec (.dnCheck src) s = .next ({ s with prev := stored P }.deliver ⟨.ok, P⟩)) ∧
    (∀ j < P, (∀ i < j, agrees i) → ¬ agrees j → exec (.dnCheck src) s =
      .next ({ s with prev := stored (if j < s.vb.length then j + 1 else j) }.deliver ⟨.sFalse, j⟩))

/-- 43_denc R131, delta then check. In commands: `DN.CONFIG`, `DN.DELTA` on a buffer, `DN.CHECK` on the same buffer answer
`OK`, the last with `r = P`. More generally, from a state with every previous value at the default and `VB` empty:
inputs whose lengths, except possibly the last, are multiples of the band count, each loaded into `IB` and given to
`DN.DELTA`, then their concatenation loaded into `IB` and given to `DN.CHECK`: the check answers `OK`. The premises beside
these are capacities. -/
def Obligations.DeltaThenCheckSucceeds : Prop :=
  (∀ s src b (bands : BitVec 32), bufOf src = some b → b ≠ .vb → 1 ≤ bands.toNat → bands.toNat ≤ s.cfg.bandsMax →
    let P := (s.buf b).length / bands.toNat * bands.toNat
    overCap s.cfg.capVB P = false →
    ∃ t : State, runInstrs [.dnConfig bands, .dnDelta src, .dnCheck src] s = .next t ∧
      t.rsps = [⟨.ok, P⟩, ⟨.ok, P⟩, ⟨.ok, 0⟩] ++ s.rsps) ∧
  (∀ (s : State) (ins : List (List Byte)) (last : List Byte), AtRest s → s.vb = [] → (∀ x ∈ s.prev, x = 127) →
    (∀ x ∈ ins, x.length % s.bands = 0) →
    let all := ins.flatten ++ last
    overCap s.cfg.capIB all.length = false → overCap s.cfg.capVB all.length = false →
    ∃ (t : State) (rs : List Response),
      runInstrs ((ins ++ [last]).flatMap (fun x => expandPseudo (.bufLoad 1 x) ++ [.dnDelta 1]) ++
        expandPseudo (.bufLoad 1 all) ++ [.dnCheck 1]) s = .next t ∧
      t.rsps = ⟨.ok, all.length / s.bands * s.bands⟩ :: rs)

/-- 43_denc R128: `DN.RECODE` maps every byte of `VB` in place, a byte from 128 up to `511 − 2b` and any other to `2b`,
and answers the length. -/
def Obligations.RecodeMapsEveryByte : Prop :=
  HasOneWord .dnRecode 0x43000000000000000000 ∧
  ∀ s, ∃ vb : List Byte, exec .dnRecode s = .next ({ s with vb := vb }.deliver ⟨.ok, s.vb.length⟩) ∧ vb.length = s.vb.length ∧
    ∀ j < s.vb.length, (vb.getD j 0).toNat =
      let b := (s.vb.getD j 0).toNat
      if 128 ≤ b then 511 - 2 * b else 2 * b

/-- 43_denc R132: the map is a bijection on bytes, with the inverse the rule gives. -/
def Obligations.RecodeIsBijective : Prop :=
  ∀ b : Byte, let r := (recodeByte b).toNat
    (r = if b.toNat ≤ 127 then 2 * b.toNat else 511 - 2 * b.toNat) ∧
    b.toNat = (if r % 2 = 0 then r / 2 else (255 - r) / 2 + 128) ∧
    ∃ a : Byte, recodeByte a = b

/-- 43_denc R129: `DN.RDPREV` answers the previous value of a band, `E_RANGE` from `BANDS` up, and writes nothing. -/
def Obligations.ReadPrevObserves : Prop :=
  (∀ c, encode (.dnRdprev c) = mkWord 0x44 0 (0#32 ++ c)) ∧ RefusesBits 0x44 0xFF 0xFFFFFFFF00000000 ∧
  ∀ s (c : BitVec 32), AtRest s →
    (s.bands ≤ c.toNat → exec (.dnRdprev c) s = .next (s.deliver ⟨.eRange, 0⟩)) ∧
    (∀ h : c.toNat < s.prev.length,
      exec (.dnRdprev c) s = .next (s.deliver ⟨.ok, (s.prev[c.toNat]'h).toNat⟩))

/-! ### The signal-level port -/

/-- 30_encoding R66, 70_reset R185: a command offered to an idle block is accepted, its response is on the channel after a
finite number of cycles, whatever the latency, and when it has transferred the block is idle again in the state the
command-level machine gives; while it is in the block no other command is accepted. -/
def Obligations.TransactionRunsOneCommand : Prop :=
  ∀ (p : Port) (w : CmdWord) (i : PortIn), p.phase = .idle → i.rst = false → i.cmdValid = true → i.cmd = w →
    ∃ n, ∀ wait : List PortIn, wait.length = n → (∀ j ∈ wait, j.rst = false) →
      (p.tick i).accepted = p.accepted + 1 ∧
      (∀ k ≤ n, ∀ j, ((p.tick i).ticks (wait.take k)).cmdReady j = false) ∧
      ((p.tick i).ticks wait).phase = .done w ∧
      ((p.tick i).ticks wait).rsp = (afterWord w p.block).lastWord ∧
      ∀ j : PortIn, j.rst = false → j.rspReady = true →
        ((p.tick i).ticks wait).tick j = { block := afterWord w p.block, phase := .idle, accepted := p.accepted + 1 }

/-- 70_reset R173: in a cycle with `rst` 1, both `cmd_ready` and `rsp_valid` are 0, and whatever was in the block is
abandoned: the state is the reset state, no response has been given and the block is idle. -/
def Obligations.PortResetAbandonsCommand : Prop :=
  ∀ (p : Port) (i : PortIn), i.rst = true → p.cmdReady i = false ∧ p.rspValid i = false ∧
    (p.tick i).phase = .idle ∧ (p.tick i).block =
      { State.reset with cfg := p.block.cfg, inbox := p.block.inbox, rsps := p.block.rsps }
end

