-- ==== Sys2Proof/Laws/Decode.lean ====
section
/-! SUPPORT. The fields of a command word, and of `n` and `d`, put together and taken apart. -/

namespace Sys2Proof

section
variable (op n : BitVec 8) (d : BitVec 64)

/-- The bits of a command word, field by field (30_encoding R54). -/
theorem mkWord_getLsbD (i : Nat) :
    (mkWord op n d).getLsbD i =
      if i < 64 then d.getLsbD i else if i - 64 < 8 then n.getLsbD (i - 64) else op.getLsbD (i - 64 - 8) := by
  have h1 : (mkWord op n d).getLsbD i = if i < 64 then d.getLsbD i else (op ++ n).getLsbD (i - 64) :=
    BitVec.getLsbD_append
  rw [h1, BitVec.getLsbD_append]

@[simp] theorem opField_mkWord : opField (mkWord op n d) = op := by
  apply BitVec.eq_of_getLsbD_eq
  intro i hi
  have h1 : ¬ 72 + i < 64 := by omega
  have h2 : ¬ 72 + i - 64 < 8 := by omega
  have h3 : 72 + i - 64 - 8 = i := by omega
  rw [opField, BitVec.getLsbD_extractLsb', mkWord_getLsbD, if_neg h1, if_neg h2, h3]
  simp [hi]

@[simp] theorem nField_mkWord : nField (mkWord op n d) = n := by
  apply BitVec.eq_of_getLsbD_eq
  intro i hi
  have h1 : ¬ 64 + i < 64 := by omega
  have h2 : 64 + i - 64 = i := by omega
  rw [nField, BitVec.getLsbD_extractLsb', mkWord_getLsbD, if_neg h1, h2, if_pos hi]
  simp [hi]

@[simp] theorem dField_mkWord : dField (mkWord op n d) = d := by
  apply BitVec.eq_of_getLsbD_eq
  intro i hi
  rw [dField, BitVec.getLsbD_extractLsb', mkWord_getLsbD, Nat.zero_add, if_pos hi]
  simp [hi]

/-- A word is its three fields (30_encoding R54). -/
theorem mkWord_fields (w : CmdWord) : mkWord (opField w) (nField w) (dField w) = w := by
  apply BitVec.eq_of_getLsbD_eq
  intro i hi
  rw [mkWord_getLsbD, opField, nField, dField]
  simp only [BitVec.getLsbD_extractLsb']
  by_cases h1 : i < 64
  · simp [h1]
  · by_cases h2 : i - 64 < 8
    · have h3 : 64 + (i - 64) = i := by omega
      simp [h1, h2, h3]
    · have h3 : 72 + (i - 64 - 8) = i := by omega
      have h4 : i - 64 - 8 < 8 := by omega
      simp [h1, h2, h3, h4]
end

section
variable (a b : BitVec 4) (x y : BitVec 32)

@[simp] theorem nHi_append : nHi (a ++ b) = a := by revert a b; decide

@[simp] theorem nLo_append : nLo (a ++ b) = b := by revert a b; decide

theorem halves_getLsbD (i : Nat) :
    BitVec.getLsbD (w := 64) (y ++ x) i = if i < 32 then x.getLsbD i else y.getLsbD (i - 32) :=
  BitVec.getLsbD_append

@[simp] theorem dHi_append : dHi (y ++ x) = y := by
  apply BitVec.eq_of_getLsbD_eq
  intro i hi
  have h1 : ¬ 32 + i < 32 := by omega
  have h2 : 32 + i - 32 = i := by omega
  rw [dHi, BitVec.getLsbD_extractLsb', halves_getLsbD, if_neg h1, h2]
  simp [hi]

@[simp] theorem dLo_append : dLo (y ++ x) = x := by
  apply BitVec.eq_of_getLsbD_eq
  intro i hi
  rw [dLo, BitVec.getLsbD_extractLsb', halves_getLsbD, Nat.zero_add, if_pos hi]
  simp [hi]

@[simp] theorem dByte_append (z : BitVec 56) (c : Byte) : dByte (z ++ c) = c := by
  have h : ∀ i, BitVec.getLsbD (w := 64) (z ++ c) i = if i < 8 then c.getLsbD i else z.getLsbD (i - 8) :=
    fun i => BitVec.getLsbD_append
  apply BitVec.eq_of_getLsbD_eq
  intro i hi
  rw [dByte, BitVec.getLsbD_extractLsb', h, Nat.zero_add, if_pos hi]
  simp [hi]
end

/-- `n` is its two nibbles. -/
theorem nHi_append_nLo (n : BitVec 8) : nHi n ++ nLo n = n := by revert n; decide

/-- `d` is its two halves. -/
theorem dHi_append_dLo (d : BitVec 64) : dHi d ++ dLo d = d := by
  apply BitVec.eq_of_getLsbD_eq
  intro i hi
  refine (halves_getLsbD _ _ i).trans ?_
  simp only [dHi, dLo, BitVec.getLsbD_extractLsb']
  by_cases h1 : i < 32
  · simp [h1]
  · have h2 : 32 + (i - 32) = i := by omega
    have h3 : i - 32 < 32 := by omega
    simp [h1, h2, h3]

end Sys2Proof
end

