-- ==== Sys2Proof/Laws/State.lean ====
section
/-! SUPPORT. One lemma per field per named update of the state, so that no later proof unfolds a record update. -/

namespace Sys2Proof.Machine

section
variable (s : State) (p : Response) (b : BufId) (k : BankId) (bytes : List Byte) (m : Bank)

/-! ### `State.deliver` -/
@[simp] theorem State.deliver_sb : (s.deliver p).sb = s.sb := rfl
@[simp] theorem State.deliver_cur : (s.deliver p).cur = s.cur := rfl
@[simp] theorem State.deliver_ib : (s.deliver p).ib = s.ib := rfl
@[simp] theorem State.deliver_ob : (s.deliver p).ob = s.ob := rfl
@[simp] theorem State.deliver_vb : (s.deliver p).vb = s.vb := rfl
@[simp] theorem State.deliver_bank0 : (s.deliver p).bank0 = s.bank0 := rfl
@[simp] theorem State.deliver_bank1 : (s.deliver p).bank1 = s.bank1 := rfl
@[simp] theorem State.deliver_bands : (s.deliver p).bands = s.bands := rfl
@[simp] theorem State.deliver_prev : (s.deliver p).prev = s.prev := rfl
@[simp] theorem State.deliver_cfg : (s.deliver p).cfg = s.cfg := rfl
@[simp] theorem State.deliver_inbox : (s.deliver p).inbox = s.inbox := rfl
@[simp] theorem State.deliver_rsps : (s.deliver p).rsps = p :: s.rsps := rfl
@[simp] theorem State.deliver_buf : (s.deliver p).buf b = s.buf b := by cases b <;> rfl
@[simp] theorem State.deliver_bank : (s.deliver p).bank k = s.bank k := by cases k <;> rfl

/-! ### `State.setBuf` -/
@[simp] theorem State.setBuf_cur : (s.setBuf b bytes).cur = s.cur := by cases b <;> rfl
@[simp] theorem State.setBuf_bank0 : (s.setBuf b bytes).bank0 = s.bank0 := by cases b <;> rfl
@[simp] theorem State.setBuf_bank1 : (s.setBuf b bytes).bank1 = s.bank1 := by cases b <;> rfl
@[simp] theorem State.setBuf_bands : (s.setBuf b bytes).bands = s.bands := by cases b <;> rfl
@[simp] theorem State.setBuf_prev : (s.setBuf b bytes).prev = s.prev := by cases b <;> rfl
@[simp] theorem State.setBuf_cfg : (s.setBuf b bytes).cfg = s.cfg := by cases b <;> rfl
@[simp] theorem State.setBuf_inbox : (s.setBuf b bytes).inbox = s.inbox := by cases b <;> rfl
@[simp] theorem State.setBuf_rsps : (s.setBuf b bytes).rsps = s.rsps := by cases b <;> rfl
@[simp] theorem State.setBuf_bank : (s.setBuf b bytes).bank k = s.bank k := by cases b <;> rfl
@[simp] theorem State.setBuf_sb_sb : (s.setBuf .sb bytes).sb = bytes := rfl
@[simp] theorem State.setBuf_ib_sb : (s.setBuf .ib bytes).sb = s.sb := rfl
@[simp] theorem State.setBuf_ob_sb : (s.setBuf .ob bytes).sb = s.sb := rfl
@[simp] theorem State.setBuf_vb_sb : (s.setBuf .vb bytes).sb = s.sb := rfl
@[simp] theorem State.setBuf_sb_ib : (s.setBuf .sb bytes).ib = s.ib := rfl
@[simp] theorem State.setBuf_ib_ib : (s.setBuf .ib bytes).ib = bytes := rfl
@[simp] theorem State.setBuf_ob_ib : (s.setBuf .ob bytes).ib = s.ib := rfl
@[simp] theorem State.setBuf_vb_ib : (s.setBuf .vb bytes).ib = s.ib := rfl
@[simp] theorem State.setBuf_sb_ob : (s.setBuf .sb bytes).ob = s.ob := rfl
@[simp] theorem State.setBuf_ib_ob : (s.setBuf .ib bytes).ob = s.ob := rfl
@[simp] theorem State.setBuf_ob_ob : (s.setBuf .ob bytes).ob = bytes := rfl
@[simp] theorem State.setBuf_vb_ob : (s.setBuf .vb bytes).ob = s.ob := rfl
@[simp] theorem State.setBuf_sb_vb : (s.setBuf .sb bytes).vb = s.vb := rfl
@[simp] theorem State.setBuf_ib_vb : (s.setBuf .ib bytes).vb = s.vb := rfl
@[simp] theorem State.setBuf_ob_vb : (s.setBuf .ob bytes).vb = s.vb := rfl
@[simp] theorem State.setBuf_vb_vb : (s.setBuf .vb bytes).vb = bytes := rfl
@[simp] theorem State.setBuf_buf_same : (s.setBuf b bytes).buf b = bytes := by cases b <;> rfl
theorem State.setBuf_buf_other (c : BufId) (h : c ≠ b) : (s.setBuf b bytes).buf c = s.buf c := by
  cases b <;> cases c <;> first | rfl | exact absurd rfl h

/-! ### `State.replaceBuf` -/
@[simp] theorem State.replaceBuf_bank0 : (s.replaceBuf b bytes).bank0 = s.bank0 := by cases b <;> rfl
@[simp] theorem State.replaceBuf_bank1 : (s.replaceBuf b bytes).bank1 = s.bank1 := by cases b <;> rfl
@[simp] theorem State.replaceBuf_bands : (s.replaceBuf b bytes).bands = s.bands := by cases b <;> rfl
@[simp] theorem State.replaceBuf_prev : (s.replaceBuf b bytes).prev = s.prev := by cases b <;> rfl
@[simp] theorem State.replaceBuf_cfg : (s.replaceBuf b bytes).cfg = s.cfg := by cases b <;> rfl
@[simp] theorem State.replaceBuf_inbox : (s.replaceBuf b bytes).inbox = s.inbox := by cases b <;> rfl
@[simp] theorem State.replaceBuf_rsps : (s.replaceBuf b bytes).rsps = s.rsps := by cases b <;> rfl
@[simp] theorem State.replaceBuf_bank : (s.replaceBuf b bytes).bank k = s.bank k := by cases b <;> rfl
@[simp] theorem State.replaceBuf_sb_sb : (s.replaceBuf .sb bytes).sb = bytes := rfl
@[simp] theorem State.replaceBuf_ib_sb : (s.replaceBuf .ib bytes).sb = s.sb := rfl
@[simp] theorem State.replaceBuf_ob_sb : (s.replaceBuf .ob bytes).sb = s.sb := rfl
@[simp] theorem State.replaceBuf_vb_sb : (s.replaceBuf .vb bytes).sb = s.sb := rfl
@[simp] theorem State.replaceBuf_sb_ib : (s.replaceBuf .sb bytes).ib = s.ib := rfl
@[simp] theorem State.replaceBuf_ib_ib : (s.replaceBuf .ib bytes).ib = bytes := rfl
@[simp] theorem State.replaceBuf_ob_ib : (s.replaceBuf .ob bytes).ib = s.ib := rfl
@[simp] theorem State.replaceBuf_vb_ib : (s.replaceBuf .vb bytes).ib = s.ib := rfl
@[simp] theorem State.replaceBuf_sb_ob : (s.replaceBuf .sb bytes).ob = s.ob := rfl
@[simp] theorem State.replaceBuf_ib_ob : (s.replaceBuf .ib bytes).ob = s.ob := rfl
@[simp] theorem State.replaceBuf_ob_ob : (s.replaceBuf .ob bytes).ob = bytes := rfl
@[simp] theorem State.replaceBuf_vb_ob : (s.replaceBuf .vb bytes).ob = s.ob := rfl
@[simp] theorem State.replaceBuf_sb_vb : (s.replaceBuf .sb bytes).vb = s.vb := rfl
@[simp] theorem State.replaceBuf_ib_vb : (s.replaceBuf .ib bytes).vb = s.vb := rfl
@[simp] theorem State.replaceBuf_ob_vb : (s.replaceBuf .ob bytes).vb = s.vb := rfl
@[simp] theorem State.replaceBuf_vb_vb : (s.replaceBuf .vb bytes).vb = bytes := rfl
@[simp] theorem State.replaceBuf_sb_cur : (s.replaceBuf .sb bytes).cur = 0 := rfl
@[simp] theorem State.replaceBuf_ib_cur : (s.replaceBuf .ib bytes).cur = s.cur := rfl
@[simp] theorem State.replaceBuf_ob_cur : (s.replaceBuf .ob bytes).cur = s.cur := rfl
@[simp] theorem State.replaceBuf_vb_cur : (s.replaceBuf .vb bytes).cur = s.cur := rfl
@[simp] theorem State.replaceBuf_buf_same : (s.replaceBuf b bytes).buf b = bytes := by cases b <;> rfl
theorem State.replaceBuf_buf_other (c : BufId) (h : c ≠ b) : (s.replaceBuf b bytes).buf c = s.buf c := by
  cases b <;> cases c <;> first | rfl | exact absurd rfl h
theorem State.replaceBuf_cur : (s.replaceBuf b bytes).cur = if b = .sb then 0 else s.cur := by cases b <;> rfl

/-! ### `State.setBank` -/
@[simp] theorem State.setBank_sb : (s.setBank k m).sb = s.sb := by cases k <;> rfl
@[simp] theorem State.setBank_cur : (s.setBank k m).cur = s.cur := by cases k <;> rfl
@[simp] theorem State.setBank_ib : (s.setBank k m).ib = s.ib := by cases k <;> rfl
@[simp] theorem State.setBank_ob : (s.setBank k m).ob = s.ob := by cases k <;> rfl
@[simp] theorem State.setBank_vb : (s.setBank k m).vb = s.vb := by cases k <;> rfl
@[simp] theorem State.setBank_bands : (s.setBank k m).bands = s.bands := by cases k <;> rfl
@[simp] theorem State.setBank_prev : (s.setBank k m).prev = s.prev := by cases k <;> rfl
@[simp] theorem State.setBank_cfg : (s.setBank k m).cfg = s.cfg := by cases k <;> rfl
@[simp] theorem State.setBank_inbox : (s.setBank k m).inbox = s.inbox := by cases k <;> rfl
@[simp] theorem State.setBank_rsps : (s.setBank k m).rsps = s.rsps := by cases k <;> rfl
@[simp] theorem State.setBank_buf : (s.setBank k m).buf b = s.buf b := by cases k <;> rfl
@[simp] theorem State.setBank_m0_bank0 : (s.setBank .m0 m).bank0 = m := rfl
@[simp] theorem State.setBank_m0_bank1 : (s.setBank .m0 m).bank1 = s.bank1 := rfl
@[simp] theorem State.setBank_m1_bank0 : (s.setBank .m1 m).bank0 = s.bank0 := rfl
@[simp] theorem State.setBank_m1_bank1 : (s.setBank .m1 m).bank1 = m := rfl
@[simp] theorem State.setBank_bank_same : (s.setBank k m).bank k = m := by cases k <;> rfl
theorem State.setBank_bank_other (j : BankId) (h : j ≠ k) : (s.setBank k m).bank j = s.bank j := by
  cases k <;> cases j <;> first | rfl | exact absurd rfl h

/-! ### `State.applyReset` -/
@[simp] theorem State.applyReset_sb : s.applyReset.sb = [] := rfl
@[simp] theorem State.applyReset_cur : s.applyReset.cur = 0 := rfl
@[simp] theorem State.applyReset_ib : s.applyReset.ib = [] := rfl
@[simp] theorem State.applyReset_ob : s.applyReset.ob = [] := rfl
@[simp] theorem State.applyReset_vb : s.applyReset.vb = [] := rfl
@[simp] theorem State.applyReset_bank0 : s.applyReset.bank0 = Bank.reset := rfl
@[simp] theorem State.applyReset_bank1 : s.applyReset.bank1 = Bank.reset := rfl
@[simp] theorem State.applyReset_bands : s.applyReset.bands = 1 := rfl
@[simp] theorem State.applyReset_prev : s.applyReset.prev = [prevDefault] := rfl
@[simp] theorem State.applyReset_cfg : s.applyReset.cfg = s.cfg := rfl
@[simp] theorem State.applyReset_inbox : s.applyReset.inbox = s.inbox := rfl
@[simp] theorem State.applyReset_rsps : s.applyReset.rsps = s.rsps := rfl

/-! ### The accessors at the named buffers and banks -/
@[simp] theorem State.buf_sb : s.buf .sb = s.sb := rfl
@[simp] theorem State.buf_ib : s.buf .ib = s.ib := rfl
@[simp] theorem State.buf_ob : s.buf .ob = s.ob := rfl
@[simp] theorem State.buf_vb : s.buf .vb = s.vb := rfl
@[simp] theorem State.bank_m0 : s.bank .m0 = s.bank0 := rfl
@[simp] theorem State.bank_m1 : s.bank .m1 = s.bank1 := rfl

end

end Sys2Proof.Machine
end

