-- ==== Sys2Proof/Laws/Ops.lean ====
section
/-! SUPPORT. What each shared operation can do, said once: later proofs cite these lemmas and do not unfold the
operation. -/

namespace Sys2Proof.Machine

/-! ### Ending a command -/

@[simp] theorem respond_eq (s : State) (st : Status) (r : Nat) : s.respond st r = .next (s.deliver ⟨st, r⟩) := rfl

@[simp] theorem raise_eq (s : State) (e : Status) : s.raise e = .next (s.deliver ⟨e, 0⟩) := rfl

/-! ### Operands -/

theorem bankOf_eq_none_iff (k : BitVec 4) : bankOf k = none ↔ isBankId k = false := by
  revert k; decide

theorem bufOf_eq_none_iff (b : BitVec 4) : bufOf b = none ↔ isBufId b = false := by
  revert b; decide

theorem withBank_of_some {k : BitVec 4} {b : BankId} (h : bankOf k = some b) (s : State) (f : BankId → Outcome) :
    withBank s k f = f b := by simp [withBank, h]

theorem withBank_of_none {k : BitVec 4} (h : bankOf k = none) (s : State) (f : BankId → Outcome) :
    withBank s k f = s.raise .eField := by simp [withBank, h]

theorem withBuf_of_some {k : BitVec 4} {b : BufId} (h : bufOf k = some b) (s : State) (f : BufId → Outcome) :
    withBuf s k f = f b := by simp [withBuf, h]

theorem withBuf_of_none {k : BitVec 4} (h : bufOf k = none) (s : State) (f : BufId → Outcome) :
    withBuf s k f = s.raise .eField := by simp [withBuf, h]

theorem withPoint_of_inRange {k : BitVec 4} {b : BankId} (h : bankOf k = some b) {s : State} {x y : BitVec 32}
    (hr : (s.bank b).inRange x y = true) (f : BankId → Outcome) : withPoint s k x y f = f b := by
  simp [withPoint, withBank_of_some h, hr]

theorem withPoint_of_outOfRange {k : BitVec 4} {b : BankId} (h : bankOf k = some b) {s : State} {x y : BitVec 32}
    (hr : (s.bank b).inRange x y = false) (f : BankId → Outcome) : withPoint s k x y f = s.raise .eRange := by
  simp [withPoint, withBank_of_some h, hr]

theorem inRange_iff (m : Bank) (x y : BitVec 32) :
    m.inRange x y = true ↔ x.toNat < m.bw.toNat ∧ y.toNat < m.bh.toNat := by simp [Bank.inRange]

/-! ### Capacities -/

@[simp] theorem overCap_none (n : Nat) : overCap none n = false := rfl

@[simp] theorem overCap_some (c n : Nat) : overCap (some c) n = decide (c < n) := rfl

theorem overCap_mono {cap : Option Nat} {m n : Nat} (h : m ≤ n) (hn : overCap cap n = false) :
    overCap cap m = false := by
  cases cap with
  | none => rfl
  | some c => simp only [overCap_some, decide_eq_false_iff_not] at hn ⊢; omega

/-! ### One bit -/

/-- What `byteSetBit` does, bit by bit. -/
theorem byteSetBit_getLsbD (x : Byte) (j k : Nat) (b : Bool) (hk : k < 8) :
    (byteSetBit x j b).getLsbD k = if k = j then b else x.getLsbD k := by
  by_cases h : j = k
  · subst h; cases b <;> simp [byteSetBit, hk]
  · have h' : ¬ k = j := fun e => h e.symm
    cases b <;> simp [byteSetBit, hk, h']

@[simp] theorem setBit_length (bytes : List Byte) (p : Nat) (b : Bool) :
    (setBit bytes p b).length = bytes.length := by simp [setBit]

/-- `SetBit` replaces bit `p` and "changes no other bit" (00_scope R10). -/
theorem setBit_bitAt (bytes : List Byte) (p q : Nat) (b : Bool) (h : p / 8 < bytes.length) :
    bitAt (setBit bytes p b) q = if q = p then b else bitAt bytes q := by
  have hq : q % 8 < 8 := Nat.mod_lt _ (by decide)
  unfold bitAt setBit
  simp only [List.getD_eq_getElem?_getD, List.getElem?_modify]
  by_cases hd : p / 8 = q / 8
  · have hl : q / 8 < bytes.length := hd ▸ h
    simp only [hd, List.getElem?_eq_getElem hl, Option.map_eq_map, Option.map_some, Option.getD_some, if_true]
    rw [byteSetBit_getLsbD _ _ _ _ hq]
    by_cases he : q = p
    · simp [he]
    · have : ¬ q % 8 = p % 8 := by omega
      simp [he, this]
  · have he : ¬ q = p := fun e => hd (by rw [e])
    simp [hd, he]

theorem growAt_length (bytes : List Byte) (p : Nat) :
    (growAt bytes p).length = if p / 8 = bytes.length then bytes.length + 1 else bytes.length := by
  unfold growAt; split <;> simp

/-- The appended byte is zero, so no bit reads differently. -/
@[simp] theorem growAt_bitAt (bytes : List Byte) (p q : Nat) : bitAt (growAt bytes p) q = bitAt bytes q := by
  unfold growAt
  split
  · unfold bitAt
    simp only [List.getD_eq_getElem?_getD, List.getElem?_append]
    split
    · rfl
    · rename_i h
      have hn : bytes[q / 8]? = none := List.getElem?_eq_none (by omega)
      rw [hn]
      rcases hk : q / 8 - bytes.length with _ | k <;> simp
  · rfl

/-- No bit beyond the end is 1. -/
theorem bitAt_of_length_le {bytes : List Byte} {p : Nat} (h : 8 * bytes.length ≤ p) : bitAt bytes p = false := by
  have hn : bytes[p / 8]? = none := List.getElem?_eq_none (by omega)
  simp [bitAt, List.getD_eq_getElem?_getD, hn]

/-- Two buffers of the same length with the same bits are the same. -/
theorem eq_of_bitAt {a b : List Byte} (hl : a.length = b.length) (h : ∀ p, p < 8 * a.length → bitAt a p = bitAt b p) :
    a = b := by
  apply List.ext_getElem hl
  intro k ha hb
  apply BitVec.eq_of_getLsbD_eq
  intro j hj
  have e := h (8 * k + j) (by omega)
  have h1 : (8 * k + j) / 8 = k := by omega
  have h2 : (8 * k + j) % 8 = j := by omega
  simpa [bitAt, h1, h2, List.getD_eq_getElem?_getD, List.getElem?_eq_getElem ha, List.getElem?_eq_getElem hb] using e

/-! ### The stream primitives -/

/-- `StreamWrite` grows the buffer to the last position written, never shrinks it (20_memory R37). -/
theorem streamWrite_length (n : Nat) : ∀ (bytes : List Byte) (c v : Nat), c ≤ 8 * bytes.length →
    (streamWrite bytes c n v).length = max bytes.length (ceil8 (c + n)) := by
  induction n with
  | zero => intro bytes c v h; simp only [streamWrite, ceil8]; omega
  | succ n ih =>
    intro bytes c v h
    have hl := growAt_length bytes c
    simp only [streamWrite]
    rw [ih _ _ _ (by rw [setBit_length, hl]; split <;> omega), setBit_length, hl]
    simp only [ceil8]
    split <;> omega

/-- `StreamWrite` puts bit `i` of the value at position `c + i` and leaves every other bit (20_memory R37). -/
theorem streamWrite_bitAt (n : Nat) : ∀ (bytes : List Byte) (c v p : Nat), c ≤ 8 * bytes.length →
    bitAt (streamWrite bytes c n v) p = if c ≤ p ∧ p < c + n then v.testBit (p - c) else bitAt bytes p := by
  induction n with
  | zero => intro bytes c v p _; simp only [streamWrite]; rw [if_neg (by omega)]
  | succ n ih =>
    intro bytes c v p h
    have hl := growAt_length bytes c
    have hc : c / 8 < (growAt bytes c).length := by rw [hl]; split <;> omega
    simp only [streamWrite]
    rw [ih _ _ _ _ (by rw [setBit_length, hl]; split <;> omega), setBit_bitAt _ _ _ _ hc, growAt_bitAt]
    by_cases h1 : p = c
    · subst h1; simp
    · by_cases h2 : c ≤ p ∧ p < c + (n + 1)
      · have h3 : c + 1 ≤ p ∧ p < c + 1 + n := by omega
        have h4 : p - c = (p - (c + 1)) + 1 := by omega
        rw [if_pos h3, if_pos h2, h4, Nat.testBit_succ]
      · have h3 : ¬ (c + 1 ≤ p ∧ p < c + 1 + n) := by omega
        rw [if_neg h3, if_neg h2, if_neg h1]

/-- `StreamRead`, bit by bit (20_memory R38). -/
theorem streamRead_testBit (m : Nat) : ∀ (bytes : List Byte) (c i : Nat),
    (streamRead bytes c m).testBit i = (decide (i < m) && bitAt bytes (c + i)) := by
  induction m with
  | zero => intro bytes c i; simp [streamRead]
  | succ m ih =>
    intro bytes c i
    simp only [streamRead]
    cases i with
    | zero => cases bitAt bytes c <;> simp [Nat.testBit_zero, Nat.add_mod]
    | succ i =>
      have hd : ((bitAt bytes c).toNat + 2 * streamRead bytes (c + 1) m) / 2 = streamRead bytes (c + 1) m := by
        cases bitAt bytes c <;> (simp; try omega)
      rw [Nat.testBit_succ, hd, ih]
      simp [Nat.add_assoc, Nat.add_comm 1 i]

/-- A value read is below `2^m` (20_memory R38). -/
theorem streamRead_lt (bytes : List Byte) (c m : Nat) : streamRead bytes c m < 2 ^ m := by
  apply Nat.lt_pow_two_of_testBit
  intro i hi
  rw [streamRead_testBit]
  simp [Nat.not_lt.mpr hi]

/-- A read depends only on the bits it covers. -/
theorem streamRead_congr {a b : List Byte} {c d m : Nat} (h : ∀ i, i < m → bitAt a (c + i) = bitAt b (d + i)) :
    streamRead a c m = streamRead b d m := by
  apply Nat.eq_of_testBit_eq
  intro i
  rw [streamRead_testBit, streamRead_testBit]
  by_cases hi : i < m
  · simp [hi, h i hi]
  · simp [hi]

/-- Reading back what was written gives the value (20_memory R40). -/
theorem streamRead_streamWrite (bytes : List Byte) (c n v : Nat) (h : c ≤ 8 * bytes.length) (hv : v < 2 ^ n) :
    streamRead (streamWrite bytes c n v) c n = v := by
  apply Nat.eq_of_testBit_eq
  intro i
  rw [streamRead_testBit, streamWrite_bitAt _ _ _ _ _ h]
  by_cases hi : i < n
  · simp [hi]
  · simp [hi, Nat.testBit_lt_two_pow (Nat.lt_of_lt_of_le hv (Nat.pow_le_pow_right (by decide) (Nat.not_lt.mp hi)))]

/-! ### Tiles through the stream -/

@[simp] theorem unpackTiles_length (bytes : List Byte) (c n : Nat) : (unpackTiles bytes c n).length = n := by
  induction n generalizing c with
  | zero => rfl
  | succ n ih => simp [unpackTiles, ih]

/-- Tile `t` is the 64 bits from position `c + 64·t` on (41_bmap R101). -/
theorem unpackTiles_getElem (bytes : List Byte) (n : Nat) : ∀ (c t : Nat) (h : t < n),
    (unpackTiles bytes c n)[t]'(by simpa using h) = BitVec.ofNat 64 (streamRead bytes (c + 64 * t) 64) := by
  induction n with
  | zero => intro c t h; omega
  | succ n ih =>
    intro c t h
    cases t with
    | zero => rfl
    | succ t =>
      have := ih (c + 64) t (by omega)
      simp only [unpackTiles, List.getElem_cons_succ, this]
      congr 2; omega

theorem packTiles_length (tiles : List Tile) : ∀ (bytes : List Byte) (c : Nat), c ≤ 8 * bytes.length →
    (packTiles bytes c tiles).length = max bytes.length (ceil8 (c + 64 * tiles.length)) := by
  induction tiles with
  | nil => intro bytes c h; simp only [packTiles, ceil8, List.length_nil]; omega
  | cons t rest ih =>
    intro bytes c h
    have hl := streamWrite_length 64 bytes c t.toNat h
    simp only [packTiles]
    rw [ih _ _ (by rw [hl]; simp only [ceil8]; omega), hl]
    simp only [ceil8, List.length_cons]
    omega

/-- Bit `j` of tile `t` goes to position `c + 64·t + j`; every other bit stays (41_bmap R100). -/
theorem packTiles_bitAt (tiles : List Tile) : ∀ (bytes : List Byte) (c p : Nat), c ≤ 8 * bytes.length →
    bitAt (packTiles bytes c tiles) p =
      if c ≤ p ∧ p < c + 64 * tiles.length then (tiles.getD ((p - c) / 64) 0).getLsbD ((p - c) % 64)
      else bitAt bytes p := by
  induction tiles with
  | nil => intro bytes c p _; simp only [packTiles, List.length_nil]; rw [if_neg (by omega)]
  | cons t rest ih =>
    intro bytes c p h
    have hl := streamWrite_length 64 bytes c t.toNat h
    simp only [packTiles]
    rw [ih _ _ _ (by rw [hl]; simp only [ceil8]; omega), streamWrite_bitAt _ _ _ _ _ h]
    simp only [List.length_cons]
    by_cases h1 : c ≤ p ∧ p < c + 64
    · have h2 : ¬ (c + 64 ≤ p ∧ p < c + 64 + 64 * rest.length) := by omega
      have h3 : c ≤ p ∧ p < c + 64 * (rest.length + 1) := by omega
      have h4 : (p - c) / 64 = 0 := by omega
      have h5 : (p - c) % 64 = p - c := by omega
      rw [if_neg h2, if_pos h1, if_pos h3, h4, h5]
      simp [BitVec.getLsbD]
    · by_cases h2 : c + 64 ≤ p ∧ p < c + 64 + 64 * rest.length
      · have h3 : c ≤ p ∧ p < c + 64 * (rest.length + 1) := by omega
        have h4 : (p - c) / 64 = (p - (c + 64)) / 64 + 1 := by omega
        have h5 : (p - c) % 64 = (p - (c + 64)) % 64 := by omega
        rw [if_pos h2, if_pos h3, h4, h5]
        simp
      · have h3 : ¬ (c ≤ p ∧ p < c + 64 * (rest.length + 1)) := by omega
        rw [if_neg h2, if_neg h1, if_neg h3]

end Sys2Proof.Machine
end

