-- ==== Sys2Proof/Laws/Memory.lean ====
section
/-! SUPPORT. The storage keeps its form (Memory.wf: 10_state R29 (I-2), (I-3) and the second half of (I-4)): one lemma
for each operation that writes storage, and one for the reset state. -/

namespace Sys2Proof.Machine

/-! ### The form, item by item -/

theorem Bank.wf_iff {c : Config} {m : Bank} :
    m.wf c = true ↔ m.tiles.length = tileCount m.bw m.bh ∧ overCap c.tileCap m.tiles.length = false := by
  simp [Bank.wf]

theorem Memory.wf_iff (s : State) :
    Memory.wf s = true ↔ (∀ b, overCap (capOf s.cfg b) (s.buf b).length = false) ∧ (∀ k, (s.bank k).wf s.cfg = true) ∧
      s.prev.length = s.bands := by
  simp only [Memory.wf, Bool.and_eq_true, Bool.not_eq_true', decide_eq_true_eq]
  constructor
  · rintro ⟨⟨⟨⟨⟨⟨h0, h1⟩, h2⟩, h3⟩, h4⟩, h5⟩, h6⟩
    exact ⟨fun b => by cases b <;> assumption, fun k => by cases k <;> assumption, h6⟩
  · rintro ⟨h, hk, hp⟩
    exact ⟨⟨⟨⟨⟨⟨h .sb, h .ib⟩, h .ob⟩, h .vb⟩, hk .m0⟩, hk .m1⟩, hp⟩

@[simp] theorem overCap_zero (cap : Option Nat) : overCap cap 0 = false := by cases cap <;> simp

/-! ### Each operation keeps it -/

theorem Memory.wf_reset : Memory.wf State.reset = true := by decide

theorem Memory.wf_applyReset (s : State) : Memory.wf s.applyReset = true := by
  simp [Memory.wf, Bank.wf, Bank.reset, tileCount, ceil8]

theorem Memory.wf_deliver {s : State} (h : Memory.wf s = true) (p : Response) : Memory.wf (s.deliver p) = true := h

theorem Memory.wf_setCur {s : State} (h : Memory.wf s = true) (c : Nat) : Memory.wf { s with cur := c } = true := h

theorem Memory.wf_setBuf {s : State} (h : Memory.wf s = true) {b : BufId} {bytes : List Byte}
    (hc : overCap (capOf s.cfg b) bytes.length = false) : Memory.wf (s.setBuf b bytes) = true := by
  rw [Memory.wf_iff] at h ⊢
  refine ⟨fun c => ?_, fun k => by simpa using h.2.1 k, by simpa using h.2.2⟩
  by_cases e : c = b
  · subst e; simpa using hc
  · rw [State.setBuf_buf_other _ _ _ _ e]; simpa using h.1 c

theorem Memory.wf_replaceBuf {s : State} (h : Memory.wf s = true) {b : BufId} {bytes : List Byte}
    (hc : overCap (capOf s.cfg b) bytes.length = false) : Memory.wf (s.replaceBuf b bytes) = true := by
  have := Memory.wf_setBuf h hc
  cases b <;> exact this

theorem Memory.wf_setBank {s : State} (h : Memory.wf s = true) {k : BankId} {m : Bank} (hm : m.wf s.cfg = true) :
    Memory.wf (s.setBank k m) = true := by
  rw [Memory.wf_iff] at h ⊢
  refine ⟨fun b => by simpa using h.1 b, fun j => ?_, by simpa using h.2.2⟩
  by_cases e : j = k
  · subst e; simpa using hm
  · rw [State.setBank_bank_other _ _ _ _ e]; simpa using h.2.1 j

/-- One tile word changed: the number of words is not. -/
theorem Bank.wf_modifyTile {c : Config} {m : Bank} (h : m.wf c = true) (t : Nat) (f : Tile → Tile) :
    (m.modifyTile t f).wf c = true := by
  rw [Bank.wf_iff] at h ⊢; simpa [Bank.modifyTile] using h

/-- All the tile words replaced by as many. -/
theorem Bank.wf_setTiles {c : Config} {m : Bank} (h : m.wf c = true) {tiles : List Tile}
    (hl : tiles.length = m.tiles.length) : Bank.wf c { m with tiles := tiles } = true := by
  rw [Bank.wf_iff] at h ⊢; simpa [hl] using h

/-- A bank as `BM.CONFIG` constructs it (41_bmap R93). -/
theorem Bank.wf_configured {c : Config} {width height : BitVec 32}
    (h : overCap c.tileCap (tileCount width height) = false) :
    Bank.wf c ⟨width, height, List.replicate (tileCount width height) 0⟩ = true := by
  rw [Bank.wf_iff]; simpa using h

/-- A write at the cursor, within the capacity (20_memory R37, R51). -/
theorem Memory.wf_streamWrite {s : State} (h : Memory.wf s = true) {n v : Nat} (hs : s.cur ≤ 8 * s.sb.length)
    (hc : overCap s.cfg.capSB (s.lenAfterWrite n) = false) :
    Memory.wf (s.setBuf .sb (streamWrite s.sb s.cur n v)) = true :=
  Memory.wf_setBuf h (by rw [streamWrite_length _ _ _ _ hs]; exact hc)

/-- A packed bank at the cursor, within the capacity (41_bmap R100). -/
theorem Memory.wf_packTiles {s : State} (h : Memory.wf s = true) {tiles : List Tile} (hs : s.cur ≤ 8 * s.sb.length)
    (hc : overCap s.cfg.capSB (s.lenAfterWrite (64 * tiles.length)) = false) :
    Memory.wf (s.setBuf .sb (packTiles s.sb s.cur tiles)) = true :=
  Memory.wf_setBuf h (by rw [packTiles_length _ _ _ hs]; exact hc)

/-- The Denc unit's three pieces written together (43_denc R125 to R128). -/
theorem Memory.wf_setDenc {s : State} (h : Memory.wf s = true) {bands : Nat} {prev vb : List Byte}
    (hp : prev.length = bands) (hc : overCap s.cfg.capVB vb.length = false) :
    Memory.wf { s with bands := bands, prev := prev, vb := vb } = true := by
  have h' := (Memory.wf_iff _).1 (Memory.wf_setBuf h (b := .vb) hc)
  exact (Memory.wf_iff _).2 ⟨fun b => by have := h'.1 b; cases b <;> exact this,
    fun k => by have := h'.2.1 k; cases k <;> exact this, hp⟩

end Sys2Proof.Machine
end

