-- ==== Sys2Proof/Laws/PerInstr.lean ====
section
/-! SUPPORT. The per-instruction family EncodedFormat: the encoder leaves every must-be-zero bit of the command's format
at zero (30_encoding R55, R60). One lemma per constructor of Instr. -/

namespace Sys2Proof.Laws.EncodedFormat

/-- No must-be-zero bit of the command's own format is 1 in its encoding. -/
def Statement (i : Instr) : Prop := mbzClear (formatOf i) (nOf i) (dOf i) = true

theorem of_fields {i : Instr} (hn : (nOf i &&& mbzN (formatOf i) == 0) = true)
    (hd : (dOf i &&& mbzD (formatOf i) == 0) = true) : Statement i := by
  simp only [Statement, mbzClear, hn, hd, Bool.and_self]

/-- A format with no must-be-zero bit in the field. -/
theorem noBits {w : Nat} (x : BitVec w) : (x &&& 0 == 0) = true := by simp

/-- A field that the encoder leaves at zero. -/
theorem zeroField {w : Nat} (x : BitVec w) : (0 &&& x == 0) = true := by simp

theorem lowId (k : BitVec 4) : ((0#4 ++ k) &&& 0xF0#8 == 0) = true := by revert k; decide

theorem highId (k : BitVec 4) : ((k ++ 0#4) &&& 0x0F#8 == 0) = true := by revert k; decide

theorem lowImmediate (x : BitVec 32) : ((0#32 ++ x) &&& 0xFFFFFFFF00000000#64 == 0) = true := by
  have h : (0xFFFFFFFF00000000#64) = (0xFFFFFFFF#32 ++ 0#32 : BitVec 64) := by decide
  rw [h, BitVec.and_append]; simp

theorem lowByte (x : Byte) : ((0#56 ++ x) &&& 0xFFFFFFFFFFFFFF00#64 == 0) = true := by
  have h : (0xFFFFFFFFFFFFFF00#64) = (0xFFFFFFFFFFFFFF#56 ++ 0#8 : BitVec 64) := by decide
  rw [h, BitVec.and_append]; simp

theorem sysNop : Statement (.sysNop) :=
  of_fields (zeroField _) (zeroField _)

theorem bsClear : Statement (.bsClear) :=
  of_fields (zeroField _) (zeroField _)

theorem bsRewind : Statement (.bsRewind) :=
  of_fields (zeroField _) (zeroField _)

theorem bsPush (value : BitVec 64) (bitCount : BitVec 8) : Statement (.bsPush value bitCount) :=
  of_fields (noBits _) (noBits _)

theorem bsPull (bitCount : BitVec 8) : Statement (.bsPull bitCount) :=
  of_fields (noBits _) (zeroField _)

theorem bsGet : Statement (.bsGet) :=
  of_fields (zeroField _) (zeroField _)

theorem bsTell : Statement (.bsTell) :=
  of_fields (zeroField _) (zeroField _)

theorem bmConfig (k : BitVec 4) (width : BitVec 32) (height : BitVec 32) : Statement (.bmConfig k width height) :=
  of_fields (lowId _) (noBits _)

theorem bmBit (k : BitVec 4) (x : BitVec 32) (y : BitVec 32) : Statement (.bmBit k x y) :=
  of_fields (lowId _) (noBits _)

theorem bmSet (k : BitVec 4) (x : BitVec 32) (y : BitVec 32) : Statement (.bmSet k x y) :=
  of_fields (lowId _) (noBits _)

theorem bmClear (k : BitVec 4) (x : BitVec 32) (y : BitVec 32) : Statement (.bmClear k x y) :=
  of_fields (lowId _) (noBits _)

theorem bmDsize (k : BitVec 4) : Statement (.bmDsize k) :=
  of_fields (lowId _) (zeroField _)

theorem bmGetsize (k : BitVec 4) : Statement (.bmGetsize k) :=
  of_fields (lowId _) (zeroField _)

theorem bmCmp (a : BitVec 4) (b : BitVec 4) : Statement (.bmCmp a b) :=
  of_fields (noBits _) (zeroField _)

theorem bmPack (k : BitVec 4) : Statement (.bmPack k) :=
  of_fields (lowId _) (zeroField _)

theorem bmUnpack (k : BitVec 4) : Statement (.bmUnpack k) :=
  of_fields (lowId _) (zeroField _)

theorem bmRdtile (k : BitVec 4) (t : BitVec 64) : Statement (.bmRdtile k t) :=
  of_fields (lowId _) (noBits _)

theorem rlEnc (dst : BitVec 4) (src : BitVec 4) : Statement (.rlEnc dst src) :=
  of_fields (noBits _) (zeroField _)

theorem rlDec (dst : BitVec 4) (src : BitVec 4) : Statement (.rlDec dst src) :=
  of_fields (noBits _) (zeroField _)

theorem dnConfig (bands : BitVec 32) : Statement (.dnConfig bands) :=
  of_fields (zeroField _) (lowImmediate _)

theorem dnDelta (src : BitVec 4) : Statement (.dnDelta src) :=
  of_fields (lowId _) (zeroField _)

theorem dnCheck (src : BitVec 4) : Statement (.dnCheck src) :=
  of_fields (lowId _) (zeroField _)

theorem dnRecode : Statement (.dnRecode) :=
  of_fields (zeroField _) (zeroField _)

theorem dnRdprev (c : BitVec 32) : Statement (.dnRdprev c) :=
  of_fields (zeroField _) (lowImmediate _)

theorem bufClear (dst : BitVec 4) : Statement (.bufClear dst) :=
  of_fields (highId _) (zeroField _)

theorem bufAppend (dst : BitVec 4) (byte : Byte) : Statement (.bufAppend dst byte) :=
  of_fields (highId _) (lowByte _)

theorem bufRead (src : BitVec 4) (index : BitVec 64) : Statement (.bufRead src index) :=
  of_fields (lowId _) (noBits _)

theorem bufLen (src : BitVec 4) : Statement (.bufLen src) :=
  of_fields (lowId _) (zeroField _)

end Sys2Proof.Laws.EncodedFormat
end

