-- ==== Sys2Proof/Laws/Port.lean ====
section
/-! SUPPORT. The phases of a command in the signal-level block. -/

namespace Sys2Proof.Laws

open Sys2Proof Sys2Proof.Machine

@[simp] theorem waiting_zero (w : CmdWord) : Phase.waiting w 0 = .done w := rfl

@[simp] theorem waiting_succ (w : CmdWord) (left : Nat) : Phase.waiting w (left + 1) = .busy w left := rfl

/-- A command in the block keeps the block from being idle, so `cmd_ready` is 0 (R66). -/
@[simp] theorem waiting_ne_idle (w : CmdWord) (left : Nat) : Phase.waiting w left ≠ .idle := by
  cases left <;> simp

/-- A cycle without reset takes one from the cycles a command still has, whatever the other inputs. -/
theorem tick_waiting (s : State) (w : CmdWord) (left accepted : Nat) (i : PortIn) (h : i.rst = false) :
    (⟨s, .waiting w (left + 1), accepted⟩ : Port).tick i = ⟨s, .waiting w left, accepted⟩ := by
  simp [Port.tick, h]

end Sys2Proof.Laws
end

