-- ==== Sys2Proof/Laws/Units.lean ====
section
/-! SUPPORT. What the loops of the RLE and Denc units can do: how long their results are, and how far a run goes. -/

namespace Sys2Proof.Machine

/-! ### RLE -/

/-- A run that has length `len` ends at `len` or later, within what is left of the input (42_rle R115). -/
theorem rlScan_bounds (v : Byte) (bytes : List Byte) :
    ∀ len, len ≤ rlScan v len bytes ∧ rlScan v len bytes ≤ len + bytes.length := by
  induction bytes with
  | nil => intro len; simp [rlScan]
  | cons x rest ih =>
    intro len
    simp only [rlScan]
    split
    · have := ih (len + 1)
      simp only [List.length_cons]
      omega
    · simp

/-- A run never gets longer than 255 (42_rle R114). -/
theorem rlScan_le (v : Byte) (bytes : List Byte) : ∀ len, len ≤ 255 → rlScan v len bytes ≤ 255 := by
  induction bytes with
  | nil => intro len h; simpa [rlScan] using h
  | cons x rest ih =>
    intro len h
    simp only [rlScan]
    split
    · exact ih _ (by omega)
    · exact h

/-- One turn of the encoder: the pair of the run that begins here, then the encoding of what comes after the run
(42_rle R115). -/
theorem rlRun_eq (v : Byte) (bytes : List Byte) :
    ∀ len, rlRun v len bytes =
      BitVec.ofNat 8 (rlScan v len bytes) :: v :: rlEncode (bytes.drop (rlScan v len bytes - len)) := by
  induction bytes with
  | nil => intro len; simp [rlRun, rlScan, rlEncode]
  | cons x rest ih =>
    intro len
    simp only [rlRun, rlScan]
    by_cases h : x = v ∧ len < 255
    · rw [if_pos h, if_pos (And.intro h.2 h.1), ih]
      have := (rlScan_bounds v rest (len + 1)).1
      obtain ⟨k, hk⟩ : ∃ k, rlScan v (len + 1) rest - len = k + 1 := ⟨rlScan v (len + 1) rest - len - 1, by omega⟩
      have e : rlScan v (len + 1) rest - (len + 1) = k := by omega
      rw [hk, e]; rfl
    · rw [if_neg h, if_neg (fun e => h ⟨e.2, e.1⟩)]; simp [rlEncode]

/-- The sum of the counts is the length of the decoding (42_rle R116). -/
theorem rlTotal_eq : ∀ bytes : List Byte, rlTotal bytes = (rlDecode bytes).length
  | [] => rfl
  | [_] => rfl
  | _ :: _ :: rest => by simp [rlTotal, rlDecode, rlTotal_eq rest]

/-! ### Denc -/

theorem processed_le (len bands : Nat) : processed len bands ≤ len := Nat.div_mul_le_self _ _

/-- One delta byte for each input byte, and a `PREV` of the same length (43_denc R126). -/
theorem deltaLoop_length (bands : Nat) (bytes : List Byte) : ∀ i prev,
    (deltaLoop bands i bytes prev).1.length = bytes.length ∧ (deltaLoop bands i bytes prev).2.length = prev.length := by
  induction bytes with
  | nil => intros; simp [deltaLoop]
  | cons x rest ih => intro i prev; simp [deltaLoop, ih]

/-- The replay keeps the length of `PREV` (43_denc R127). -/
theorem checkLoop_length (bands : Nat) (bytes : List Byte) : ∀ i vb prev,
    (checkLoop bands i bytes vb prev).1.length = prev.length := by
  induction bytes with
  | nil => intros; simp [checkLoop]
  | cons x rest ih =>
    intro i vb prev
    cases vb with
    | nil => simp [checkLoop]
    | cons v vb => simp only [checkLoop]; split <;> simp [ih]

end Sys2Proof.Machine
end

