-- ==== Sys2Proof/Tests/Slice0.lean ====
section
/-! SUPPORT. The writer's own tests. Expected values come from spec/: the examples of the command rules, the vectors of
95_test_vectors.md, and the encodings of 30_encoding R55 and R57 written out by hand. The theorems named witness_… show,
for each statement of Certificates/Slice0/Obligations.lean that has hypotheses, states and operands that meet them. -/

open Sys2Proof Sys2Proof.Machine

namespace Sys2Proof.Tests

/-! ### Helpers -/

/-- What a command leaves of the state it answers with, seen through `f`. -/
def look {α : Type} (o : Outcome) (f : State → α) : Option α :=
  match o with
  | .next t => some (f t)
  | .fault _ => none
  | .refused _ => none

/-- The response a command gives. -/
def answer (o : Outcome) : Option Response :=
  match o with
  | .next t => t.rsps.head?
  | .fault _ => none
  | .refused _ => none

/-- The stream of the examples of 40_bitstream. -/
def stream (sb : List Byte) (cur : Nat) : State := { State.reset with sb := sb, cur := cur }

/-- The 10×9 bitmap of the examples of 41_bmap in bank 0. -/
def bitmap (tiles : List Tile) : State := { State.reset with bank0 := ⟨10, 9, tiles⟩ }

/-- Buffers `IB` and `OB` with contents. -/
def buffers (ib ob : List Byte) : State := { State.reset with ib := ib, ob := ob }

/-- The Denc unit with contents. -/
def denc (bands : Nat) (prev ib vb : List Byte) : State :=
  { State.reset with bands := bands, prev := prev, ib := ib, vb := vb }

/-! ### WellFormed: each check refuses an ill-formed term -/

theorem test_wf_refuses_bank :
    ∀ k ∈ [2, 3, 15], ∀ i ∈ [Instr.bmConfig k 1 1, .bmBit k 0 0, .bmSet k 0 0, .bmClear k 0 0, .bmDsize k, .bmGetsize k,
      .bmCmp k 0, .bmPack k, .bmUnpack k, .bmRdtile k 0], i.wf = false := by decide

theorem test_wf_refuses_second_bank : (Instr.bmCmp 1 2).wf = false ∧ (Instr.bmCmp 1 15).wf = false := by decide

theorem test_wf_refuses_source_buffer :
    ∀ b ∈ [4, 5, 15], ∀ i ∈ [Instr.rlEnc 0 b, .rlDec 0 b, .dnDelta b, .dnCheck b, .bufRead b 0, .bufLen b],
      i.wf = false := by decide

theorem test_wf_refuses_destination_buffer :
    ∀ b ∈ [4, 5, 15], ∀ i ∈ [Instr.rlEnc b 0, .rlDec b 0, .bufClear b, .bufAppend b 0], i.wf = false := by decide

theorem test_wf_accepts_greatest_ids :
    ∀ i ∈ [Instr.bmCmp 1 1, .bmPack 1, .rlEnc 3 2, .dnDelta 3, .bufAppend 3 255], i.wf = true := by decide

/-! ### Decode: one word for each row of the table, written out from R54, R55 and R57 -/

theorem test_decode_system_and_stream :
    decode 0x00000000000000000000 = .ok .sysNop ∧ decode 0x10000000000000000000 = .ok .bsClear ∧
    decode 0x11000000000000000000 = .ok .bsRewind ∧ decode 0x1240DEADBEEFCAFEF00D = .ok (.bsPush 0xDEADBEEFCAFEF00D 64) ∧
    decode 0x13FF0000000000000000 = .ok (.bsPull 255) ∧ decode 0x14000000000000000000 = .ok .bsGet ∧
    decode 0x15000000000000000000 = .ok .bsTell := by decide

theorem test_decode_bmap :
    decode 0x2001000000090000000A = .ok (.bmConfig 1 10 9) ∧ decode 0x21000000000800000009 = .ok (.bmBit 0 9 8) ∧
    decode 0x22010000000800000009 = .ok (.bmSet 1 9 8) ∧ decode 0x2300FFFFFFFF00000001 = .ok (.bmClear 0 1 0xFFFFFFFF) ∧
    decode 0x24010000000000000000 = .ok (.bmDsize 1) ∧ decode 0x25000000000000000000 = .ok (.bmGetsize 0) ∧
    decode 0x26100000000000000000 = .ok (.bmCmp 0 1) ∧ decode 0x27010000000000000000 = .ok (.bmPack 1) ∧
    decode 0x28000000000000000000 = .ok (.bmUnpack 0) ∧
    decode 0x29018000000000000003 = .ok (.bmRdtile 1 0x8000000000000003) := by decide

theorem test_decode_rle_and_denc :
    decode 0x30210000000000000000 = .ok (.rlEnc 2 1) ∧ decode 0x31020000000000000000 = .ok (.rlDec 0 2) ∧
    decode 0x400000000000FFFFFFFF = .ok (.dnConfig 0xFFFFFFFF) ∧ decode 0x41010000000000000000 = .ok (.dnDelta 1) ∧
    decode 0x42020000000000000000 = .ok (.dnCheck 2) ∧ decode 0x43000000000000000000 = .ok .dnRecode ∧
    decode 0x44000000000000000001 = .ok (.dnRdprev 1) := by decide

theorem test_decode_buffers :
    decode 0x50100000000000000000 = .ok (.bufClear 1) ∧ decode 0x513000000000000000A7 = .ok (.bufAppend 3 0xA7) ∧
    decode 0x52028000000000000001 = .ok (.bufRead 2 0x8000000000000001) ∧
    decode 0x53020000000000000000 = .ok (.bufLen 2) := by decide

/-- 95_test_vectors 2.5.2: reserved opcodes, a must-be-zero bit of each kind, ids that do not exist. -/
theorem test_decode_refuses :
    decode 0xFFFFFFFFFFFFFFFFFFFF = .error .reservedOpcode ∧ decode 0x16000000000000000000 = .error .reservedOpcode ∧
    decode 0x00010000000000000000 = .error .reservedField ∧ decode 0x10000000000000000001 = .error .reservedField ∧
    decode 0x13010000000000000001 = .error .reservedField ∧ decode 0x21100000000000000000 = .error .reservedField ∧
    decode 0x50110000000000000000 = .error .reservedField ∧ decode 0x51100000000000000100 = .error .reservedField ∧
    decode 0x40000000000100000001 = .error .reservedField ∧ decode 0x21020000000000000000 = .error .reservedField ∧
    decode 0x26200000000000000000 = .error .reservedField ∧ decode 0x53040000000000000000 = .error .reservedField := by
  decide

theorem test_decode_table_word :
    decodeTableWord 80 (tableWord 80 0x51100000000000000007).toNat = some (.bufAppend 1 7) ∧
    decodeTableWord 80 0x26100000000000000000 = some (.bmCmp 0 1) := by decide

/-! ### Reset and the step -/

theorem test_reset_storage_has_its_form : Memory.wf State.reset = true := by decide

theorem test_step_runs_a_word :
    look (step (State.reset.withFetchWord 80 0x51100000000000000007)) (fun t => (t.ib, t.inbox, t.rsps)) =
      some ([7], [], [⟨.ok, 1⟩]) := by decide

theorem test_response_word : Response.word 1 ⟨.sFalse, 0x12⟩ = 0x010000000000000012 := by decide

/-! ### One command on a small state -/

theorem test_nop : answer (exec .sysNop (stream [1] 3)) = some ⟨.ok, 0⟩ := by decide

/-- The example of R77. -/
theorem test_clear : look (exec .bsClear (stream [0xFD, 0x07] 11)) (fun t => (t.sb, t.cur)) = some ([], 0) := by decide

/-- The example of R78. -/
theorem test_rewind : look (exec .bsRewind (stream [0xFD, 0x07] 11)) (fun t => (t.sb, t.cur)) = some ([0xFD, 0x07], 0) := by
  decide

/-- The example of R79. -/
theorem test_push :
    look (exec (.bsPush 0xFF 8) (stream [0x05] 3)) (fun t => (t.sb, t.cur, t.rsps)) =
      some ([0xFD, 0x07], 11, [⟨.ok, 11⟩]) := by decide

/-- 95_test_vectors 2.1.3: the low nibble is replaced, not ORed. -/
theorem test_push_replaces : look (exec (.bsPush 0x3 4) (stream [0xA5] 0)) State.sb = some [0xA3] := by decide

/-- The example of R80. -/
theorem test_pull :
    look (exec (.bsPull 8) (stream [0xFD, 0x07] 3)) (fun t => (t.cur, t.rsps)) = some (11, [⟨.ok, 0xFF⟩]) := by decide

/-- 95_test_vectors 2.1.6: the five bits that are left of 0xA7. -/
theorem test_pull_at_the_end :
    look (exec (.bsPull 8) (stream [0xFD, 0xA7] 11)) (fun t => (t.cur, t.rsps)) = some (16, [⟨.sFalse, 0x14⟩]) := by decide

/-- The examples of R81. -/
theorem test_get : look (exec .bsGet (stream [0x02] 1)) (fun t => (t.cur, t.rsps)) = some (2, [⟨.ok, 1⟩]) := by decide

theorem test_get_at_the_end : look (exec .bsGet (stream [0x02] 8)) (fun t => (t.cur, t.rsps)) = some (8, [⟨.ok, 0⟩]) := by
  decide

theorem test_tell : answer (exec .bsTell (stream [0xFD, 0x07] 11)) = some ⟨.ok, 11⟩ := by decide

/-- The example of R93. -/
theorem test_config :
    look (exec (.bmConfig 0 10 9) State.reset) (fun t => (t.bank0, t.rsps)) =
      some (⟨10, 9, [0, 0, 0, 0]⟩, [⟨.ok, 4⟩]) := by decide

/-- The examples of R94. -/
theorem test_bit :
    answer (exec (.bmBit 0 9 8) (bitmap [0, 0, 0, 2])) = some ⟨.ok, 1⟩ ∧
    answer (exec (.bmBit 0 8 8) (bitmap [0, 0, 0, 2])) = some ⟨.ok, 0⟩ := by decide

theorem test_bit_out_of_range : answer (exec (.bmBit 0 10 0) (bitmap [0, 0, 0, 2])) = some ⟨.eRange, 0⟩ := by decide

/-- The examples of R95 and R96. -/
theorem test_set : look (exec (.bmSet 0 9 8) (bitmap [0, 0, 0, 0])) State.bank0 = some ⟨10, 9, [0, 0, 0, 2]⟩ := by decide

theorem test_clear_bit : look (exec (.bmClear 0 9 8) (bitmap [0, 0, 0, 3])) State.bank0 = some ⟨10, 9, [0, 0, 0, 1]⟩ := by
  decide

theorem test_dsize : answer (exec (.bmDsize 0) (bitmap [0, 0, 0, 2])) = some ⟨.ok, 0x20⟩ := by decide

theorem test_getsize : answer (exec (.bmGetsize 0) (bitmap [0, 0, 0, 2])) = some ⟨.ok, 0x90000000A⟩ := by decide

/-- The example of R99: 8×16 against 16×8. -/
theorem test_cmp :
    answer (exec (.bmCmp 0 1) { State.reset with bank0 := ⟨8, 16, [0, 0]⟩, bank1 := ⟨16, 8, [0, 0]⟩ }) =
      some ⟨.ok, 1⟩ := by decide

theorem test_cmp_differs :
    answer (exec (.bmCmp 0 1) { State.reset with bank0 := ⟨8, 16, [0, 0]⟩, bank1 := ⟨16, 8, [0, 4]⟩ }) =
      some ⟨.sFalse, 0⟩ := by decide

/-- 20_memory R40 through R100: a tile at an aligned cursor is eight bytes, low byte first. -/
theorem test_pack :
    look (exec (.bmPack 1) { stream [0xAA] 8 with bank1 := ⟨8, 8, [0x0807060504030201]⟩ })
        (fun t => (t.sb, t.cur, t.rsps)) =
      some ([0xAA, 1, 2, 3, 4, 5, 6, 7, 8], 72, [⟨.ok, 0x40⟩]) := by decide +kernel

/-- The same bytes back through R101. -/
theorem test_unpack :
    look (exec (.bmUnpack 1) { stream [0xAA, 1, 2, 3, 4, 5, 6, 7, 8] 8 with bank1 := ⟨8, 8, [0]⟩ })
        (fun t => (t.bank1.tiles, t.cur, t.rsps)) =
      some ([0x0807060504030201], 72, [⟨.ok, 0x40⟩]) := by decide +kernel

theorem test_unpack_underrun : answer (exec (.bmUnpack 0) (bitmap [0, 0, 0, 2])) = some ⟨.eUnderrun, 0⟩ := by decide

theorem test_rdtile : answer (exec (.bmRdtile 0 3) (bitmap [0, 0, 0, 2])) = some ⟨.ok, 2⟩ := by decide

theorem test_rdtile_out_of_range : answer (exec (.bmRdtile 0 4) (bitmap [0, 0, 0, 2])) = some ⟨.eRange, 0⟩ := by decide

/-- The example of R115. -/
theorem test_enc :
    look (exec (.rlEnc 2 1) (buffers [7, 7, 7, 9] [])) (fun t => (t.ob, t.rsps)) =
      some ([3, 7, 1, 9], [⟨.ok, 4⟩]) := by decide

/-- 42_rle R114: a run is split after 255. -/
theorem test_enc_splits : rlRun 5 254 [5, 5, 9] = [255, 5, 1, 5, 1, 9] := by decide

/-- The examples of R116. -/
theorem test_dec :
    look (exec (.rlDec 0 2) { buffers [] [3, 7, 1, 9] with sb := [1], cur := 5 }) (fun t => (t.sb, t.cur, t.rsps)) =
      some ([7, 7, 7, 9], 0, [⟨.ok, 4⟩]) := by decide

theorem test_dec_malformed :
    answer (exec (.rlDec 2 1) (buffers [3, 7, 1] [])) = some ⟨.eMalformed, 0⟩ ∧
    answer (exec (.rlDec 2 1) (buffers [0, 7] [])) = some ⟨.eMalformed, 0⟩ := by decide

/-- The example of R125. -/
theorem test_dn_config :
    look (exec (.dnConfig 3) (denc 1 [5] [] [9])) (fun t => (t.bands, t.prev, t.vb)) = some (3, [127, 127, 127], []) := by
  decide

/-- The source's example (R126). -/
theorem test_delta :
    look (exec (.dnDelta 1) (denc 1 [127] [0] [])) (fun t => (t.vb, t.prev, t.rsps)) = some ([129], [0], [⟨.ok, 1⟩]) := by
  decide

/-- 95_test_vectors 2.4.1: two bands, interleaved, the odd byte left over. -/
theorem test_delta_two_bands :
    look (exec (.dnDelta 1) (denc 2 [127, 127] [10, 200, 12, 198, 9, 201, 130] [])) (fun t => (t.vb, t.prev, t.rsps)) =
      some ([0x8B, 0x49, 0x02, 0xFE, 0xFD, 0x03], [9, 201], [⟨.ok, 6⟩]) := by decide

/-- The examples of R127. -/
theorem test_check :
    look (exec (.dnCheck 1) (denc 1 [0] [0] [129])) (fun t => (t.prev, t.rsps)) = some ([0], [⟨.ok, 1⟩]) := by decide

theorem test_check_mismatch : answer (exec (.dnCheck 1) (denc 1 [0] [1] [129])) = some ⟨.sFalse, 0⟩ := by decide

/-- The source's example (R128). -/
theorem test_recode : look (exec .dnRecode (denc 1 [127] [] [0x05, 0x85])) State.vb = some [0x0A, 0xF5] := by decide

/-- The examples of R129. -/
theorem test_rdprev :
    answer (exec (.dnRdprev 0) State.reset) = some ⟨.ok, 0x7F⟩ ∧
    answer (exec (.dnRdprev 1) State.reset) = some ⟨.eRange, 0⟩ := by decide

theorem test_buf_clear : look (exec (.bufClear 1) (buffers [1, 2, 3] [])) State.ib = some [] := by decide

theorem test_buf_append :
    look (exec (.bufAppend 0 7) (stream [1] 5)) (fun t => (t.sb, t.cur, t.rsps)) = some ([1, 7], 5, [⟨.ok, 2⟩]) := by decide

/-- The examples of R141 and R142. -/
theorem test_buf_read :
    answer (exec (.bufRead 2 1) (buffers [] [3, 7, 1, 9])) = some ⟨.ok, 7⟩ ∧
    answer (exec (.bufRead 2 4) (buffers [] [3, 7, 1, 9])) = some ⟨.eRange, 0⟩ := by decide

theorem test_buf_len : answer (exec (.bufLen 2) (buffers [] [3, 7, 1, 9])) = some ⟨.ok, 4⟩ := by decide

theorem test_assembler_text : asmText (.rlEnc 2 1) = "RL.ENC OB, IB" ∧ asmText (.bmCmp 0 1) = "BM.CMP M0, M1" := by decide

/-! ### Witnesses: states and operands that meet the hypotheses of each statement, at the boundaries of its clauses -/

/-- Small capacities: `CAP = 2, 4, 4, 6`, `TILE_CAP = 4`, `BANDS_MAX = 3`. -/
def caps : Config := ⟨some 2, some 4, some 4, some 6, some 4, 3⟩

/-- A state with the invariants under these capacities: one bit short of nothing, bank 0 full, two bands. -/
def demo : State where
  sb := [0x05]
  cur := 3
  ib := [10, 200, 12]
  ob := [2, 7, 1, 9]
  vb := [1, 2, 3, 4]
  bank0 := ⟨10, 9, [0, 0, 0, 2]⟩
  bank1 := ⟨16, 16, [0, 0, 0, 2]⟩
  bands := 2
  prev := [127, 127]
  cfg := caps
  inbox := []
  rsps := []

/-- The same with no capacity but `CAP[0]`, which is given. -/
def roomy (capSB : Option Nat) : State := { demo with cfg := ⟨capSB, none, none, none, none, 3⟩ }

theorem caps_wf : caps.wf := by
  refine ⟨by decide, by decide, ?_⟩
  intro n hn
  simp only [caps, Option.mem_def, Option.some.injEq] at hn
  omega

theorem witness_demo_at_rest : AtRest demo := ⟨caps_wf, by decide, by decide, by decide, by decide⟩

theorem roomy_at_rest (c : Nat) (h1 : 1 ≤ c) (h2 : c ≤ 100) : AtRest (roomy (some c)) := by
  refine ⟨⟨(by decide : 1 ≤ 3), (by decide : 3 ≤ 2 ^ 32 - 1), ?_⟩, (by decide : demo.cur ≤ 8 * demo.sb.length), ?_, (by decide : 1 ≤ demo.bands),
    (by decide : demo.bands ≤ 3)⟩
  · intro n hn
    simp only [roomy, Option.mem_def, Option.some.injEq] at hn
    omega
  · simp only [roomy, demo, Memory.wf, Bank.wf, tileCount, ceil8, overCap_some, overCap_none]
    simp
    omega

theorem witness_DecodeOfEncode : (Instr.bmCmp 1 1).wf = true ∧ (Instr.rlEnc 3 3).wf = true := by decide

theorem witness_EncodeOfDecode : decode 0x26110000000000000000 = .ok (.bmCmp 1 1) := by decide

theorem witness_ReservedOpcodesAnswer :
    ∀ op ∈ [0x01, 0x0F, 0x16, 0x1F, 0x2A, 0x2F, 0x32, 0x3F, 0x45, 0x4F, 0x54, 0x5F, 0x60, 0xFF],
      decode (mkWord (BitVec.ofNat 8 op) 0 0) = .error .reservedOpcode := by decide

theorem witness_ReservedFieldsAnswer :
    (∃ row ∈ opcodeTable, (0x10000000000000000001 : CmdWord) &&& row.mask = row.pattern ∧
      (0x10000000000000000001 : CmdWord) &&& row.strictMask ≠ row.pattern) ∧
    (instrOf 0x21 0x02 0 = some (.bmBit 2 0 0) ∧ (Instr.bmBit 2 0 0).wf = false) ∧
    (∃ row ∈ opcodeTable, (0x21010000000000000000 : CmdWord) &&& row.mask = row.pattern ∧
      (0x21010000000000000000 : CmdWord) &&& row.strictMask = row.pattern ∧ (Instr.bmBit 1 0 0).wf = true) := by decide

theorem witness_StepRunsDecodedCommand :
    ({ demo with inbox := [.command 0x12030000000000000005] }.inbox = .command 0x12030000000000000005 :: [] ∧
      decode 0x12030000000000000005 = .ok (.bsPush 5 3)) ∧
    decode 0x60000000000000000000 = .error .reservedOpcode ∧ decode 0x24020000000000000000 = .error .reservedField := by
  decide

theorem witness_StepKeepsInvariants :
    AtRest { demo with inbox := [.command 0x12030000000000000005] } ∧
    (∃ t, step { demo with inbox := [.command 0x12030000000000000005] } = .next t ∧ t.cur = 6) ∧
    (∃ t, step { demo with inbox := [.rst] } = .next t ∧ t.cur = 0) ∧ ∃ t, step demo = .next t :=
  ⟨witness_demo_at_rest, ⟨_, rfl, by decide⟩, ⟨_, rfl, by decide⟩, ⟨_, rfl⟩⟩

theorem witness_CursorFitsItsRegister : AtRest demo ∧ demo.cfg.capSB = some 2 := ⟨witness_demo_at_rest, rfl⟩

theorem witness_IdleAndResetSteps : demo.inbox = [] ∧ { demo with inbox := [.rst] }.inbox = .rst :: [] := ⟨rfl, rfl⟩

theorem witness_ResetStateReachedByCommands : 1 ≤ { demo with cfg := { caps with bandsMax := 1 } }.cfg.bandsMax := by decide

theorem witness_RefusalChangesNothing :
    (∃ t, execWord 0x01000000000000000000 demo = .next t ∧ t.rsps = ⟨.eOpcode, 0⟩ :: demo.rsps ∧
      0x80 ≤ Status.eOpcode.code.toNat) ∧
    ∃ t, execWord 0x30110000000000000000 demo = .next t ∧ t.rsps = ⟨.eAlias, 0⟩ :: demo.rsps ∧
      0x80 ≤ Status.eAlias.code.toNat := ⟨⟨_, rfl, rfl, by decide⟩, ⟨_, rfl, rfl, by decide⟩⟩

theorem witness_StatusesStayInTheMatrix :
    instrOf 0x13 9 0 = some (.bsPull 9) ∧
    ∃ t, execWord 0x13090000000000000000 demo = .next t ∧ t.rsps = ⟨.sFalse, 0⟩ :: demo.rsps := ⟨by decide, ⟨_, rfl, rfl⟩⟩

/-- `BS.TELL` writes no piece, `DN.CONFIG` none but three: each clause has a piece outside the row. -/
theorem witness_WritesOnlyItsRow :
    (∃ t, exec (.dnConfig 1) demo = .next t) ∧ Piece.buf .sb ∉ writesOf (.dnConfig 1) ∧ .cur ∉ writesOf (.dnConfig 1) ∧
    Piece.dims .m0 ∉ writesOf (.dnConfig 1) ∧ Piece.tiles .m1 ∉ writesOf (.dnConfig 1) ∧ .bands ∉ writesOf .bsTell ∧
    .prev ∉ writesOf .bsTell := ⟨⟨_, rfl⟩, by decide, by decide, by decide, by decide, by decide, by decide⟩

/-- Two different states that agree on what `BUF.APPEND SB` reads and on the buffer it adds to. -/
theorem witness_ReadsOnlyItsRow :
    demo ≠ { demo with cur := 8, ib := [] } ∧ demo.cfg = { demo with cur := 8, ib := [] }.cfg ∧
    (∀ p ∈ readsOf (.bufAppend 0 7), sameAt demo { demo with cur := 8, ib := [] } p) ∧
    (∀ p ∈ extendsOf (.bufAppend 0 7), sameAt demo { demo with cur := 8, ib := [] } p) ∧
    (answer (exec (.bufAppend 0 7) demo)).map (fun r => decide (r.st.code.toNat < 0x80)) = some true := by
  refine ⟨by decide, rfl, ?_, ?_, by decide⟩ <;> intro p hp <;>
    simp [readsOf, extendsOf, bufPieces, bufOf] at hp <;> subst hp <;> rfl

theorem witness_RunIsExecLeftToRight :
    (∀ i ∈ [Instr.bsPush 5 3, .bsRewind], i.wf = true) ∧
    { demo with inbox := [.command (encode (.bsPush 5 3)), .command (encode .bsRewind), .rst] }.inbox =
      [Instr.bsPush 5 3, .bsRewind].map (fun i => HostEvent.command (encode i)) ++ [.rst] := ⟨by decide, rfl⟩

theorem witness_ResponseWordLayout : (⟨.ok, 2 ^ 64 - 1⟩ : Response).r < 2 ^ 64 := by decide

/-- The ids on both sides of the reserved ranges (20_memory R44): 3 and 4, 1 and 2. -/
theorem witness_ids :
    bufOf 0 = some .sb ∧ bufOf 1 = some .ib ∧ bufOf 2 = some .ob ∧ bufOf 3 = some .vb ∧ 4 ≤ (4 : BitVec 4).toNat ∧
    4 ≤ (15 : BitVec 4).toNat ∧ bankOf 0 = some .m0 ∧ bankOf 1 = some .m1 ∧ 2 ≤ (2 : BitVec 4).toNat ∧
    2 ≤ (15 : BitVec 4).toNat := by decide

/-- A word of another form for a command of one word, and masked bits of both fields (30_encoding R60). -/
theorem witness_word_forms :
    (opField 0x10000000000000000001 = opField 0x10000000000000000000 ∧
      (0x10000000000000000001 : CmdWord) ≠ 0x10000000000000000000) ∧
    (opField 0x50010000000000000000 = 0x50 ∧ nField 0x50010000000000000000 &&& 0x0F ≠ 0) ∧
    (opField 0x51108000000000000000 = 0x51 ∧ dField 0x51108000000000000000 &&& 0xFFFFFFFFFFFFFF00 ≠ 0) := by decide

/-- The first ids that do not exist and the last that do: the "reserved id" premise of every command with an id. -/
theorem witness_reserved_ids :
    4 ≤ (4 : BitVec 4).toNat ∧ bufOf 4 = none ∧ bufOf 3 = some .vb ∧
    2 ≤ (2 : BitVec 4).toNat ∧ bankOf 2 = none ∧ bankOf 1 = some .m1 := by decide

theorem witness_BufClearEmpties : 4 ≤ (4 : BitVec 4).toNat := by decide

theorem witness_MortonInterleavesBits : (7 : Nat) < 8 ∧ morton (7 * 8 + 7) = 63 := by decide

/-- `OB` is full under `caps`, `IB` has room for exactly one byte. -/
theorem witness_BufAppendAddsOneByte :
    overCap (capOf demo.cfg .ob) ((demo.buf .ob).length + 1) = true ∧
    overCap (capOf demo.cfg .ib) ((demo.buf .ib).length + 1) = false := by decide

theorem witness_BufReadAndLenObserve :
    (3 : BitVec 64).toNat < (demo.buf .ob).length ∧ (demo.buf .ob).length ≤ (4 : BitVec 64).toNat := by decide

theorem witness_LoadPseudoFillsBuffer : bufOf 1 = some .ib ∧ overCap (capOf demo.cfg .ib) [1, 2, 3, 4].length = false := by
  decide

theorem witness_GetReadsOneBit : (stream [0x02] 7).cur < 8 * (stream [0x02] 7).sb.length ∧
    8 * (stream [0x02] 8).sb.length ≤ (stream [0x02] 8).cur := by decide

/-- `SB` has one byte, the cursor stands at 3 and two bytes fit: 13 bits end exactly at the capacity, 14 do not. -/
theorem witness_PushWritesItsBits :
    demo.cur ≤ 8 * demo.sb.length ∧ 64 < (65 : BitVec 8).toNat ∧
    (2 ^ (3 : BitVec 8).toNat ≤ (8 : BitVec 64).toNat ∧ (7 : BitVec 64).toNat < 2 ^ (3 : BitVec 8).toNat) ∧
    overCap demo.cfg.capSB (max demo.sb.length ((demo.cur + (14 : BitVec 8).toNat + 7) / 8)) = true ∧
    overCap demo.cfg.capSB (max demo.sb.length ((demo.cur + (13 : BitVec 8).toNat + 7) / 8)) = false ∧
    (0 : BitVec 64).toNat < 2 ^ (0 : BitVec 8).toNat ∧ (BitVec.allOnes 64).toNat < 2 ^ (64 : BitVec 8).toNat := by decide

theorem witness_PullReadsWhatIsThere : 64 < (65 : BitVec 8).toNat ∧ (64 : BitVec 8).toNat ≤ 64 := by decide

theorem witness_PushesAndPullsConcatenate :
    demo.cur ≤ 8 * demo.sb.length ∧ (5 : BitVec 8).toNat + (8 : BitVec 8).toNat ≤ 64 ∧
    (31 : BitVec 64).toNat < 2 ^ (5 : BitVec 8).toNat ∧ (255 : BitVec 64).toNat < 2 ^ (8 : BitVec 8).toNat ∧
    overCap demo.cfg.capSB
      (max demo.sb.length (ceil8 (demo.cur + ((5 : BitVec 8).toNat + (8 : BitVec 8).toNat)))) = false ∧
    demo.cur + (2 : BitVec 8).toNat + (3 : BitVec 8).toNat ≤ 8 * demo.sb.length := by decide

theorem witness_PushPullRoundTrip :
    (stream [] 0).sb = [] ∧ (stream [] 0).cur = 0 ∧
    (∀ f ∈ [((5 : BitVec 64), (3 : BitVec 8)), (0, 0), (BitVec.allOnes 64, 64)],
      f.2.toNat ≤ 64 ∧ f.1.toNat < 2 ^ f.2.toNat) ∧
    overCap (stream [] 0).cfg.capSB (ceil8 67) = false := by
  refine ⟨rfl, rfl, ?_, by decide⟩
  intro f hf
  simp only [List.mem_cons, List.not_mem_nil, or_false] at hf
  rcases hf with rfl | rfl | rfl <;> decide

theorem witness_FreeBitsPreserved : demo.cur ≤ 8 * demo.sb.length ∧ Free demo ∧
    (∃ t, exec (.bsPush 5 3) demo = .next t) ∧ (∃ t, exec (.bmPack 0) demo = .next t) ∧
    (∃ t, exec (.bsPull 3) demo = .next t) ∧ (∃ t, exec .bsGet demo = .next t) ∧
    (∃ t, exec (.bmUnpack 1) demo = .next t) ∧ ∃ t, exec .bsClear demo = .next t := by
  refine ⟨by decide, ?_, ⟨_, rfl⟩, ⟨_, rfl⟩, ⟨_, rfl⟩, ⟨_, rfl⟩, ⟨_, rfl⟩, ⟨_, rfl⟩⟩
  have h : ∀ p < 8, demo.cur ≤ p → bitAt demo.sb p = false := by decide
  exact fun p h1 h2 => h p h2 h1

theorem witness_ChunkedDatapathAgrees :
    (64 ≤ 64 ∧ (2 ^ 64 - 1 : Nat) < 2 ^ 64 ∧ 3 ≤ 8 * [(0x05 : Byte)].length) ∧ 3 + 5 ≤ 8 * [(0x05 : Byte)].length := by
  decide

theorem witness_StreamHasNoWidths : 3 ≤ 8 * [(0x05 : Byte)].length ∧ (7 : Nat) < 2 ^ 3 := by decide

/-- 16×16 fills `TILE_CAP = 4`, 17×16 exceeds it. -/
theorem witness_ConfigConstructsBitmap :
    overCap demo.cfg.tileCap (((17 : BitVec 32).toNat + 7) / 8 * (((16 : BitVec 32).toNat + 7) / 8)) = true ∧
    overCap demo.cfg.tileCap (((16 : BitVec 32).toNat + 7) / 8 * (((16 : BitVec 32).toNat + 7) / 8)) = false := by decide

/-- Bank 0 is 10×9: (9, 8) is its last coordinate, (10, 0) and (0, 9) lie just outside. -/
theorem witness_BitReadsItsTileBit :
    (demo.bank .m0).bw.toNat ≤ (10 : BitVec 32).toNat ∧ (demo.bank .m0).bh.toNat ≤ (9 : BitVec 32).toNat ∧
    (9 : BitVec 32).toNat < (demo.bank .m0).bw.toNat ∧ (8 : BitVec 32).toNat < (demo.bank .m0).bh.toNat := by decide

theorem witness_SetAndClearChangeOneBit :
    AtRest demo ∧ (demo.bank .m0).inRange 10 8 = false ∧ (demo.bank .m0).inRange 9 8 = true ∧
    (demo.bank .m0).covers 15 15 := ⟨witness_demo_at_rest, by decide, by decide, by decide, by decide⟩

theorem witness_PaddingStaysClear :
    (∃ t, exec (.bmConfig 0 10 9) demo = .next t) ∧
    overCap demo.cfg.tileCap (ceil8 (10 : BitVec 32).toNat * ceil8 (9 : BitVec 32).toNat) = false ∧ AtRest demo ∧
    (demo.bank .m1).paddingClear ∧ (∃ t, exec (.bmSet 1 15 15) demo = .next t) ∧
    ∃ t, exec (.bmClear 1 15 15) demo = .next t := by
  refine ⟨⟨_, rfl⟩, by decide, witness_demo_at_rest, ?_, ⟨_, rfl⟩, ⟨_, rfl⟩⟩
  rintro x y ⟨h1, h2⟩ h3
  have hx : x.toNat / 8 < 2 := h1
  have hy : y.toNat / 8 < 2 := h2
  have : (demo.bank .m1).inRange x y = true := by
    have h4 : x.toNat < 16 := by omega
    have h5 : y.toNat < 16 := by omega
    simp [Bank.inRange, demo, State.bank, h4, h5]
  rw [this] at h3
  cases h3

theorem witness_SizesAndTilesObserve :
    AtRest demo ∧ ceil8 (demo.bank .m0).bw.toNat * ceil8 (demo.bank .m0).bh.toNat ≤ (4 : BitVec 64).toNat ∧
    (3 : BitVec 64).toNat < ceil8 (demo.bank .m0).bw.toNat * ceil8 (demo.bank .m0).bh.toNat :=
  ⟨witness_demo_at_rest, by decide, by decide⟩

/-- Equal tiles under different dimensions; one differing word; different lengths. -/
theorem witness_CompareAnswersEquality :
    ((demo.bank .m0).tiles.length = (demo.bank .m1).tiles.length ∧
      ∀ t < (demo.bank .m0).tiles.length, (demo.bank .m0).tiles.getD t 0 = (demo.bank .m1).tiles.getD t 0) ∧
    (∃ t < [(2 : Tile)].length, [(2 : Tile)].getD t 0 ≠ [(3 : Tile)].getD t 0) ∧
    (bitmap [0, 0, 0, 2]).bank0.tiles.length ≠ (bitmap [0, 0, 0, 2]).bank1.tiles.length := by decide

theorem witness_CompareLaws :
    (∃ t < 4, ∃ p < 64, ((demo.bank .m0).tiles.getD t 0).getLsbD p ≠
      (({ demo with bank1 := ⟨16, 16, [0, 0, 0, 3]⟩ } : State).bank .m1 |>.tiles.getD t 0).getLsbD p) ∧
    (demo.bank .m0).tiles = (demo.bank .m1).tiles ∧
    (State.reset.bank .m0).tiles.length ≠ ((bitmap [0, 0, 0, 2]).bank .m0).tiles.length := by
  refine ⟨⟨3, by decide, 0, by decide, by decide⟩, by decide, by decide⟩

/-- 256 bits from position 3 on need 33 bytes: they fit `CAP[0] = 33` and not `CAP[0] = 32`. -/
theorem witness_PackWritesTilesInOrder :
    AtRest (roomy (some 32)) ∧ AtRest (roomy (some 33)) ∧
    overCap (roomy (some 32)).cfg.capSB (max demo.sb.length (ceil8 (demo.cur + 64 * 4))) = true ∧
    overCap (roomy (some 33)).cfg.capSB (max demo.sb.length (ceil8 (demo.cur + 64 * 4))) = false :=
  ⟨roomy_at_rest _ (by decide) (by decide), roomy_at_rest _ (by decide) (by decide), by decide, by decide⟩

/-- A bank of one tile takes 64 bits: 8 bytes hold them, 7 do not. -/
theorem witness_UnpackReadsTilesInOrder :
    AtRest { State.reset with sb := List.replicate 8 1, bank0 := ⟨8, 8, [0]⟩ } ∧
    64 * (ceil8 (8 : BitVec 32).toNat * ceil8 (8 : BitVec 32).toNat) ≤ 8 * (List.replicate 8 (1 : Byte)).length - 0 ∧
    8 * (List.replicate 7 (1 : Byte)).length - 0 < 64 * (ceil8 (8 : BitVec 32).toNat * ceil8 (8 : BitVec 32).toNat) :=
  ⟨⟨by decide, by decide, by decide, by decide, by decide⟩, by decide, by decide⟩

theorem witness_PackUnpackRoundTrip :
    AtRest (roomy (some 33)) ∧ bankOf 0 = some .m0 ∧ bankOf 1 = some .m1 ∧
    overCap (roomy (some 33)).cfg.capSB (max demo.sb.length (ceil8 (demo.cur + 64 * 4))) = false ∧ BankId.m0 ≠ .m1 ∧
    AtRest { roomy (some 33) with cur := 0 } ∧ { roomy (some 33) with cur := 0 }.cur = 0 := by
  have h := roomy_at_rest 33 (by decide) (by decide)
  exact ⟨h, by decide, by decide, by decide, by decide, ⟨h.1, Nat.zero_le _, h.2.2⟩, rfl⟩

/-- 4 bytes fill `CAP[2] = 4`; three different bytes need 6. -/
theorem witness_EncodeReplacesDestination :
    BufId.ib ≠ .ob ∧ overCap (capOf demo.cfg .ob) (rlEncodeLoop 3 [10, 200, 12]).length = true ∧
    overCap (capOf demo.cfg .ob) (rlEncodeLoop 3 [10, 10, 12]).length = false ∧
    overCap (capOf demo.cfg .vb) (rlEncodeLoop (demo.buf .ib).length (demo.buf .ib)).length = false := by decide

theorem witness_DecodeExpandsPairs :
    (demo.buf .ib).length % 2 = 1 ∧ (∃ j < 2, [(1 : Byte), 7, 0, 9].getD (2 * j) 0 = 0) ∧
    ((demo.buf .ob).length % 2 = 0 ∧ ∀ j < (demo.buf .ob).length / 2, (demo.buf .ob).getD (2 * j) 0 ≠ 0) ∧
    overCap (capOf demo.cfg .sb) [(7 : Byte), 7, 9].length = true ∧
    overCap (capOf demo.cfg .ib) [(7 : Byte), 7, 9].length = false := by decide

theorem witness_EncodeDecodeRoundTrip :
    bufOf 1 = some .ib ∧ bufOf 3 = some .vb ∧ bufOf 2 = some .ob ∧ BufId.vb ≠ .ib ∧ BufId.vb ≠ .ob ∧
    overCap (capOf demo.cfg .vb) (rlEncode (demo.buf .ib)).length = false ∧
    overCap (capOf demo.cfg .ob) (demo.buf .ib).length = false := by decide

theorem witness_DencConfigSeeds :
    (0 : BitVec 32).toNat = 0 ∧ demo.cfg.bandsMax < (4 : BitVec 32).toNat ∧ 1 ≤ (1 : BitVec 32).toNat ∧
    (3 : BitVec 32).toNat ≤ demo.cfg.bandsMax := by decide

/-- `VB` holds four of six bytes: two more fit, four do not. -/
theorem witness_DeltaAppendsDifferences :
    AtRest demo ∧ BufId.ib ≠ .vb ∧
    overCap demo.cfg.capVB (demo.vb.length + (demo.buf .ib).length / demo.bands * demo.bands) = false ∧
    overCap demo.cfg.capVB (demo.vb.length + (demo.buf .ob).length / demo.bands * demo.bands) = true :=
  ⟨witness_demo_at_rest, by decide, by decide, by decide⟩

/-- With one band and `VB = [129]`: `[0]` agrees, `[1]` diverges at 0, `[0, 0]` runs out of delta bytes at 1. -/
theorem witness_CheckReportsFirstDivergence :
    1 ≤ (denc 1 [0] [0] [129]).bands ∧ (127 : Byte) + 129 = 0 ∧ (127 : Byte) + 129 ≠ 1 ∧ ¬ 1 < [(129 : Byte)].length ∧
    0 < [(129 : Byte)].length := by decide

theorem witness_DeltaThenCheckSucceeds :
    (bufOf 1 = some .ib ∧ BufId.ib ≠ .vb ∧ 1 ≤ (3 : BitVec 32).toNat ∧ (3 : BitVec 32).toNat ≤ demo.cfg.bandsMax ∧
      overCap demo.cfg.capVB ((demo.buf .ib).length / 3 * 3) = false) ∧
    AtRest { demo with vb := [] } ∧ { demo with vb := [] }.vb = [] ∧ (∀ x ∈ demo.prev, x = 127) ∧
    (∀ x ∈ [[(1 : Byte), 2]], x.length % demo.bands = 0) ∧
    overCap demo.cfg.capIB ([[(1 : Byte), 2]].flatten ++ [3]).length = false ∧
    overCap demo.cfg.capVB ([[(1 : Byte), 2]].flatten ++ [3]).length = false :=
  ⟨by decide, ⟨caps_wf, by decide, by decide, by decide, by decide⟩, rfl, by decide, by decide, by decide, by decide⟩

theorem witness_ReadPrevObserves :
    AtRest demo ∧ demo.bands ≤ (2 : BitVec 32).toNat ∧ (1 : BitVec 32).toNat < demo.prev.length :=
  ⟨witness_demo_at_rest, by decide, by decide⟩

theorem witness_TransactionRunsOneCommand :
    (⟨demo, .idle, 0⟩ : Port).phase = .idle ∧ (⟨false, true, 0x12030000000000000005, true⟩ : PortIn).rst = false ∧
    (⟨false, true, 0x12030000000000000005, true⟩ : PortIn).cmdValid = true ∧
    ∀ n, ∃ wait : List PortIn, wait.length = n ∧ ∀ j ∈ wait, j.rst = false :=
  ⟨rfl, rfl, rfl, fun n => ⟨List.replicate n ⟨false, false, 0, true⟩, by simp, fun j hj => by
    rw [List.eq_of_mem_replicate hj]⟩⟩

theorem witness_PortResetAbandonsCommand : (⟨true, true, 0, true⟩ : PortIn).rst = true := rfl

end Sys2Proof.Tests
end

section
/-! PROOF. The cursor's bound, from the capacity of the stream (00_scope R7, 10_state R29). -/

namespace Sys2Proof.Machine

/-- What fits a finite capacity is at most that capacity (20_memory R51). -/
theorem overCap_some_eq_false_iff {c n : Nat} : overCap (some c) n = false ↔ n ≤ c := by simp

/-- (I-2) of 10_state R29, for one buffer whose capacity is finite. -/
theorem Memory.length_buf_le_cap {s : State} (h : Memory.wf s = true) {b : BufId} {c : Nat}
    (hc : capOf s.cfg b = some c) : (s.buf b).length ≤ c := by
  obtain ⟨hfits, -, -⟩ := (Memory.wf_iff s).1 h
  exact overCap_some_eq_false_iff.1 (hc ▸ hfits b)

/-- Settles O9: the cursor is within the `8·len(SB)` bits of the stream, the stream within `CAP[0]`, and `8·CAP[0]`
below `2^64`. -/
theorem cursorFitsItsRegister : Obligations.CursorFitsItsRegister := by
  intro s c ⟨⟨_, _, hR7⟩, hcur, hmem, _, _⟩ hcap
  have hlen : s.sb.length ≤ c := Memory.length_buf_le_cap hmem (b := .sb) hcap
  calc
    s.cur ≤ 8 * s.sb.length := hcur
    _ ≤ 8 * c := Nat.mul_le_mul_left 8 hlen
    _ < 2 ^ 64 := hR7 c hcap

end Sys2Proof.Machine
end

section
/-! PROOF. What a command can do, said once for all 28: the state it leaves and its response, with the guards that led
there. The frame of a command (10_state R33) and the invariants at rest (R29) are read off from it. -/

namespace Sys2Proof.Machine

/-! ### The results of the two Denc loops, from a state -/

/-- What `DN.DELTA` computes from buffer `b`: the delta bytes and the final `PREV` (43_denc R126). -/
def State.deltaOut (s : State) (b : BufId) : List Byte × List Byte :=
  deltaLoop s.bands 0 ((s.buf b).take (processed (s.buf b).length s.bands)) s.prev

/-- What `DN.CHECK` computes from buffer `b`: the final `PREV` and the first divergence (43_denc R127). -/
def State.checkOut (s : State) (b : BufId) : List Byte × Option Nat :=
  checkLoop s.bands 0 ((s.buf b).take (processed (s.buf b).length s.bands)) s.vb (List.replicate s.bands prevDefault)

theorem State.deltaOut_bytes_length (s : State) (b : BufId) :
    (s.deltaOut b).1.length = processed (s.buf b).length s.bands := by
  rw [State.deltaOut, (deltaLoop_length _ _ _ _).1, List.length_take, Nat.min_eq_left (processed_le _ _)]

theorem State.deltaOut_prev_length (s : State) (b : BufId) : (s.deltaOut b).2.length = s.prev.length :=
  (deltaLoop_length _ _ _ _).2

theorem State.checkOut_prev_length (s : State) (b : BufId) : (s.checkOut b).1.length = s.bands := by
  rw [State.checkOut, checkLoop_length, List.length_replicate]

/-! ### The effects -/

/-- `Effect s i t p`: from `s`, the command `i` may leave `t` (before the host has the response) and answer `p`. The
first two constructors write nothing; each of the others is a command that was carried out, under its guards. -/
inductive Effect (s : State) : Instr → State → Response → Prop where
  /-- The command is refused (60_exceptions R149). -/
  | refused (i : Instr) {e : Status} (he : e.refused = true) : Effect s i s ⟨e, 0⟩
  /-- The command is carried out and writes nothing. -/
  | observed (i : Instr) {p : Response} (hp : p.st.refused = false) : Effect s i s p
  | bsClear : Effect s .bsClear (s.replaceBuf .sb []) ⟨.ok, 0⟩
  | bsRewind : Effect s .bsRewind { s with cur := 0 } ⟨.ok, 0⟩
  | bsPush {value : BitVec 64} {n : BitVec 8} (hn : n.toNat ≤ maxBits) (hv : value.toNat < 2 ^ n.toNat)
      (hc : overCap s.cfg.capSB (s.lenAfterWrite n.toNat) = false) :
      Effect s (.bsPush value n)
        { s with sb := streamWrite s.sb s.cur n.toNat value.toNat, cur := s.cur + n.toNat } ⟨.ok, s.cur + n.toNat⟩
  | bsPull {n : BitVec 8} (hn : n.toNat ≤ maxBits) :
      Effect s (.bsPull n) { s with cur := s.cur + min n.toNat s.avail }
        ⟨Status.ofBool (decide (n.toNat ≤ s.avail)), streamRead s.sb s.cur (min n.toNat s.avail)⟩
  | bsGet (h : s.cur < 8 * s.sb.length) : Effect s .bsGet { s with cur := s.cur + 1 } ⟨.ok, (bitAt s.sb s.cur).toNat⟩
  | bmConfig {k : BitVec 4} {b : BankId} {width height : BitVec 32} (hk : bankOf k = some b)
      (hc : overCap s.cfg.tileCap (tileCount width height) = false) :
      Effect s (.bmConfig k width height)
        (s.setBank b ⟨width, height, List.replicate (tileCount width height) 0⟩) ⟨.ok, tileCount width height⟩
  | bmSet {k : BitVec 4} {b : BankId} {x y : BitVec 32} (hk : bankOf k = some b) (hr : (s.bank b).inRange x y = true) :
      Effect s (.bmSet k x y)
        (s.setBank b ((s.bank b).modifyTile (tileIndex (s.bank b).bw x y) (fun w => w ||| posMask (bitPos x y)))) ⟨.ok, 0⟩
  | bmClear {k : BitVec 4} {b : BankId} {x y : BitVec 32} (hk : bankOf k = some b)
      (hr : (s.bank b).inRange x y = true) :
      Effect s (.bmClear k x y)
        (s.setBank b ((s.bank b).modifyTile (tileIndex (s.bank b).bw x y) (fun w => w &&& ~~~ posMask (bitPos x y))))
        ⟨.ok, 0⟩
  | bmPack {k : BitVec 4} {b : BankId} (hk : bankOf k = some b)
      (hc : overCap s.cfg.capSB (s.lenAfterWrite (64 * (s.bank b).tiles.length)) = false) :
      Effect s (.bmPack k)
        { s with sb := packTiles s.sb s.cur (s.bank b).tiles, cur := s.cur + 64 * (s.bank b).tiles.length }
        ⟨.ok, 64 * (s.bank b).tiles.length⟩
  | bmUnpack {k : BitVec 4} {b : BankId} (hk : bankOf k = some b) (ha : 64 * (s.bank b).tiles.length ≤ s.avail) :
      Effect s (.bmUnpack k)
        { s.setBank b { s.bank b with tiles := unpackTiles s.sb s.cur (s.bank b).tiles.length } with
          cur := s.cur + 64 * (s.bank b).tiles.length }
        ⟨.ok, 64 * (s.bank b).tiles.length⟩
  | rlEnc {dst src : BitVec 4} {tgt frm : BufId} (hd : bufOf dst = some tgt) (hs : bufOf src = some frm)
      (hne : frm ≠ tgt) (hc : overCap (capOf s.cfg tgt) (rlEncode (s.buf frm)).length = false) :
      Effect s (.rlEnc dst src) (s.replaceBuf tgt (rlEncode (s.buf frm))) ⟨.ok, (rlEncode (s.buf frm)).length⟩
  | rlDec {dst src : BitVec 4} {tgt frm : BufId} (hd : bufOf dst = some tgt) (hs : bufOf src = some frm)
      (hne : frm ≠ tgt) (hw : rlWellFormed (s.buf frm) = true)
      (hc : overCap (capOf s.cfg tgt) (rlDecode (s.buf frm)).length = false) :
      Effect s (.rlDec dst src) (s.replaceBuf tgt (rlDecode (s.buf frm))) ⟨.ok, (rlDecode (s.buf frm)).length⟩
  | dnConfig {bands : BitVec 32} (h1 : 1 ≤ bands.toNat) (h2 : bands.toNat ≤ s.cfg.bandsMax) :
      Effect s (.dnConfig bands)
        { s with bands := bands.toNat, prev := List.replicate bands.toNat prevDefault, vb := [] } ⟨.ok, 0⟩
  | dnDelta {src : BitVec 4} {b : BufId} (hs : bufOf src = some b) (hne : b ≠ .vb)
      (hc : overCap s.cfg.capVB (s.vb ++ (s.deltaOut b).1).length = false) :
      Effect s (.dnDelta src) { s with vb := s.vb ++ (s.deltaOut b).1, prev := (s.deltaOut b).2 }
        ⟨.ok, processed (s.buf b).length s.bands⟩
  | dnCheck {src : BitVec 4} {b : BufId} {p : Response} (hs : bufOf src = some b) (hp : p.st.refused = false) :
      Effect s (.dnCheck src) { s with prev := (s.checkOut b).1 } p
  | dnRecode : Effect s .dnRecode { s with vb := s.vb.map recodeByte } ⟨.ok, s.vb.length⟩
  | bufClear {dst : BitVec 4} {b : BufId} (hd : bufOf dst = some b) :
      Effect s (.bufClear dst) (s.replaceBuf b []) ⟨.ok, 0⟩
  | bufAppend {dst : BitVec 4} {b : BufId} {byte : Byte} (hd : bufOf dst = some b)
      (hc : overCap (capOf s.cfg b) ((s.buf b).length + 1) = false) :
      Effect s (.bufAppend dst byte) (s.setBuf b (s.buf b ++ [byte])) ⟨.ok, (s.buf b).length + 1⟩

/-! ### Every command ends with an effect -/

/-- The outcome `o` of the command `i` in `s` is one of its effects, with the response delivered. -/
def Ends (s : State) (i : Instr) (o : Outcome) : Prop := ∃ t p, o = .next (t.deliver p) ∧ Effect s i t p

section
variable {s : State} {i : Instr}

theorem Ends.respond {t : State} {st : Status} {r : Nat} (h : Effect s i t ⟨st, r⟩) : Ends s i (t.respond st r) :=
  ⟨t, _, rfl, h⟩

theorem Ends.raise {e : Status} (he : e.refused = true := by rfl) : Ends s i (s.raise e) :=
  .respond (.refused i he)

theorem Ends.answer {st : Status} {r : Nat} (hst : st.refused = false := by rfl) : Ends s i (s.respond st r) :=
  .respond (.observed i hst)

theorem Ends.ite {c : Prop} [Decidable c] {a b : Outcome} (ha : c → Ends s i a) (hb : ¬ c → Ends s i b) :
    Ends s i (if c then a else b) := by
  split
  · exact ha ‹_›
  · exact hb ‹_›

/-- The check of a capacity (20_memory R51). -/
theorem Ends.unlessOverCap {cap : Option Nat} {n : Nat} {o : Outcome} (h : overCap cap n = false → Ends s i o) :
    Ends s i (if overCap cap n then s.raise .eCapacity else o) :=
  .ite (fun _ => .raise) (fun hc => h (Bool.eq_false_of_not_eq_true hc))

theorem Ends.withBank {k : BitVec 4} {f : BankId → Outcome} (h : ∀ b, bankOf k = some b → Ends s i (f b)) :
    Ends s i (withBank s k f) := by
  cases hk : bankOf k with
  | none => rw [withBank_of_none hk]; exact .raise
  | some b => rw [withBank_of_some hk]; exact h b hk

theorem Ends.withBuf {k : BitVec 4} {f : BufId → Outcome} (h : ∀ b, bufOf k = some b → Ends s i (f b)) :
    Ends s i (withBuf s k f) := by
  cases hk : bufOf k with
  | none => rw [withBuf_of_none hk]; exact .raise
  | some b => rw [withBuf_of_some hk]; exact h b hk

theorem Ends.withPoint {k : BitVec 4} {x y : BitVec 32} {f : BankId → Outcome}
    (h : ∀ b, bankOf k = some b → (s.bank b).inRange x y = true → Ends s i (f b)) : Ends s i (withPoint s k x y f) :=
  .withBank fun b hk => .ite (h b hk) fun _ => .raise

end

theorem execBsPush_ends (value : BitVec 64) (n : BitVec 8) (s : State) :
    Ends s (.bsPush value n) (execBsPush value n s) :=
  .ite (fun _ => .raise) fun hn => .ite (fun _ => .raise) fun hv => .unlessOverCap fun hc =>
    .respond (.bsPush (Nat.not_lt.1 hn) (Nat.not_le.1 hv) hc)

theorem execRlDec_ends (dst src : BitVec 4) (s : State) : Ends s (.rlDec dst src) (execRlDec dst src s) :=
  .withBuf fun _ hd => .withBuf fun frm hs => .ite (fun _ => .raise) fun hne => .ite (fun _ => .raise) fun hw =>
    .unlessOverCap fun hc =>
      .respond (.rlDec hd hs hne (Bool.eq_true_of_not_eq_false hw) (rlTotal_eq (s.buf frm) ▸ hc))

theorem execDnConfig_ends (bands : BitVec 32) (s : State) : Ends s (.dnConfig bands) (execDnConfig bands s) :=
  .ite (fun _ => .raise) fun h => .respond (.dnConfig (by omega) (by omega))

theorem execDnDelta_ends (src : BitVec 4) (s : State) : Ends s (.dnDelta src) (execDnDelta src s) :=
  .withBuf fun b hs => .ite (fun _ => .raise) fun hne => .unlessOverCap fun hc =>
    .respond (.dnDelta hs hne (by rw [List.length_append, State.deltaOut_bytes_length]; exact hc))

theorem execDnCheck_ends (src : BitVec 4) (s : State) : Ends s (.dnCheck src) (execDnCheck src s) := by
  refine .withBuf fun b hs => ?_
  dsimp only
  split
  · exact .respond (.dnCheck hs rfl)
  · exact .respond (.dnCheck hs rfl)

theorem execBmRdtile_ends (k : BitVec 4) (j : BitVec 64) (s : State) :
    Ends s (.bmRdtile k j) (execBmRdtile k j s) := by
  refine .withBank fun b _ => ?_
  split
  · exact .raise
  · exact .answer

theorem execBufRead_ends (src : BitVec 4) (index : BitVec 64) (s : State) :
    Ends s (.bufRead src index) (execBufRead src index s) := by
  refine .withBuf fun b _ => ?_
  split
  · exact .raise
  · exact .answer

/-- Every command, in every state, ends with one of its effects: it never stops the machine. -/
theorem exec_ends (i : Instr) (s : State) : Ends s i (exec i s) := by
  cases i with
  | sysNop => exact .answer
  | bsClear => exact .respond .bsClear
  | bsRewind => exact .respond .bsRewind
  | bsPush value n => exact execBsPush_ends value n s
  | bsPull n => exact .ite (fun _ => .raise) fun hn => .respond (.bsPull (Nat.not_lt.1 hn))
  | bsGet => exact .ite (fun h => .respond (.bsGet h)) fun _ => .answer
  | bsTell => exact .answer
  | bmConfig k width height => exact .withBank fun _ hk => .unlessOverCap fun hc => .respond (.bmConfig hk hc)
  | bmBit k x y => exact .withPoint fun _ _ _ => .answer
  | bmSet k x y => exact .withPoint fun _ hk hr => .respond (.bmSet hk hr)
  | bmClear k x y => exact .withPoint fun _ hk hr => .respond (.bmClear hk hr)
  | bmDsize k => exact .withBank fun _ _ => .answer
  | bmGetsize k => exact .withBank fun _ _ => .answer
  | bmCmp a b => exact .withBank fun _ _ => .withBank fun _ _ => .ite (fun _ => .answer) fun _ => .answer
  | bmPack k => exact .withBank fun _ hk => .unlessOverCap fun hc => .respond (.bmPack hk hc)
  | bmUnpack k =>
    exact .withBank fun _ hk => .ite (fun _ => .raise) fun ha => .respond (.bmUnpack hk (Nat.not_lt.1 ha))
  | bmRdtile k j => exact execBmRdtile_ends k j s
  | rlEnc dst src =>
    exact .withBuf fun _ hd => .withBuf fun _ hs => .ite (fun _ => .raise) fun hne => .unlessOverCap fun hc =>
      .respond (.rlEnc hd hs hne hc)
  | rlDec dst src => exact execRlDec_ends dst src s
  | dnConfig bands => exact execDnConfig_ends bands s
  | dnDelta src => exact execDnDelta_ends src s
  | dnCheck src => exact execDnCheck_ends src s
  | dnRecode => exact .respond .dnRecode
  | dnRdprev c => exact .ite (fun _ => .raise) fun _ => .answer
  | bufClear dst => exact .withBuf fun _ hd => .respond (.bufClear hd)
  | bufAppend dst byte => exact .withBuf fun _ hd => .unlessOverCap fun hc => .respond (.bufAppend hd hc)
  | bufRead src index => exact execBufRead_ends src index s
  | bufLen src => exact .withBuf fun _ _ => .answer

/-- The inversion of `exec`. -/
theorem exec_cases {i : Instr} {s t : State} (h : exec i s = .next t) : ∃ u p, t = u.deliver p ∧ Effect s i u p := by
  obtain ⟨u, p, heq, heff⟩ := exec_ends i s
  exact ⟨u, p, by simpa [h] using heq, heff⟩

end Sys2Proof.Machine
end

section
/-! PROOF. The frame of a command: it changes only the pieces of its row in the table of 10_state R33. -/

namespace Sys2Proof.Machine

/-- From `s` to `t` only pieces listed in `ws` changed, and nothing of the host's side or of the parameters. -/
structure Frame (ws : List Piece) (s t : State) : Prop where
  cfg : t.cfg = s.cfg
  inbox : t.inbox = s.inbox
  rsps : t.rsps = s.rsps
  buf : ∀ b, .buf b ∉ ws → t.buf b = s.buf b
  cur : .cur ∉ ws → t.cur = s.cur
  dims : ∀ k, .dims k ∉ ws → (t.bank k).bw = (s.bank k).bw ∧ (t.bank k).bh = (s.bank k).bh
  tiles : ∀ k, .tiles k ∉ ws → (t.bank k).tiles = (s.bank k).tiles
  bands : .bands ∉ ws → t.bands = s.bands
  prev : .prev ∉ ws → t.prev = s.prev

namespace Frame
variable {ws : List Piece} {s t u : State}

theorem refl (ws : List Piece) (s : State) : Frame ws s s :=
  ⟨rfl, rfl, rfl, fun _ _ => rfl, fun _ => rfl, fun _ _ => ⟨rfl, rfl⟩, fun _ _ => rfl, fun _ => rfl, fun _ => rfl⟩

theorem trans (h : Frame ws s t) (h' : Frame ws t u) : Frame ws s u where
  cfg := h'.cfg.trans h.cfg
  inbox := h'.inbox.trans h.inbox
  rsps := h'.rsps.trans h.rsps
  buf b hb := (h'.buf b hb).trans (h.buf b hb)
  cur hc := (h'.cur hc).trans (h.cur hc)
  dims k hk := ⟨(h'.dims k hk).1.trans (h.dims k hk).1, (h'.dims k hk).2.trans (h.dims k hk).2⟩
  tiles k hk := (h'.tiles k hk).trans (h.tiles k hk)
  bands hb := (h'.bands hb).trans (h.bands hb)
  prev hp := (h'.prev hp).trans (h.prev hp)

/-! ### One lemma for each named update -/

/-- The three pieces that are not storage of bytes or tiles, each kept or listed. -/
theorem setRegs {c bands : Nat} {prev : List Byte} (hc : .cur ∉ ws → c = s.cur) (hb : .bands ∉ ws → bands = s.bands)
    (hp : .prev ∉ ws → prev = s.prev) : Frame ws s { s with cur := c, bands := bands, prev := prev } where
  cfg := rfl
  inbox := rfl
  rsps := rfl
  buf b _ := by cases b <;> rfl
  cur := hc
  dims k _ := by cases k <;> exact ⟨rfl, rfl⟩
  tiles k _ := by cases k <;> rfl
  bands := hb
  prev := hp

theorem setCur (h : .cur ∈ ws) (c : Nat) : Frame ws s { s with cur := c } :=
  setRegs (absurd h) (fun _ => rfl) (fun _ => rfl)

theorem setPrev (h : .prev ∈ ws) (prev : List Byte) : Frame ws s { s with prev := prev } :=
  setRegs (fun _ => rfl) (fun _ => rfl) (absurd h)

theorem setBuf {b : BufId} (h : .buf b ∈ ws) (bytes : List Byte) : Frame ws s (s.setBuf b bytes) where
  cfg := by simp
  inbox := by simp
  rsps := by simp
  buf c hc := State.setBuf_buf_other _ _ _ _ fun e => hc (e ▸ h)
  cur _ := by simp
  dims _ _ := by simp
  tiles _ _ := by simp
  bands _ := by simp
  prev _ := by simp

/-- A buffer replaced whole, with the cursor when it is `SB` (20_memory R52). -/
theorem replaceBuf {b : BufId} (h : ∀ p ∈ bufAndCursor b, p ∈ ws) (bytes : List Byte) :
    Frame ws s (s.replaceBuf b bytes) := by
  cases b with
  | sb => exact (setBuf (b := .sb) (h _ (by decide)) bytes).trans (setCur (h _ (by decide)) 0)
  | ib => exact setBuf (b := .ib) (h _ (by decide)) bytes
  | ob => exact setBuf (b := .ob) (h _ (by decide)) bytes
  | vb => exact setBuf (b := .vb) (h _ (by decide)) bytes

/-- A bank replaced; its dimensions are listed too, or kept. -/
theorem setBank {k : BankId} {m : Bank} (ht : .tiles k ∈ ws)
    (hd : .dims k ∉ ws → m.bw = (s.bank k).bw ∧ m.bh = (s.bank k).bh) : Frame ws s (s.setBank k m) where
  cfg := by simp
  inbox := by simp
  rsps := by simp
  buf _ _ := by simp
  cur _ := by simp
  dims j hj := by
    by_cases e : j = k
    · subst e; simpa using hd hj
    · rw [State.setBank_bank_other _ _ _ _ e]; exact ⟨rfl, rfl⟩
  tiles j hj := by
    have e : j ≠ k := fun e => hj (e.symm ▸ ht)
    rw [State.setBank_bank_other _ _ _ _ e]
  bands _ := by simp
  prev _ := by simp

end Frame

/-! ### What a row of the table lists, where its id names something -/

theorem bankPieces_of_some {k : BitVec 4} {b : BankId} (h : bankOf k = some b) (f : BankId → List Piece) :
    bankPieces k f = f b := by simp [bankPieces, h]

theorem bufPieces_of_some {k : BitVec 4} {b : BufId} (h : bufOf k = some b) (f : BufId → List Piece) :
    bufPieces k f = f b := by simp [bufPieces, h]

/-! ### Every effect stays in its row -/

theorem Effect.frame {i : Instr} {s t : State} {p : Response} (h : Effect s i t p) : Frame (writesOf i) s t := by
  cases h with
  | refused | observed => exact .refl _ s
  | bsClear => exact .replaceBuf (by simp [writesOf, bufAndCursor]) []
  | bsRewind => exact .setCur (by simp [writesOf]) 0
  | bsPush => exact (Frame.setBuf (b := .sb) (by simp [writesOf]) _).trans (.setCur (by simp [writesOf]) _)
  | bsPull => exact .setCur (by simp [writesOf]) _
  | bsGet => exact .setCur (by simp [writesOf]) _
  | bmConfig hk =>
    exact .setBank (by simp [writesOf, bankPieces_of_some hk]) (absurd (by simp [writesOf, bankPieces_of_some hk]))
  | bmSet hk | bmClear hk =>
    exact .setBank (by simp [writesOf, bankPieces_of_some hk]) fun _ => ⟨rfl, rfl⟩
  | bmPack => exact (Frame.setBuf (b := .sb) (by simp [writesOf]) _).trans (.setCur (by simp [writesOf]) _)
  | @bmUnpack k b hk =>
    have hcur : .cur ∈ writesOf (.bmUnpack k) := by simp [writesOf, bankPieces_of_some hk]
    have hbank (tiles : List Tile) : Frame (writesOf (.bmUnpack k)) s (s.setBank b { s.bank b with tiles := tiles }) :=
      .setBank (by simp [writesOf, bankPieces_of_some hk]) fun _ => ⟨rfl, rfl⟩
    exact (hbank _).trans (.setCur hcur _)
  | rlEnc hd | rlDec hd => exact .replaceBuf (by simp [writesOf, bufPieces_of_some hd]) _
  | @dnConfig bands =>
    have hvb : Frame (writesOf (.dnConfig bands)) s (s.setBuf .vb []) := .setBuf (by simp [writesOf]) []
    exact hvb.trans (.setRegs (fun _ => rfl) (absurd (by simp [writesOf])) (absurd (by simp [writesOf])))
  | @dnDelta src b =>
    have hprev : .prev ∈ writesOf (.dnDelta src) := by simp [writesOf]
    exact (Frame.setBuf (b := .vb) (by simp [writesOf]) (s.vb ++ (s.deltaOut b).1)).trans (.setPrev hprev _)
  | dnCheck => exact .setPrev (by simp [writesOf]) _
  | dnRecode => exact .setBuf (b := .vb) (by simp [writesOf]) _
  | bufClear hd => exact .replaceBuf (by simp [writesOf, bufPieces_of_some hd]) []
  | bufAppend hd => exact .setBuf (by simp [writesOf, bufPieces_of_some hd]) _

/-- Settles O16: every effect stays in its row, and the delivery of the response touches none of the pieces. -/
theorem writesOnlyItsRow : Obligations.WritesOnlyItsRow := by
  intro i s t h
  obtain ⟨u, p, rfl, heff⟩ := exec_cases h
  have f := heff.frame
  simp only [State.deliver_cfg, State.deliver_inbox, State.deliver_buf, State.deliver_cur, State.deliver_bank,
    State.deliver_bands, State.deliver_prev]
  exact ⟨f.cfg, f.inbox, f.buf, f.cur, f.dims, f.tiles, f.bands, f.prev⟩

end Sys2Proof.Machine
end

section
/-! PROOF. The invariants at rest (10_state R29): the reset state has them, and every step keeps them. -/

namespace Sys2Proof.Machine

/-! ### Lengths after a write at the cursor -/

theorem le_eight_mul_ceil8 (a : Nat) : a ≤ 8 * ceil8 a := by unfold ceil8; omega

/-- The cursor after a write of `n` bits lies inside the stream after it (40_bitstream R79). -/
theorem cur_add_le_lenAfterWrite (s : State) (n : Nat) : s.cur + n ≤ 8 * s.lenAfterWrite n :=
  (le_eight_mul_ceil8 _).trans (Nat.mul_le_mul_left 8 (Nat.le_max_right ..))

/-! ### Each update keeps the invariants -/

namespace AtRest
variable {s : State}

theorem deliver (h : AtRest s) (p : Response) : AtRest (s.deliver p) := h

theorem setInbox (h : AtRest s) (events : List HostEvent) : AtRest { s with inbox := events } := h

theorem setCur (h : AtRest s) {c : Nat} (hc : c ≤ 8 * s.sb.length) : AtRest { s with cur := c } := by
  obtain ⟨hcfg, -, hmem, hbands⟩ := h
  exact ⟨hcfg, hc, Memory.wf_setCur hmem c, hbands⟩

/-- A buffer that does not get shorter and fits: the cursor stays inside the stream. -/
theorem setBuf (h : AtRest s) {b : BufId} {bytes : List Byte} (hl : (s.buf b).length ≤ bytes.length)
    (hc : overCap (capOf s.cfg b) bytes.length = false) : AtRest (s.setBuf b bytes) := by
  obtain ⟨hcfg, hcur, hmem, hbands⟩ := h
  refine ⟨by simpa using hcfg, ?_, Memory.wf_setBuf hmem hc, by simpa using hbands⟩
  cases b with
  | sb => exact hcur.trans (Nat.mul_le_mul_left 8 hl)
  | ib | ob | vb => exact hcur

/-- A buffer replaced whole: the cursor of a new stream is 0 (20_memory R52). -/
theorem replaceBuf (h : AtRest s) {b : BufId} {bytes : List Byte}
    (hc : overCap (capOf s.cfg b) bytes.length = false) : AtRest (s.replaceBuf b bytes) := by
  obtain ⟨hcfg, hcur, hmem, hbands⟩ := h
  refine ⟨by simpa using hcfg, ?_, Memory.wf_replaceBuf hmem hc, by simpa using hbands⟩
  cases b with
  | sb => exact Nat.zero_le _
  | ib | ob | vb => exact hcur

/-- A write of `n` bits at the cursor that fits, with the cursor moved to its end. -/
theorem writeStream (h : AtRest s) {n : Nat} {bytes : List Byte} (hl : bytes.length = s.lenAfterWrite n)
    (hc : overCap s.cfg.capSB (s.lenAfterWrite n) = false) : AtRest { s with sb := bytes, cur := s.cur + n } := by
  have hgrow : AtRest (s.setBuf .sb bytes) := h.setBuf (by rw [hl]; exact Nat.le_max_left ..) (by rw [hl]; exact hc)
  exact hgrow.setCur (by rw [State.setBuf_sb_sb, hl]; exact cur_add_le_lenAfterWrite s n)

theorem setBank (h : AtRest s) {k : BankId} {m : Bank} (hm : m.wf s.cfg = true) : AtRest (s.setBank k m) := by
  obtain ⟨hcfg, hcur, hmem, hbands⟩ := h
  exact ⟨by simpa using hcfg, by simpa using hcur, Memory.wf_setBank hmem hm, by simpa using hbands⟩

theorem setDenc (h : AtRest s) {bands : Nat} {prev vb : List Byte} (h1 : 1 ≤ bands) (h2 : bands ≤ s.cfg.bandsMax)
    (hp : prev.length = bands) (hc : overCap s.cfg.capVB vb.length = false) :
    AtRest { s with bands := bands, prev := prev, vb := vb } := by
  obtain ⟨hcfg, hcur, hmem, -, -⟩ := h
  exact ⟨hcfg, hcur, Memory.wf_setDenc hmem hp hc, h1, h2⟩

/-- `PREV` and `VB` written, `BANDS` kept. -/
theorem setPrevVb (h : AtRest s) {prev vb : List Byte} (hp : prev.length = s.bands)
    (hc : overCap s.cfg.capVB vb.length = false) : AtRest { s with prev := prev, vb := vb } := by
  have ⟨_, _, _, h1, h2⟩ := h
  exact h.setDenc h1 h2 hp hc

/-- Reset needs nothing of the state before it but legal parameters (70_reset R173). -/
theorem applyReset (h : s.cfg.wf) : AtRest s.applyReset := by
  have ⟨hmin, _⟩ := h
  exact ⟨h, Nat.zero_le _, Memory.wf_applyReset s, Nat.le_refl 1, hmin⟩

/-! ### What the invariants say about single pieces -/

theorem buf_fits (h : AtRest s) (b : BufId) : overCap (capOf s.cfg b) (s.buf b).length = false := by
  obtain ⟨-, -, hmem, -⟩ := h
  obtain ⟨hfits, -, -⟩ := (Memory.wf_iff s).1 hmem
  exact hfits b

theorem bank_wf (h : AtRest s) (k : BankId) : (s.bank k).wf s.cfg = true := by
  obtain ⟨-, -, hmem, -⟩ := h
  obtain ⟨-, hbanks, -⟩ := (Memory.wf_iff s).1 hmem
  exact hbanks k

theorem prev_length (h : AtRest s) : s.prev.length = s.bands := by
  obtain ⟨-, -, hmem, -⟩ := h
  obtain ⟨-, -, hprev⟩ := (Memory.wf_iff s).1 hmem
  exact hprev

/-- Bits that are available lie inside the stream (40_bitstream R80). -/
theorem cur_add_le (h : AtRest s) {n : Nat} (hn : n ≤ s.avail) : s.cur + n ≤ 8 * s.sb.length := by
  obtain ⟨-, hcur, -⟩ := h
  unfold State.avail at hn
  omega

end AtRest

/-! ### Every effect keeps the invariants -/

theorem Effect.atRest {i : Instr} {s t : State} {p : Response} (h : Effect s i t p) (hs : AtRest s) : AtRest t := by
  have ⟨_, hcur, _⟩ := hs
  cases h with
  | refused | observed => exact hs
  | bsClear => exact hs.replaceBuf (overCap_zero _)
  | bsRewind => exact hs.setCur (Nat.zero_le _)
  | bsPush _ _ hc => exact hs.writeStream (streamWrite_length _ _ _ _ hcur) hc
  | bsPull => exact hs.setCur (hs.cur_add_le (Nat.min_le_right ..))
  | bsGet hlt => exact hs.setCur hlt
  | bmConfig _ hc => exact hs.setBank (Bank.wf_configured hc)
  | bmSet | bmClear => exact hs.setBank (Bank.wf_modifyTile (hs.bank_wf _) _ _)
  | bmPack _ hc => exact hs.writeStream (packTiles_length _ _ _ hcur) hc
  | @bmUnpack _ b _ ha =>
    have htiles := hs.setBank (k := b) (Bank.wf_setTiles (hs.bank_wf b) (unpackTiles_length s.sb s.cur _))
    exact htiles.setCur (by simpa using hs.cur_add_le ha)
  | rlEnc _ _ _ hc => exact hs.replaceBuf hc
  | rlDec _ _ _ _ hc => exact hs.replaceBuf hc
  | dnConfig h1 h2 => exact hs.setDenc h1 h2 List.length_replicate (overCap_zero _)
  | dnDelta _ _ hc => exact hs.setPrevVb ((s.deltaOut_prev_length _).trans hs.prev_length) hc
  | dnCheck => exact hs.setPrevVb (s.checkOut_prev_length _) (hs.buf_fits .vb)
  | dnRecode => exact hs.setPrevVb hs.prev_length (by rw [List.length_map]; exact hs.buf_fits .vb)
  | bufClear => exact hs.replaceBuf (overCap_zero _)
  | bufAppend _ hc => exact hs.setBuf (by simp) (by simpa using hc)

theorem exec_atRest {i : Instr} {s t : State} (h : exec i s = .next t) (hs : AtRest s) : AtRest t := by
  obtain ⟨u, p, rfl, heff⟩ := exec_cases h
  exact (heff.atRest hs).deliver p

theorem execWord_atRest {w : CmdWord} {s t : State} (h : execWord w s = .next t) (hs : AtRest s) : AtRest t := by
  unfold execWord at h
  split at h
  · exact exec_atRest h hs
  · obtain rfl := Host.Outcome.next.inj h
    exact hs.deliver _

/-- Settles O7: an idle step changes nothing, a reset needs legal parameters only, and a command has one of the effects
that keep the invariants. -/
theorem stepKeepsInvariants : Obligations.StepKeepsInvariants := by
  intro s t hs h
  unfold step at h
  split at h
  next => exact Host.Outcome.next.inj h ▸ hs
  next rest _ =>
    have ⟨hcfg, _⟩ := hs
    exact Host.Outcome.next.inj h ▸ AtRest.applyReset (s := { s with inbox := rest }) hcfg
  next rest _ => exact execWord_atRest h (hs.setInbox rest)

/-- The parameters that match the source are legal (00_scope R6, R7). -/
theorem Config.wf_unbounded : Config.unbounded.wf := by decide

/-- Settles O8: the reset state is what reset leaves under the parameters that match the source. -/
theorem resetHasInvariants : Obligations.ResetHasInvariants := AtRest.applyReset (s := State.reset) Config.wf_unbounded

/-- Settles O10: every element of the table is a field of the reset state; the bank element holds for both banks. -/
theorem resetLeavesTheTable : Obligations.ResetLeavesTheTable := by
  refine ⟨rfl, rfl, rfl, rfl, rfl, fun k => ?_, rfl, rfl⟩
  cases k with
  | m0 => exact ⟨rfl, rfl, rfl⟩
  | m1 => exact ⟨rfl, rfl, rfl⟩

end Sys2Proof.Machine
end

section
/-! PROOF. A command reads only its row (10_state R33, 42_rle R119): the command run in two states that agree on the
row. -/

namespace Sys2Proof.Machine

/-! ### A row whose id names something -/

theorem forall_mem_bankPieces {k : BitVec 4} {b : BankId} (hk : bankOf k = some b) {f : BankId → List Piece}
    {q : Piece → Prop} (h : ∀ p ∈ bankPieces k f, q p) : ∀ p ∈ f b, q p := bankPieces_of_some hk f ▸ h

theorem forall_mem_bufPieces {k : BitVec 4} {b : BufId} (hk : bufOf k = some b) {f : BufId → List Piece}
    {q : Piece → Prop} (h : ∀ p ∈ bufPieces k f, q p) : ∀ p ∈ f b, q p := bufPieces_of_some hk f ▸ h

/-- A bank whose dimensions and tiles are both in the row is the same bank. -/
theorem bank_eq_of_row {s t : State} {k : BitVec 4} (hr : ∀ p ∈ bankPieces k fun b => [.dims b, .tiles b], sameAt s t p)
    (b : BankId) (hk : bankOf k = some b) : s.bank b = t.bank b := by
  have hb := forall_mem_bankPieces hk hr
  obtain ⟨hw, hh⟩ : sameAt s t (.dims b) := hb (.dims b) (by simp)
  have ht : (s.bank b).tiles = (t.bank b).tiles := hb (.tiles b) (by simp)
  exact (Bank.mk.injEq ..).mpr ⟨hw, hh, ht⟩

/-- A buffer that is in the row is the same buffer. -/
theorem buf_eq_of_row {s t : State} {k : BitVec 4} (hr : ∀ p ∈ bufPieces k fun b => [.buf b], sameAt s t p)
    (b : BufId) (hk : bufOf k = some b) : s.buf b = t.buf b := forall_mem_bufPieces hk hr (.buf b) (by simp)

/-- A tile array that is in the row is the same array. -/
theorem tiles_eq_of_row {s t : State} {k : BitVec 4} (hr : ∀ p ∈ bankPieces k fun b => [.tiles b], sameAt s t p)
    (b : BankId) (hk : bankOf k = some b) : (s.bank b).tiles = (t.bank b).tiles :=
  forall_mem_bankPieces hk hr (.tiles b) (by simp)

/-! ### Two outcomes of one command -/

/-- After the command `i` was carried out in `s` and in `t`, the states `s'` and `t'` agree on all it writes (where it
only adds to a piece, if `s` and `t` agreed there). -/
def AgreeOnWrites (i : Instr) (s t s' t' : State) : Prop :=
  ∀ p ∈ writesOf i, (p ∈ extendsOf i → sameAt s t p) → sameAt s' t' p

/-- The outcomes `o` and `o'` of the command `i` in `s` and in `t` have one response, and agree on what `i` writes when
it was carried out. -/
def Agree (i : Instr) (s t : State) (o o' : Outcome) : Prop :=
  ∃ s' t' r, o = .next (s'.deliver r) ∧ o' = .next (t'.deliver r) ∧
    (r.st.refused = false → AgreeOnWrites i s t s' t')

section
variable {i : Instr} {s t : State}

theorem Agree.respond {s' t' : State} {st : Status} {r : Nat} (h : AgreeOnWrites i s t s' t') :
    Agree i s t (s'.respond st r) (t'.respond st r) := ⟨s', t', _, rfl, rfl, fun _ => h⟩

theorem Agree.raise {e : Status} (he : e.refused = true := by rfl) : Agree i s t (s.raise e) (t.raise e) :=
  ⟨s, t, _, rfl, rfl, fun hok => by simp [he] at hok⟩

/-- A command whose row writes nothing. -/
theorem Agree.answer {st : Status} {r : Nat} (hw : writesOf i = [] := by rfl) :
    Agree i s t (s.respond st r) (t.respond st r) :=
  .respond fun p hp => absurd hp (by simp [hw])

theorem Agree.ite {c : Prop} [Decidable c] {a b a' b' : Outcome} (h : Agree i s t a a') (h' : Agree i s t b b') :
    Agree i s t (if c then a else b) (if c then a' else b') := by
  split
  · exact h
  · exact h'

theorem Agree.withBank {k : BitVec 4} {f g : BankId → Outcome} (h : ∀ b, bankOf k = some b → Agree i s t (f b) (g b)) :
    Agree i s t (withBank s k f) (withBank t k g) := by
  cases hk : bankOf k with
  | none => rw [withBank_of_none hk, withBank_of_none hk]; exact .raise
  | some b => rw [withBank_of_some hk, withBank_of_some hk]; exact h b hk

theorem Agree.withBuf {k : BitVec 4} {f g : BufId → Outcome} (h : ∀ b, bufOf k = some b → Agree i s t (f b) (g b)) :
    Agree i s t (withBuf s k f) (withBuf t k g) := by
  cases hk : bufOf k with
  | none => rw [withBuf_of_none hk, withBuf_of_none hk]; exact .raise
  | some b => rw [withBuf_of_some hk, withBuf_of_some hk]; exact h b hk

/-- Coordinates are checked against a bank that is the same in both states. -/
theorem Agree.withPoint {k : BitVec 4} {x y : BitVec 32} {f g : BankId → Outcome}
    (hsame : ∀ b, bankOf k = some b → s.bank b = t.bank b) (h : ∀ b, bankOf k = some b → Agree i s t (f b) (g b)) :
    Agree i s t (withPoint s k x y f) (withPoint t k x y g) :=
  .withBank fun b hk => by rw [hsame b hk]; exact .ite (h b hk) .raise

end

/-! ### Agreement after the writes -/

/-- The written pieces are the same whatever stood there before. -/
theorem AgreeOnWrites.of_same {i : Instr} {s t s' t' : State} (h : ∀ p ∈ writesOf i, sameAt s' t' p) :
    AgreeOnWrites i s t s' t' := fun p hp _ => h p hp

theorem sameAt_replaceBuf (s t : State) (b : BufId) (bytes : List Byte) :
    ∀ p ∈ bufAndCursor b, sameAt (s.replaceBuf b bytes) (t.replaceBuf b bytes) p := by
  cases b <;> simp [bufAndCursor, sameAt]

/-! ### The commands, each in two states that agree on its row -/

section
variable {s t : State}

theorem execBsPush_agree (value : BitVec 64) (n : BitVec 8) (hcfg : s.cfg = t.cfg) (hsb : s.sb = t.sb)
    (hcur : s.cur = t.cur) : Agree (.bsPush value n) s t (execBsPush value n s) (execBsPush value n t) := by
  simp only [execBsPush, State.lenAfterWrite, hcfg, hsb, hcur]
  exact .ite .raise (.ite .raise (.ite .raise (.respond (.of_same (by simp [writesOf, sameAt])))))

theorem execBsPull_agree (n : BitVec 8) (hsb : s.sb = t.sb) (hcur : s.cur = t.cur) :
    Agree (.bsPull n) s t (execBsPull n s) (execBsPull n t) := by
  simp only [execBsPull, State.avail, hsb, hcur]
  exact .ite .raise (.respond (.of_same (by simp [writesOf, sameAt])))

theorem execBsGet_agree (hsb : s.sb = t.sb) (hcur : s.cur = t.cur) :
    Agree .bsGet s t (execBsGet s) (execBsGet t) := by
  simp only [execBsGet, hsb, hcur]
  exact .ite (.respond (.of_same (by simp [writesOf, sameAt]))) (.respond (.of_same (by simp [writesOf, sameAt, hcur])))

theorem execBmConfig_agree (k : BitVec 4) (width height : BitVec 32) (hcfg : s.cfg = t.cfg) :
    Agree (.bmConfig k width height) s t (execBmConfig k width height s) (execBmConfig k width height t) := by
  refine .withBank fun b hk => ?_
  simp only [hcfg]
  exact .ite .raise (.respond (.of_same (by simp [writesOf, bankPieces_of_some hk, sameAt])))

theorem execBmBit_agree (k : BitVec 4) (x y : BitVec 32) (hr : ∀ b, bankOf k = some b → s.bank b = t.bank b) :
    Agree (.bmBit k x y) s t (execBmBit k x y s) (execBmBit k x y t) :=
  .withPoint hr fun b hk => by rw [hr b hk]; exact .answer

theorem execBmDsize_agree (k : BitVec 4)
    (hr : ∀ b, bankOf k = some b → (s.bank b).tiles.length = (t.bank b).tiles.length) :
    Agree (.bmDsize k) s t (execBmDsize k s) (execBmDsize k t) :=
  .withBank fun b hk => by rw [hr b hk]; exact .answer

theorem execBmGetsize_agree (k : BitVec 4)
    (hr : ∀ b, bankOf k = some b → (s.bank b).bw = (t.bank b).bw ∧ (s.bank b).bh = (t.bank b).bh) :
    Agree (.bmGetsize k) s t (execBmGetsize k s) (execBmGetsize k t) := by
  refine .withBank fun b hk => ?_
  obtain ⟨hw, hh⟩ := hr b hk
  rw [hw, hh]
  exact .answer

/-- `BM.SET` and `BM.CLEAR` (41_bmap R95, R96): one tile word of the named bank goes through `f`. -/
theorem modifyPoint_agree {i : Instr} {k : BitVec 4} {x y : BitVec 32} {f : Tile → Tile}
    (hw : writesOf i = bankPieces k fun b => [.tiles b]) (hsame : ∀ b, bankOf k = some b → s.bank b = t.bank b) :
    Agree i s t
      (withPoint s k x y fun b =>
        (s.setBank b ((s.bank b).modifyTile (tileIndex (s.bank b).bw x y) f)).respond .ok 0)
      (withPoint t k x y fun b =>
        (t.setBank b ((t.bank b).modifyTile (tileIndex (t.bank b).bw x y) f)).respond .ok 0) := by
  refine .withPoint hsame fun b hk => ?_
  rw [hsame b hk]
  exact .respond (.of_same (by simp [hw, bankPieces_of_some hk, sameAt]))

theorem execBmPack_agree (k : BitVec 4) (hcfg : s.cfg = t.cfg)
    (hr : ∀ b, bankOf k = some b → (s.bank b).tiles = (t.bank b).tiles ∧ s.sb = t.sb ∧ s.cur = t.cur) :
    Agree (.bmPack k) s t (execBmPack k s) (execBmPack k t) := by
  refine .withBank fun b hk => ?_
  obtain ⟨htiles, hsb, hcur⟩ := hr b hk
  simp only [State.lenAfterWrite, hcfg, htiles, hsb, hcur]
  exact .ite .raise (.respond (.of_same (by simp [writesOf, sameAt])))

theorem execBmUnpack_agree (k : BitVec 4)
    (hr : ∀ b, bankOf k = some b →
      s.sb = t.sb ∧ s.cur = t.cur ∧ (s.bank b).tiles.length = (t.bank b).tiles.length) :
    Agree (.bmUnpack k) s t (execBmUnpack k s) (execBmUnpack k t) := by
  refine .withBank fun b hk => ?_
  obtain ⟨hsb, hcur, hlen⟩ := hr b hk
  simp only [State.avail, hsb, hcur, hlen]
  refine .ite .raise (.respond (.of_same ?_))
  cases b <;> simp [writesOf, bankPieces_of_some hk, sameAt]

theorem execBmRdtile_agree (k : BitVec 4) (j : BitVec 64)
    (hr : ∀ b, bankOf k = some b → (s.bank b).tiles = (t.bank b).tiles) :
    Agree (.bmRdtile k j) s t (execBmRdtile k j s) (execBmRdtile k j t) := by
  refine .withBank fun b hk => ?_
  rw [hr b hk]
  split
  · exact .raise
  · exact .answer

theorem execBmCmp_agree (a b : BitVec 4) (ha : ∀ x, bankOf a = some x → (s.bank x).tiles = (t.bank x).tiles)
    (hb : ∀ x, bankOf b = some x → (s.bank x).tiles = (t.bank x).tiles) :
    Agree (.bmCmp a b) s t (execBmCmp a b s) (execBmCmp a b t) := by
  refine .withBank fun x hx => .withBank fun y hy => ?_
  rw [ha x hx, hb y hy]
  exact .ite .answer .answer

theorem execRlEnc_agree (dst src : BitVec 4) (hcfg : s.cfg = t.cfg)
    (hr : ∀ b, bufOf src = some b → s.buf b = t.buf b) :
    Agree (.rlEnc dst src) s t (execRlEnc dst src s) (execRlEnc dst src t) := by
  refine .withBuf fun tgt hd => .withBuf fun frm hs => ?_
  simp only [hcfg, hr frm hs]
  refine .ite .raise (.ite .raise (.respond (.of_same ?_)))
  simpa only [writesOf, bufPieces_of_some hd] using sameAt_replaceBuf s t tgt _

theorem execRlDec_agree (dst src : BitVec 4) (hcfg : s.cfg = t.cfg)
    (hr : ∀ b, bufOf src = some b → s.buf b = t.buf b) :
    Agree (.rlDec dst src) s t (execRlDec dst src s) (execRlDec dst src t) := by
  refine .withBuf fun tgt hd => .withBuf fun frm hs => ?_
  simp only [hcfg, hr frm hs]
  refine .ite .raise (.ite .raise (.ite .raise (.respond (.of_same ?_))))
  simpa only [writesOf, bufPieces_of_some hd] using sameAt_replaceBuf s t tgt _

theorem execDnConfig_agree (bands : BitVec 32) (hcfg : s.cfg = t.cfg) :
    Agree (.dnConfig bands) s t (execDnConfig bands s) (execDnConfig bands t) := by
  simp only [execDnConfig, hcfg]
  exact .ite .raise (.respond (.of_same (by simp [writesOf, sameAt])))

/-- Of `VB` only the length is read: the delta bytes are added to whatever stands there (43_denc R126). -/
theorem execDnDelta_agree (src : BitVec 4) (hcfg : s.cfg = t.cfg)
    (hr : ∀ b, bufOf src = some b →
      s.buf b = t.buf b ∧ s.bands = t.bands ∧ s.prev = t.prev ∧ s.vb.length = t.vb.length) :
    Agree (.dnDelta src) s t (execDnDelta src s) (execDnDelta src t) := by
  refine .withBuf fun b hs => ?_
  obtain ⟨hbuf, hbands, hprev, hlen⟩ := hr b hs
  simp only [hcfg, hbuf, hbands, hprev, hlen]
  refine .ite .raise (.ite .raise (.respond fun p hp hext => ?_))
  simp only [writesOf, List.mem_cons, List.not_mem_nil, or_false] at hp
  obtain rfl | rfl := hp
  · have hvb : s.vb = t.vb := hext (by simp [extendsOf])
    simp [sameAt, hvb]
  · simp [sameAt]

theorem execDnCheck_agree (src : BitVec 4)
    (hr : ∀ b, bufOf src = some b → s.buf b = t.buf b ∧ s.bands = t.bands ∧ s.vb = t.vb) :
    Agree (.dnCheck src) s t (execDnCheck src s) (execDnCheck src t) := by
  refine .withBuf fun b hs => ?_
  obtain ⟨hbuf, hbands, hvb⟩ := hr b hs
  simp only [hbuf, hbands, hvb]
  split
  · exact .respond (.of_same (by simp [writesOf, sameAt]))
  · exact .respond (.of_same (by simp [writesOf, sameAt]))

theorem execDnRecode_agree (hvb : s.vb = t.vb) : Agree .dnRecode s t (execDnRecode s) (execDnRecode t) := by
  simp only [execDnRecode, hvb]
  exact .respond (.of_same (by simp [writesOf, sameAt]))

theorem execDnRdprev_agree (c : BitVec 32) (hbands : s.bands = t.bands) (hprev : s.prev = t.prev) :
    Agree (.dnRdprev c) s t (execDnRdprev c s) (execDnRdprev c t) := by
  simp only [execDnRdprev, hbands, hprev]
  exact .ite .raise .answer

/-- Of the buffer only the length is read: the byte is added to whatever stands there (44_host R140). -/
theorem execBufAppend_agree (dst : BitVec 4) (byte : Byte) (hcfg : s.cfg = t.cfg)
    (hr : ∀ b, bufOf dst = some b → (s.buf b).length = (t.buf b).length) :
    Agree (.bufAppend dst byte) s t (execBufAppend dst byte s) (execBufAppend dst byte t) := by
  refine .withBuf fun b hd => ?_
  simp only [hcfg, hr b hd]
  refine .ite .raise (.respond fun p hp hext => ?_)
  simp only [writesOf, bufPieces_of_some hd, List.mem_singleton] at hp
  subst hp
  have hbuf : s.buf b = t.buf b := hext (by simp [extendsOf, bufPieces_of_some hd])
  simp [sameAt, hbuf]

theorem execBufRead_agree (src : BitVec 4) (index : BitVec 64) (hr : ∀ b, bufOf src = some b → s.buf b = t.buf b) :
    Agree (.bufRead src index) s t (execBufRead src index s) (execBufRead src index t) := by
  refine .withBuf fun b hs => ?_
  simp only [State.readByte, hr b hs]
  split
  · exact .raise
  · exact .answer

theorem execBufClear_agree (dst : BitVec 4) :
    Agree (.bufClear dst) s t (execBufClear dst s) (execBufClear dst t) :=
  .withBuf fun b hd => .respond (.of_same (by
    simpa only [writesOf, bufPieces_of_some hd] using sameAt_replaceBuf s t b []))

theorem execBufLen_agree (src : BitVec 4) (hr : ∀ b, bufOf src = some b → s.buf b = t.buf b) :
    Agree (.bufLen src) s t (execBufLen src s) (execBufLen src t) :=
  .withBuf fun b hs => by rw [hr b hs]; exact .answer

end

/-- Every command, run in two states with the same parameters that agree on its row. -/
theorem exec_agree {i : Instr} {s t : State} (hcfg : s.cfg = t.cfg) (hr : ∀ p ∈ readsOf i, sameAt s t p) :
    Agree i s t (exec i s) (exec i t) := by
  cases i with
  | sysNop => exact .answer
  | bsClear => exact .respond (.of_same (sameAt_replaceBuf s t .sb []))
  | bsRewind => exact .respond (.of_same (by simp [writesOf, sameAt]))
  | bsPush value n =>
    exact execBsPush_agree value n hcfg (hr (.buf .sb) (by simp [readsOf])) (hr .cur (by simp [readsOf]))
  | bsPull n => exact execBsPull_agree n (hr (.buf .sb) (by simp [readsOf])) (hr .cur (by simp [readsOf]))
  | bsGet => exact execBsGet_agree (hr (.buf .sb) (by simp [readsOf])) (hr .cur (by simp [readsOf]))
  | bsTell =>
    have hcur : s.cur = t.cur := hr .cur (by simp [readsOf])
    simp only [exec, execBsTell, hcur]
    exact .answer
  | bmConfig k width height => exact execBmConfig_agree k width height hcfg
  | bmBit k x y => exact execBmBit_agree k x y (bank_eq_of_row hr)
  | bmSet k x y => exact modifyPoint_agree rfl (bank_eq_of_row hr)
  | bmClear k x y => exact modifyPoint_agree rfl (bank_eq_of_row hr)
  | bmDsize k => exact execBmDsize_agree k fun b hk => forall_mem_bankPieces hk hr (.tilesLen b) (by simp)
  | bmGetsize k => exact execBmGetsize_agree k fun b hk => forall_mem_bankPieces hk hr (.dims b) (by simp)
  | bmCmp a b =>
    exact execBmCmp_agree a b (tiles_eq_of_row fun p hp => hr p (List.mem_append_left _ hp))
      (tiles_eq_of_row fun p hp => hr p (List.mem_append_right _ hp))
  | bmPack k =>
    refine execBmPack_agree k hcfg fun b hk => ?_
    simpa [sameAt] using forall_mem_bankPieces hk hr
  | bmUnpack k =>
    refine execBmUnpack_agree k fun b hk => ?_
    simpa [sameAt] using forall_mem_bankPieces hk hr
  | bmRdtile k j => exact execBmRdtile_agree k j (tiles_eq_of_row hr)
  | rlEnc dst src => exact execRlEnc_agree dst src hcfg (buf_eq_of_row hr)
  | rlDec dst src => exact execRlDec_agree dst src hcfg (buf_eq_of_row hr)
  | dnConfig bands => exact execDnConfig_agree bands hcfg
  | dnDelta src =>
    refine execDnDelta_agree src hcfg fun b hs => ?_
    simpa [sameAt] using forall_mem_bufPieces hs hr
  | dnCheck src =>
    refine execDnCheck_agree src fun b hs => ?_
    simpa [sameAt] using forall_mem_bufPieces hs hr
  | dnRecode => exact execDnRecode_agree (hr (.buf .vb) (by simp [readsOf]))
  | dnRdprev c => exact execDnRdprev_agree c (hr .bands (by simp [readsOf])) (hr .prev (by simp [readsOf]))
  | bufClear dst => exact execBufClear_agree dst
  | bufAppend dst byte =>
    exact execBufAppend_agree dst byte hcfg fun b hd => forall_mem_bufPieces hd hr (.bufLen b) (by simp)
  | bufRead src index => exact execBufRead_agree src index (buf_eq_of_row hr)
  | bufLen src => exact execBufLen_agree src (buf_eq_of_row hr)

/-! ### The response on the host's side -/

/-- A command that ends in `u` with the response `r` has added `r` to what the host has received, and nothing else. -/
theorem exec_deliver_rsps {i : Instr} {s u : State} {r : Response} (h : exec i s = .next (u.deliver r)) :
    (u.deliver r).rsps = r :: s.rsps := by
  obtain ⟨v, p, heq, heff⟩ := exec_cases h
  have hrsps : r :: u.rsps = p :: s.rsps := by
    simpa [heff.frame.rsps] using congrArg State.rsps heq
  obtain ⟨-, hu⟩ := List.cons.inj hrsps
  rw [State.deliver_rsps, hu]

theorem Status.refused_eq_false_iff (st : Status) : st.refused = false ↔ st.code.toNat < 0x80 := by
  simp [Status.refused]

theorem sameAt_deliver {s t : State} {p : Piece} (h : sameAt s t p) (r : Response) :
    sameAt (s.deliver r) (t.deliver r) p := by
  cases p <;> simpa [sameAt] using h

/-- Settles O17: the two runs end with one response and agree on what the command writes; its delivery changes none of
the pieces. -/
theorem readsOnlyItsRow : Obligations.ReadsOnlyItsRow := by
  intro i s t hcfg hr
  obtain ⟨s', t', r, hs, ht, hagree⟩ := exec_agree hcfg hr
  refine ⟨s'.deliver r, t'.deliver r, r, hs, ht, exec_deliver_rsps hs, exec_deliver_rsps ht, fun hok p hp hext => ?_⟩
  exact sameAt_deliver (hagree ((Status.refused_eq_false_iff r.st).2 hok) p hp hext) r

end Sys2Proof.Machine
end

section
/-! PROOF. One step on a command word (30_encoding R58, 20_memory R45): what a word decodes to, and the word of a
command read back. -/

namespace Sys2Proof

/-! ### Decoding (30_encoding R58) -/

/-- The inversion of `decode`, where it answers a command. -/
theorem decode_eq_ok_iff (w : CmdWord) (i : Instr) :
    decode w = .ok i ↔ instrOf (opField w) (nField w) (dField w) = some i ∧
      mbzClear (formatOf i) (nField w) (dField w) = true ∧ i.wf = true := by
  unfold decode
  cases instrOf (opField w) (nField w) (dField w) with
  | none => simp
  | some j =>
    simp only [Bool.and_eq_true]
    split <;> grind

/-- A command that comes from the decoder names only banks and buffers that exist (30_encoding R58 step 4). -/
theorem wf_of_decode {w : CmdWord} {i : Instr} (h : decode w = .ok i) : i.wf = true := by
  obtain ⟨-, -, hwf⟩ := (decode_eq_ok_iff w i).1 h
  exact hwf

/-! ### Decoding what was encoded (30_encoding R54, R55, R57) -/

/-- The opcode of a command selects it, and its operands are read back from `n` and `d`. -/
theorem instrOf_encode (i : Instr) : instrOf (opcodeOf i) (nOf i) (dOf i) = some i := by
  cases i <;> simp [instrOf, opcodeOf, nOf, dOf]

/-- The encoder leaves every must-be-zero bit at 0 (30_encoding R55). -/
theorem mbzClear_encode (i : Instr) : mbzClear (formatOf i) (nOf i) (dOf i) = true := by
  cases i with
  | sysNop => exact Laws.EncodedFormat.sysNop
  | bsClear => exact Laws.EncodedFormat.bsClear
  | bsRewind => exact Laws.EncodedFormat.bsRewind
  | bsPush value bitCount => exact Laws.EncodedFormat.bsPush value bitCount
  | bsPull bitCount => exact Laws.EncodedFormat.bsPull bitCount
  | bsGet => exact Laws.EncodedFormat.bsGet
  | bsTell => exact Laws.EncodedFormat.bsTell
  | bmConfig k width height => exact Laws.EncodedFormat.bmConfig k width height
  | bmBit k x y => exact Laws.EncodedFormat.bmBit k x y
  | bmSet k x y => exact Laws.EncodedFormat.bmSet k x y
  | bmClear k x y => exact Laws.EncodedFormat.bmClear k x y
  | bmDsize k => exact Laws.EncodedFormat.bmDsize k
  | bmGetsize k => exact Laws.EncodedFormat.bmGetsize k
  | bmCmp a b => exact Laws.EncodedFormat.bmCmp a b
  | bmPack k => exact Laws.EncodedFormat.bmPack k
  | bmUnpack k => exact Laws.EncodedFormat.bmUnpack k
  | bmRdtile k t => exact Laws.EncodedFormat.bmRdtile k t
  | rlEnc dst src => exact Laws.EncodedFormat.rlEnc dst src
  | rlDec dst src => exact Laws.EncodedFormat.rlDec dst src
  | dnConfig bands => exact Laws.EncodedFormat.dnConfig bands
  | dnDelta src => exact Laws.EncodedFormat.dnDelta src
  | dnCheck src => exact Laws.EncodedFormat.dnCheck src
  | dnRecode => exact Laws.EncodedFormat.dnRecode
  | dnRdprev c => exact Laws.EncodedFormat.dnRdprev c
  | bufClear dst => exact Laws.EncodedFormat.bufClear dst
  | bufAppend dst byte => exact Laws.EncodedFormat.bufAppend dst byte
  | bufRead src index => exact Laws.EncodedFormat.bufRead src index
  | bufLen src => exact Laws.EncodedFormat.bufLen src

/-- Every well-formed command is read back from its word. -/
theorem decode_encode {i : Instr} (hwf : i.wf = true) : decode (encode i) = .ok i := by
  rw [decode_eq_ok_iff, encode, opField_mkWord, nField_mkWord, dField_mkWord]
  exact ⟨instrOf_encode i, mbzClear_encode i, hwf⟩

end Sys2Proof

namespace Sys2Proof.Machine

/-! ### A word handed to the block, and a step that takes one -/

theorem execWord_of_ok {w : CmdWord} {i : Instr} (h : decode w = .ok i) (s : State) : execWord w s = exec i s := by
  simp [execWord, h]

theorem execWord_of_error {w : CmdWord} {e : DecodeError} (h : decode w = .error e) (s : State) :
    execWord w s = .next (s.deliver ⟨statusOfDecodeError e, 0⟩) := by
  simp [execWord, h]

/-- The step takes the word from `inbox` and hands it to the block (log 2). -/
theorem step_of_command {s : State} {w : CmdWord} {rest : List HostEvent} (h : s.inbox = .command w :: rest) :
    step s = execWord w { s with inbox := rest } := by
  simp [step, h]

/-- Settles O6: the step is `execWord` on the word, which is `exec` or the refusal of the decoder. -/
theorem stepRunsDecodedCommand : Obligations.StepRunsDecodedCommand := by
  intro s w rest hin
  rw [step_of_command hin]
  exact ⟨fun i h => ⟨wf_of_decode h, execWord_of_ok h _⟩, fun h => execWord_of_error h _,
    fun h => execWord_of_error h _⟩

end Sys2Proof.Machine
end

section
/-! PROOF. Runs of the machine on encoded commands (20_memory R45): a command depends on no part of the host's side
(30_encoding R67), so a run is `exec` applied left to right. -/

namespace Sys2Proof.Machine

/-! ### A command and the host's side of the port -/

@[simp] theorem Status.refused_ok : Status.ok.refused = false := by decide

@[simp] theorem Status.refused_ofBool (b : Bool) : (Status.ofBool b).refused = false := by cases b <;> decide

/-- A refused command leaves the state and answers 0 (60_exceptions R149). -/
theorem Effect.of_refused {i : Instr} {s t : State} {p : Response} (h : Effect s i t p) (hp : p.st.refused = true) :
    t = s ∧ p.r = 0 := by
  cases h with
  | refused => exact ⟨rfl, rfl⟩
  | observed _ hok | dnCheck _ hok => simp [hok] at hp
  | bsClear | bsRewind | bsPush | bsPull | bsGet | bmConfig | bmSet | bmClear | bmPack | bmUnpack | rlEnc | rlDec
  | dnConfig | dnDelta | dnRecode | bufClear | bufAppend => simp at hp

theorem State.deliver_inj {s t : State} {p q : Response} (h : s.deliver p = t.deliver q) : s = t ∧ p = q := by
  obtain ⟨hp, hrsps⟩ := List.cons.inj (congrArg State.rsps h)
  have hs : { s.deliver p with rsps := s.rsps } = { t.deliver q with rsps := t.rsps } := by rw [h, hrsps]
  exact ⟨hs, hp⟩

/-- The inversion of `exec` at a named state and response. -/
theorem Effect.of_exec {i : Instr} {s t : State} {p : Response} (h : exec i s = .next (t.deliver p)) :
    Effect s i t p := by
  obtain ⟨u, q, heq, heff⟩ := exec_cases h
  obtain ⟨rfl, rfl⟩ := State.deliver_inj heq
  exact heff

/-- The pieces of the block's state do not lie on the host's side. -/
theorem sameAt_withHost (s : State) (events : List HostEvent) (responses : List Response) (p : Piece) :
    sameAt s { s with inbox := events, rsps := responses } p := by
  cases p with
  | dims k => exact ⟨rfl, rfl⟩
  | buf | bufLen | cur | tiles | tilesLen | bands | prev => rfl

/-- Two runs that keep what is outside the row `ws`, from states that differ in the host's side only, and agree on the
row: they end in states that differ in the host's side only. -/
theorem Frame.eq_withHost {ws : List Piece} {s u u' : State} {events : List HostEvent} {responses : List Response}
    (f : Frame ws s u) (f' : Frame ws { s with inbox := events, rsps := responses } u')
    (hw : ∀ p ∈ ws, sameAt u u' p) : u' = { u with inbox := events, rsps := responses } := by
  have outside (p : Piece) (h : p ∉ ws → sameAt u u' p) : sameAt u u' p := by
    by_cases hp : p ∈ ws
    · exact hw p hp
    · exact h hp
  have hbuf (b : BufId) : u.buf b = u'.buf b := outside (.buf b) fun h => (f.buf b h).trans (f'.buf b h).symm
  have hcur : u.cur = u'.cur := outside .cur fun h => (f.cur h).trans (f'.cur h).symm
  have hbands : u.bands = u'.bands := outside .bands fun h => (f.bands h).trans (f'.bands h).symm
  have hprev : u.prev = u'.prev := outside .prev fun h => (f.prev h).trans (f'.prev h).symm
  have hbank (k : BankId) : u.bank k = u'.bank k := by
    obtain ⟨hbw, hbh⟩ : sameAt u u' (.dims k) := outside (.dims k) fun h => by
      obtain ⟨hbw, hbh⟩ := f.dims k h
      obtain ⟨hbw', hbh'⟩ := f'.dims k h
      exact ⟨hbw.trans hbw'.symm, hbh.trans hbh'.symm⟩
    have htiles : sameAt u u' (.tiles k) := outside (.tiles k) fun h => (f.tiles k h).trans (f'.tiles k h).symm
    exact (Bank.mk.injEq ..).mpr ⟨hbw, hbh, htiles⟩
  exact (State.mk.injEq ..).mpr ⟨(hbuf .sb).symm, hcur.symm, (hbuf .ib).symm, (hbuf .ob).symm, (hbuf .vb).symm,
    (hbank .m0).symm, (hbank .m1).symm, hbands.symm, hprev.symm, f'.cfg.trans f.cfg.symm, f'.inbox, f'.rsps⟩

/-- A command depends neither on what the host will send nor on what it has received (30_encoding R67): it answers the
same, and leaves the same block. -/
theorem exec_withHost {i : Instr} {s t : State} {p : Response} (h : exec i s = .next (t.deliver p))
    (events : List HostEvent) (responses : List Response) :
    exec i { s with inbox := events, rsps := responses } =
      .next ({ t with inbox := events, rsps := responses }.deliver p) := by
  have hsame := sameAt_withHost s events responses
  obtain ⟨u, t', q, hu, h', hagree⟩ :=
    exec_agree (i := i) (s := s) (t := { s with inbox := events, rsps := responses }) rfl fun r _ => hsame r
  obtain ⟨rfl, rfl⟩ := State.deliver_inj (Host.Outcome.next.inj (h.symm.trans hu))
  have heff := Effect.of_exec h
  have heff' := Effect.of_exec h'
  suffices ht : t' = { t with inbox := events, rsps := responses } by rw [h', ht]
  cases hp : p.st.refused with
  | true =>
    obtain ⟨rfl, -⟩ := heff.of_refused hp
    obtain ⟨rfl, -⟩ := heff'.of_refused hp
    rfl
  | false => exact heff.frame.eq_withHost heff'.frame fun r hr => hagree hp r hr fun _ => hsame r

/-! ### Runs -/

/-- The machine of the host's interface goes on from the state its first step leaves. -/
theorem core_run_succ {s t : State} (h : step s = .next t) (n : Nat) :
    (Host.Core.run Sys2Proof.core (n + 1) s : Outcome) = Host.Core.run Sys2Proof.core n t := by
  have hcore : Sys2Proof.core.step s = .next t := h
  simp only [Host.Core.run, hcore]

theorem runInstrs_cons {i : Instr} {s t : State} (h : exec i s = .next t) (is : List Instr) :
    runInstrs (i :: is) s = runInstrs is t := by
  simp [runInstrs, h]

/-- A step on the word of a well-formed command is the command, run with the rest of the inbox in place of any other
(log 2). -/
theorem step_of_encode {i : Instr} (hwf : i.wf = true) {s t : State} {p : Response} {events rest : List HostEvent}
    (hin : s.inbox = .command (encode i) :: events) (h : exec i { s with inbox := rest } = .next (t.deliver p)) :
    step s = .next ({ t with inbox := events }.deliver p) := by
  have hrsps : t.rsps = s.rsps := (Effect.of_exec h).frame.rsps
  rw [step_of_command hin, execWord_of_ok (decode_encode hwf)]
  exact hrsps ▸ exec_withHost h events s.rsps

/-- Settles O19, by induction on the commands: each step runs the first of them, and the rest of the inbox makes no
difference to it. -/
theorem runIsExecLeftToRight : Obligations.RunIsExecLeftToRight := by
  intro is
  induction is with
  | nil => intro s rest _ hin; exact congrArg Host.Outcome.next (by rw [← show s.inbox = rest from hin])
  | cons i is ih =>
    intro s rest hwf hin
    obtain ⟨t, p, hexec, heff⟩ := exec_ends i { s with inbox := rest }
    have hrest : t.inbox = rest := heff.frame.inbox
    have hstep := step_of_encode (hwf i List.mem_cons_self) hin hexec
    rw [List.length_cons, core_run_succ hstep, runInstrs_cons hexec,
      ih _ rest (fun j hj => hwf j (List.mem_cons_of_mem i hj)) rfl]
    exact congrArg (fun events => runInstrs is ({ t with inbox := events }.deliver p)) hrest.symm

end Sys2Proof.Machine
end

section
/-! PROOF. The stream of 20_memory: writes and reads split at any width (R40), the chunked loops (R39), and the byte
image of a value written at the aligned end (R40). -/

namespace Sys2Proof.Machine

/-! ### Writes and reads split at any width -/

/-- A write of `n1 + n2` bits is a write of the low `n1` bits, then one of the rest where the first ended. -/
theorem streamWrite_add (n1 : Nat) : ∀ (bytes : List Byte) (c n2 v : Nat),
    streamWrite bytes c (n1 + n2) v = streamWrite (streamWrite bytes c n1 v) (c + n1) n2 (v / 2 ^ n1) := by
  induction n1 with
  | zero => intro bytes c n2 v; simp [streamWrite]
  | succ n1 ih =>
    intro bytes c n2 v
    have hcur : c + 1 + n1 = c + (n1 + 1) := by omega
    have hval : v / 2 / 2 ^ n1 = v / 2 ^ (n1 + 1) := by rw [Nat.div_div_eq_div_mul, Nat.pow_succ']
    rw [Nat.succ_add, streamWrite, ih, hcur, hval, streamWrite]

/-- A write of `n` bits uses only the low `n` bits of the value. -/
theorem streamWrite_mod (n : Nat) : ∀ (bytes : List Byte) (c v : Nat),
    streamWrite bytes c n (v % 2 ^ n) = streamWrite bytes c n v := by
  induction n with
  | zero => intro bytes c v; rfl
  | succ n ih =>
    intro bytes c v
    have hlow : (v % 2 ^ (n + 1)).testBit 0 = v.testBit 0 := by simp
    have hhigh : v % 2 ^ (n + 1) / 2 = v / 2 % 2 ^ n := by rw [Nat.pow_succ', Nat.mod_mul_right_div_self]
    rw [streamWrite, hlow, hhigh, ih, streamWrite]

/-- A read of `m1 + m2` bits is a read of `m1` bits, then one of `m2` bits above them. -/
theorem streamRead_add (m1 : Nat) : ∀ (bytes : List Byte) (c m2 : Nat),
    streamRead bytes c (m1 + m2) = streamRead bytes c m1 + streamRead bytes (c + m1) m2 * 2 ^ m1 := by
  induction m1 with
  | zero => intro bytes c m2; simp [streamRead]
  | succ m1 ih =>
    intro bytes c m2
    have hcur : c + 1 + m1 = c + (m1 + 1) := by omega
    rw [Nat.succ_add, streamRead, ih, hcur, streamRead]
    ring

/-! ### One chunk -/

/-- A chunk is not empty while bits are left, takes no more than these, and stays inside the current byte. -/
theorem chunkLen_bounds {c n : Nat} (hn : n ≠ 0) :
    1 ≤ chunkLen c n ∧ chunkLen c n ≤ n ∧ c % 8 + chunkLen c n ≤ 8 := by
  unfold chunkLen; omega

/-- `chunkMerge` puts the low `k` bits of the value at offset `off` and keeps the other bits of the byte. -/
theorem chunkMerge_getLsbD (x : Byte) (off k v j : Nat) (hj : j < 8) :
    (chunkMerge x off k v).getLsbD j = if off ≤ j ∧ j < off + k then v.testBit (j - off) else x.getLsbD j := by
  have hmask : ((2 ^ k - 1) * 2 ^ off).testBit j = (decide (off ≤ j) && decide (j - off < k)) := by
    rw [Nat.testBit_mul_two_pow, Nat.testBit_two_pow_sub_one]
  have hbits : ((v % 2 ^ k) * 2 ^ off).testBit j =
      (decide (off ≤ j) && (decide (j - off < k) && v.testBit (j - off))) := by
    rw [Nat.testBit_mul_two_pow, Nat.testBit_mod_two_pow]
  simp only [chunkMerge, BitVec.getLsbD_or, BitVec.getLsbD_and, BitVec.getLsbD_not, BitVec.getLsbD_ofNat, hmask, hbits]
  by_cases h1 : off ≤ j
  · by_cases h2 : j < off + k
    · have h3 : j - off < k := by omega
      simp [hj, h1, h2, h3]
    · have h3 : ¬ j - off < k := by omega
      simp [hj, h2, h3]
  · simp [hj, h1]

/-- One byte replaced, bit by bit. -/
theorem bitAt_modify {bytes : List Byte} {k : Nat} (hk : k < bytes.length) (f : Byte → Byte) (p : Nat) :
    bitAt (bytes.modify k f) p = if p / 8 = k then (f (bytes.getD k 0)).getLsbD (p % 8) else bitAt bytes p := by
  unfold bitAt
  simp only [List.getD_eq_getElem?_getD, List.getElem?_modify]
  by_cases h : p / 8 = k
  · simp [h, List.getElem?_eq_getElem hk]
  · simp [h, Ne.symm h]

/-- One turn of the write loop of R39 is the write of its `k` bits, when these lie in one byte. -/
theorem modify_chunkMerge_eq_streamWrite {bytes : List Byte} {c k : Nat} (v : Nat) (hc : c ≤ 8 * bytes.length)
    (hk : 1 ≤ k) (hbyte : c % 8 + k ≤ 8) :
    (growAt bytes c).modify (c / 8) (fun x => chunkMerge x (c % 8) k v) = streamWrite bytes c k v := by
  have hgrow := growAt_length bytes c
  have hin : c / 8 < (growAt bytes c).length := by rw [hgrow]; split <;> omega
  apply eq_of_bitAt
  · rw [List.length_modify, hgrow, streamWrite_length _ _ _ _ hc, ceil8]
    split <;> omega
  · intro p _
    rw [bitAt_modify hin, streamWrite_bitAt _ _ _ _ _ hc, growAt_bitAt]
    by_cases h : p / 8 = c / 8
    · have hold : ((growAt bytes c).getD (c / 8) 0).getLsbD (p % 8) = bitAt bytes p := by
        rw [← growAt_bitAt bytes c p, bitAt, h]
      have hsame : (c % 8 ≤ p % 8 ∧ p % 8 < c % 8 + k) ↔ (c ≤ p ∧ p < c + k) := by omega
      have hoff : p % 8 - c % 8 = p - c := by omega
      rw [if_pos h, chunkMerge_getLsbD _ _ _ _ _ (Nat.mod_lt _ (by decide)), hold, hoff]
      simp only [hsame]
    · have hout : ¬ (c ≤ p ∧ p < c + k) := by omega
      rw [if_neg h, if_neg hout]

/-- One turn of the read loop of R39 takes the `k` bits of a read, when these lie in one byte. -/
theorem byte_div_mod_eq_streamRead (bytes : List Byte) {c k : Nat} (hbyte : c % 8 + k ≤ 8) :
    (bytes.getD (c / 8) 0).toNat / 2 ^ (c % 8) % 2 ^ k = streamRead bytes c k := by
  apply Nat.eq_of_testBit_eq
  intro i
  rw [streamRead_testBit, Nat.testBit_mod_two_pow, Nat.testBit_div_two_pow]
  by_cases hi : i < k
  · have hdiv : (c + i) / 8 = c / 8 := by omega
    have hmod : (c + i) % 8 = i + c % 8 := by omega
    rw [bitAt, hdiv, hmod, BitVec.getLsbD]
  · simp [hi]

/-! ### The chunked loops -/

/-- With fuel for every bit, the write loop of R39 is `StreamWrite`: each turn writes its chunk, and the turns that
follow write the rest. -/
theorem chunkWriteLoop_eq_streamWrite (fuel : Nat) : ∀ (bytes : List Byte) (c n v : Nat), n ≤ fuel →
    c ≤ 8 * bytes.length → chunkWriteLoop fuel bytes c n v = streamWrite bytes c n v := by
  induction fuel with
  | zero => intro bytes c n v hn _; obtain rfl := Nat.le_zero.1 hn; rfl
  | succ fuel ih =>
    intro bytes c n v hn hc
    rw [chunkWriteLoop]
    split
    next h0 => rw [h0]; rfl
    next h0 =>
      dsimp only
      obtain ⟨hpos, hle, hbyte⟩ := chunkLen_bounds (c := c) h0
      have hin : c + chunkLen c n ≤ 8 * (streamWrite bytes c (chunkLen c n) v).length := by
        rw [streamWrite_length _ _ _ _ hc, ceil8]; omega
      calc
        _ = streamWrite (streamWrite bytes c (chunkLen c n) v) (c + chunkLen c n) (n - chunkLen c n)
              (v / 2 ^ chunkLen c n) := by
          rw [modify_chunkMerge_eq_streamWrite v hc hpos hbyte]
          exact ih _ _ _ _ (by omega) hin
        _ = streamWrite bytes c (chunkLen c n + (n - chunkLen c n)) v := (streamWrite_add _ _ _ _ _).symm
        _ = streamWrite bytes c n v := by rw [Nat.add_sub_cancel' hle]

/-- With fuel for every bit, the read loop of R39 adds `StreamRead` to its accumulator, above the `got` bits already
there. -/
theorem chunkReadLoop_eq_streamRead (fuel : Nat) : ∀ (bytes : List Byte) (c m res got : Nat), m ≤ fuel →
    chunkReadLoop fuel bytes c m res got = res + streamRead bytes c m * 2 ^ got := by
  induction fuel with
  | zero => intro bytes c m res got hm; obtain rfl := Nat.le_zero.1 hm; simp [chunkReadLoop, streamRead]
  | succ fuel ih =>
    intro bytes c m res got hm
    rw [chunkReadLoop]
    split
    next h0 => simp [h0, streamRead]
    next h0 =>
      dsimp only
      obtain ⟨hpos, hle, hbyte⟩ := chunkLen_bounds (c := c) h0
      have hsplit := streamRead_add (chunkLen c m) bytes c (m - chunkLen c m)
      rw [Nat.add_sub_cancel' hle] at hsplit
      rw [byte_div_mod_eq_streamRead bytes hbyte, ih _ _ _ _ _ (by omega), hsplit]
      ring

/-- Settles O34: both loops started with as much fuel as there are bits; the read loop with empty accumulators. -/
theorem chunkedDatapathAgrees : Obligations.ChunkedDatapathAgrees := by
  refine ⟨fun bytes c n v _ _ hc => chunkWriteLoop_eq_streamWrite n bytes c n v (Nat.le_refl n) hc,
    fun bytes c m _ _ => ?_⟩
  rw [chunkRead, chunkReadLoop_eq_streamRead m bytes c m 0 0 (Nat.le_refl m)]
  simp

/-! ### Values at the aligned end -/

/-- The bits of the first bytes, then those of the bytes after them. -/
theorem bitAt_append (a b : List Byte) (p : Nat) :
    bitAt (a ++ b) p = if p < 8 * a.length then bitAt a p else bitAt b (p - 8 * a.length) := by
  unfold bitAt
  simp only [List.getD_eq_getElem?_getD]
  by_cases h : p < 8 * a.length
  · rw [if_pos h, List.getElem?_append_left (by omega)]
  · have hdiv : (p - 8 * a.length) / 8 = p / 8 - a.length := by omega
    have hmod : (p - 8 * a.length) % 8 = p % 8 := by omega
    rw [if_neg h, List.getElem?_append_right (by omega), hdiv, hmod]

/-- The bytes of `v`, low byte first. -/
def littleEndian {w : Nat} (k : Nat) (v : BitVec w) : List Byte :=
  (List.range k).map fun j => v.extractLsb' (8 * j) 8

theorem littleEndian_length {w : Nat} (k : Nat) (v : BitVec w) : (littleEndian k v).length = k := by
  simp [littleEndian]

/-- Bit `p` of the bytes of a value is bit `p` of the value. -/
theorem littleEndian_bitAt {w k p : Nat} (v : BitVec w) (hp : p < 8 * k) :
    bitAt (littleEndian k v) p = v.getLsbD p := by
  have hk : p / 8 < k := by omega
  have hmod : p % 8 < 8 := Nat.mod_lt _ (by decide)
  have hpos : 8 * (p / 8) + p % 8 = p := Nat.div_add_mod p 8
  simp [bitAt, littleEndian, List.getD_eq_getElem?_getD, hk, hmod, hpos]

/-- A value of whole bytes written at the aligned end appends its bytes, low byte first. -/
theorem streamWrite_alignedEnd {w : Nat} (bytes : List Byte) (k : Nat) (v : BitVec w) :
    streamWrite bytes (8 * bytes.length) (8 * k) v.toNat = bytes ++ littleEndian k v := by
  have hc := Nat.le_refl (8 * bytes.length)
  have hlen : (streamWrite bytes (8 * bytes.length) (8 * k) v.toNat).length = bytes.length + k := by
    rw [streamWrite_length _ _ _ _ hc, ceil8]; omega
  apply eq_of_bitAt
  · rw [hlen, List.length_append, littleEndian_length]
  · intro p hp
    rw [streamWrite_bitAt _ _ _ _ _ hc, bitAt_append]
    by_cases h : p < 8 * bytes.length
    · rw [if_neg (by omega), if_pos h]
    · rw [if_pos (by omega), if_neg h, littleEndian_bitAt v (by omega), BitVec.getLsbD]

/-- Settles O35: the laws of two writes and of two reads, and the byte image at two widths. -/
theorem streamHasNoWidths : Obligations.StreamHasNoWidths := by
  refine ⟨fun bytes c n1 n2 v1 v2 _ hv1 => ?_, fun bytes c m1 m2 => streamRead_add m1 bytes c m2,
    fun bytes v => streamWrite_alignedEnd bytes 2 v, fun bytes v => streamWrite_alignedEnd bytes 8 v⟩
  have hlow : (v1 + v2 * 2 ^ n1) % 2 ^ n1 = v1 := by rw [Nat.add_mul_mod_self_right, Nat.mod_eq_of_lt hv1]
  have hhigh : (v1 + v2 * 2 ^ n1) / 2 ^ n1 = v2 := by
    rw [Nat.add_mul_div_right _ _ (Nat.two_pow_pos n1), Nat.div_eq_of_lt hv1, Nat.zero_add]
  rw [streamWrite_add, hhigh, ← streamWrite_mod n1 bytes c (v1 + v2 * 2 ^ n1), hlow]

end Sys2Proof.Machine
end

section
/-! PROOF. The encoding of commands (30_encoding §1, §2, §4, §5): a word that decodes is the encoding of what it decodes
to, and the decoder's two refusals are those of R59 and R60, the second held against the printed table. Last, the response
word (R56). -/

namespace Sys2Proof

/-! ### Operands and must-be-zero bits (30_encoding R55) -/

/-- A field whose upper bits must be 0, and are, is its lower part. -/
theorem zero_append_low {w v : Nat} {x : BitVec (w + v)} (h : x &&& (BitVec.allOnes w ++ 0#v) = 0) :
    0#w ++ x.extractLsb' 0 v = x := by
  have hsplit : x.extractLsb' v w ++ x.extractLsb' 0 v = x := BitVec.extractLsb'_append_extractLsb'
  have hhigh : x.extractLsb' v w ++ 0#v = 0#w ++ 0#v := by
    rw [← hsplit, BitVec.and_append] at h
    simpa using h
  rw [(BitVec.append_left_inj _).1 hhigh] at hsplit
  exact hsplit

theorem zero_append_nLo {n : BitVec 8} (h : n &&& 0xF0#8 = 0) : 0#4 ++ nLo n = n := zero_append_low (w := 4) (v := 4) h

theorem zero_append_dLo {d : BitVec 64} (h : d &&& 0xFFFFFFFF00000000#64 = 0) : 0#32 ++ dLo d = d :=
  zero_append_low (w := 32) (v := 32) h

theorem zero_append_dByte {d : BitVec 64} (h : d &&& 0xFFFFFFFFFFFFFF00#64 = 0) : 0#56 ++ dByte d = d :=
  zero_append_low (w := 56) (v := 8) h

/-- The other way round for `D` and `DB`, whose lower nibble must be 0. -/
theorem nHi_append_zero {n : BitVec 8} (h : n &&& 0x0F#8 = 0) : nHi n ++ 0#4 = n := by revert n; decide

/-- The masks of the formats without operands in `n`, and in `d`, are `BitVec.allOnes` as literals. -/
theorem and_ones_n (n : BitVec 8) : n &&& 0xFF#8 = n := BitVec.and_allOnes

theorem and_ones_d (d : BitVec 64) : d &&& 0xFFFFFFFFFFFFFFFF#64 = d := BitVec.and_allOnes

theorem mbzClear_iff (f : Format) (n : BitVec 8) (d : BitVec 64) :
    mbzClear f n d = true ↔ n &&& mbzN f = 0 ∧ d &&& mbzD f = 0 := by
  simp [mbzClear]

/-! ### From the fields to the command and back -/

section
variable {op n : BitVec 8} {d : BitVec 64} {i : Instr}

theorem opcodeOf_of_instrOf (h : instrOf op n d = some i) : opcodeOf i = op := by
  unfold instrOf at h
  split at h <;> cases h <;> exact BitVec.eq_of_toNat_eq (Eq.symm ‹_›)

/-- The encoder puts the operands back where the decoder read them in `n`, the other bits being 0. -/
theorem nOf_of_instrOf (h : instrOf op n d = some i) (hn : n &&& mbzN (formatOf i) = 0) : nOf i = n := by
  unfold instrOf at h
  split at h <;> cases h
  all_goals simp_all [formatOf, mbzN, nOf, and_ones_n, nHi_append_nLo, zero_append_nLo, nHi_append_zero]

/-- What `nOf_of_instrOf` says about `n`, for `d`. -/
theorem dOf_of_instrOf (h : instrOf op n d = some i) (hd : d &&& mbzD (formatOf i) = 0) : dOf i = d := by
  unfold instrOf at h
  split at h <;> cases h
  all_goals simp_all [formatOf, mbzD, dOf, and_ones_d, dHi_append_dLo, zero_append_dLo, zero_append_dByte]

end

/-- A word that decodes is the word of its command. -/
theorem encode_of_decode {w : CmdWord} {i : Instr} (h : decode w = .ok i) : encode i = w := by
  obtain ⟨hi, hmbz, -⟩ := (decode_eq_ok_iff w i).1 h
  obtain ⟨hn, hd⟩ := (mbzClear_iff _ _ _).1 hmbz
  rw [encode, opcodeOf_of_instrOf hi, nOf_of_instrOf hi hn, dOf_of_instrOf hi hd, mkWord_fields]

/-- Settles O1: the fields of the word are read back, and none of its must-be-zero bits is 1. -/
theorem decodeOfEncode : Obligations.DecodeOfEncode := fun _ => decode_encode

/-- Settles O2: the encoder writes back each field the decoder read, and 0 where the decoder saw that only 0 stood. -/
theorem encodeOfDecode : Obligations.EncodeOfDecode := fun _ _ h => ⟨wf_of_decode h, encode_of_decode h⟩

/-! ### The two refusals of the decoder (30_encoding R59, R60) -/

theorem decode_of_none {w : CmdWord} (h : instrOf (opField w) (nField w) (dField w) = none) :
    decode w = .error .reservedOpcode := by
  simp [decode, h]

theorem decode_of_some {w : CmdWord} {i : Instr} (h : instrOf (opField w) (nField w) (dField w) = some i) :
    decode w = if mbzClear (formatOf i) (nField w) (dField w) && i.wf then .ok i else .error .reservedField := by
  simp [decode, h]

/-- The refusal of the opcode is about the opcode map alone: no other word gets it (30_encoding R58 step 2). -/
theorem decode_eq_reservedOpcode_iff (w : CmdWord) :
    decode w = .error .reservedOpcode ↔ instrOf (opField w) (nField w) (dField w) = none := by
  cases h : instrOf (opField w) (nField w) (dField w) with
  | none => simp [decode_of_none h]
  | some i =>
    rw [decode_of_some h]
    split <;> simp

/-- The opcodes that select no command, whatever `n` and `d` hold (30_encoding R59). -/
theorem instrOf_eq_none_iff (op n : BitVec 8) (d : BitVec 64) :
    instrOf op n d = none ↔
      (0x01 ≤ op.toNat ∧ op.toNat ≤ 0x0F) ∨ (0x16 ≤ op.toNat ∧ op.toNat ≤ 0x1F) ∨
      (0x2A ≤ op.toNat ∧ op.toNat ≤ 0x2F) ∨ (0x32 ≤ op.toNat ∧ op.toNat ≤ 0x3F) ∨
      (0x45 ≤ op.toNat ∧ op.toNat ≤ 0x4F) ∨ (0x54 ≤ op.toNat ∧ op.toNat ≤ 0x5F) ∨ 0x60 ≤ op.toNat := by
  unfold instrOf
  split
  case h_29 => simp only [imp_false, true_iff] at *; omega
  all_goals simp [*]

/-- Settles O3: the opcodes that select no command are those of the seven ranges, and the refusal is a response alone. -/
theorem reservedOpcodesAnswer : Obligations.ReservedOpcodesAnswer :=
  ⟨fun w => (decode_eq_reservedOpcode_iff w).trans (instrOf_eq_none_iff _ _ _),
    fun _ s h => Machine.execWord_of_error h s, by decide, by decide⟩

/-! ### The printed table (30_encoding R68) -/

@[simp] theorem opField_and (w v : CmdWord) : opField (w &&& v) = opField w &&& opField v := BitVec.extractLsb'_and

@[simp] theorem nField_and (w v : CmdWord) : nField (w &&& v) = nField w &&& nField v := BitVec.extractLsb'_and

@[simp] theorem dField_and (w v : CmdWord) : dField (w &&& v) = dField w &&& dField v := BitVec.extractLsb'_and

/-- A word holds given fields (30_encoding R54). -/
theorem eq_mkWord_iff {w : CmdWord} {op n : BitVec 8} {d : BitVec 64} :
    w = mkWord op n d ↔ opField w = op ∧ nField w = n ∧ dField w = d := by
  constructor
  · rintro rfl; simp
  · rintro ⟨rfl, rfl, rfl⟩; exact (mkWord_fields w).symm

/-- The row of a command, as the encoder and the operand formats give it. -/
def rowOf (i : Instr) : TableRow where
  pattern := mkWord (opcodeOf i) 0 0
  mask := mkWord 0xFF 0 0
  strictMask := mkWord 0xFF (mbzN (formatOf i)) (mbzD (formatOf i))

/-- Which row a word belongs to is a matter of its opcode. -/
theorem map_rowOf_instrOf (op n : BitVec 8) (d : BitVec 64) :
    (instrOf op n d).map rowOf = (instrOf op 0 0).map rowOf := by
  unfold instrOf
  split <;> rfl

/-- Each row as printed is the row of the command that its opcode selects. -/
theorem map_rowOf_of_mem_opcodeTable :
    ∀ row ∈ opcodeTable, (instrOf (opField row.pattern) 0 0).map rowOf = some row := by decide

section
variable {w : CmdWord}

theorem and_rowOf_mask_iff {i : Instr} : w &&& (rowOf i).mask = (rowOf i).pattern ↔ opField w = opcodeOf i := by
  simp [rowOf, eq_mkWord_iff, and_ones_n]

theorem and_rowOf_strictMask_iff {i : Instr} : w &&& (rowOf i).strictMask = (rowOf i).pattern ↔
    opField w = opcodeOf i ∧ mbzClear (formatOf i) (nField w) (dField w) = true := by
  simp [rowOf, eq_mkWord_iff, mbzClear_iff, and_ones_n]

/-- A word that a row's mask selects is read as a command of that row. -/
theorem exists_instrOf_of_row {row : TableRow} (hrow : row ∈ opcodeTable) (hw : w &&& row.mask = row.pattern) :
    ∃ i, instrOf (opField w) (nField w) (dField w) = some i ∧ rowOf i = row := by
  obtain ⟨j, -, rfl⟩ := Option.map_eq_some_iff.1 (map_rowOf_of_mem_opcodeTable row hrow)
  have hop : opField w = opField (rowOf j).pattern := by simpa [rowOf] using and_rowOf_mask_iff.1 hw
  have hmap := map_rowOf_of_mem_opcodeTable _ hrow
  rw [← map_rowOf_instrOf _ (nField w) (dField w), ← hop] at hmap
  exact Option.map_eq_some_iff.1 hmap

end

/-- Settles O4: by its opcode a word of a row is read as a command of that row, whose must-be-zero bits are those of the
row's `strict_mask`. -/
theorem reservedFieldsAnswer : Obligations.ReservedFieldsAnswer := by
  refine ⟨fun row hrow w s hmask hstrict => ?_, fun w s i hi hwf => ?_, fun row hrow w hmask hstrict => ?_⟩
  · obtain ⟨i, hi, rfl⟩ := exists_instrOf_of_row hrow hmask
    have hmbz : ¬ mbzClear (formatOf i) (nField w) (dField w) = true := fun h =>
      hstrict (and_rowOf_strictMask_iff.2 ⟨and_rowOf_mask_iff.1 hmask, h⟩)
    exact Machine.execWord_of_error (e := .reservedField) (by simp [decode_of_some hi, hmbz]) s
  · exact Machine.execWord_of_error (e := .reservedField) (by simp [decode_of_some hi, hwf]) s
  · obtain ⟨i, hi, rfl⟩ := exists_instrOf_of_row hrow hmask
    obtain ⟨-, hmbz⟩ := and_rowOf_strictMask_iff.1 hstrict
    exact ⟨i, hi, fun hwf => (decode_eq_ok_iff w i).2 ⟨hi, hmbz, hwf⟩⟩

end Sys2Proof

namespace Sys2Proof.Machine

/-! ### Response words (30_encoding R56) -/

/-- Settles O20: the status is the part of the word above the 64 bits of the result. -/
theorem responseWordLayout : Obligations.ResponseWordLayout := by
  refine ⟨by decide, fun k p hr => ?_⟩
  have hfield : (resultField k p.r).toNat = p.r := by
    rw [resultField, if_pos hr, BitVec.toNat_ofNat, Nat.mod_eq_of_lt hr]
  rw [Response.word, BitVec.toNat_append, hfield, ← Nat.shiftLeft_add_eq_or_of_lt hr, Nat.shiftLeft_eq]

end Sys2Proof.Machine
end

section
/-! PROOF. Every command word is answered (30_encoding R53), whatever the host has received and will send (R67), and the
pseudo-instructions of R64 run as their expansions. -/

namespace Sys2Proof.Machine

/-! ### Every word has one response and a next state -/

/-- A word handed to the block adds one response, and leaves the host's side and the parameters else as they were. -/
theorem execWord_answers (w : CmdWord) (s : State) :
    ∃ (t : State) (p : Response), execWord w s = .next (t.deliver p) ∧ t.rsps = s.rsps ∧ t.inbox = s.inbox ∧
      t.cfg = s.cfg := by
  cases h : decode w with
  | error e => exact ⟨s, _, execWord_of_error h s, rfl, rfl, rfl⟩
  | ok i =>
    obtain ⟨t, p, hexec, heff⟩ := exec_ends i s
    exact ⟨t, p, (execWord_of_ok h s).trans hexec, heff.frame.rsps, heff.frame.inbox, heff.frame.cfg⟩

/-- The machine never stops: no word ends in a fault or a refusal of the model, and reset and idling do not either. -/
theorem exists_step (s : State) : ∃ t, step s = .next t := by
  cases hin : s.inbox with
  | nil => exact ⟨s, by simp [step, hin]⟩
  | cons e rest =>
    cases e with
    | rst => exact ⟨{ s with inbox := rest }.applyReset, by simp [step, hin]⟩
    | command w =>
      obtain ⟨t, p, hw, -⟩ := execWord_answers w { s with inbox := rest }
      exact ⟨_, (step_of_command hin).trans hw⟩

/-- Settles O13: the one response is the one that ends the command, or the decoder's refusal. -/
theorem everyWordIsAnswered : Obligations.EveryWordIsAnswered := by
  refine ⟨fun w s => ?_, exists_step⟩
  obtain ⟨t, p, hexec, hrsps, hinbox, hcfg⟩ := execWord_answers w s
  exact ⟨t.deliver p, p, hexec, congrArg (p :: ·) hrsps, hinbox, hcfg⟩

/-- Settles O18: the command ends in some state and response, and the same command with another host's side ends in the
same ones. -/
theorem earlierStatusesDoNotMatter : Obligations.EarlierStatusesDoNotMatter := by
  intro i s events responses
  obtain ⟨t, p, hexec, heff⟩ := exec_ends i s
  exact ⟨t, p, hexec, heff.frame.rsps, heff.frame.inbox, exec_withHost hexec events responses⟩

/-! ### Loading a buffer (30_encoding R64, 44_host R139, R140) -/

theorem exec_bufClear {dst : BitVec 4} {b : BufId} (hb : bufOf dst = some b) (s : State) :
    exec (.bufClear dst) s = .next ((s.replaceBuf b []).deliver ⟨.ok, 0⟩) :=
  withBuf_of_some hb s _

theorem exec_bufAppend {dst : BitVec 4} {b : BufId} (hb : bufOf dst = some b) {s : State}
    (hfit : overCap (capOf s.cfg b) ((s.buf b).length + 1) = false) (x : Byte) :
    exec (.bufAppend dst x) s = .next ((s.setBuf b (s.buf b ++ [x])).deliver ⟨.ok, (s.buf b).length + 1⟩) := by
  refine (withBuf_of_some hb s _).trans ?_
  rw [hfit]; rfl

/-- A second replacement of a buffer undoes the first, and the responses lie elsewhere. -/
theorem State.setBuf_deliver_setBuf (s : State) (b : BufId) (xs ys : List Byte) (p : Response) :
    ((s.setBuf b xs).deliver p).setBuf b ys = (s.setBuf b ys).deliver p := by
  cases b <;> rfl

/-- Appends that fit all answer `OK`, and put their bytes at the end of the buffer in order. -/
theorem runInstrs_bufAppend {dst : BitVec 4} {b : BufId} (hb : bufOf dst = some b) (bytes : List Byte) :
    ∀ s : State, overCap (capOf s.cfg b) ((s.buf b).length + bytes.length) = false →
      ∃ responses : List Response,
        runInstrs (bytes.map (Instr.bufAppend dst)) s =
          .next { s.setBuf b (s.buf b ++ bytes) with rsps := responses ++ s.rsps } ∧
        responses.length = bytes.length ∧ ∀ p ∈ responses, p.st = .ok := by
  induction bytes with
  | nil => intro s _; exact ⟨[], by cases b <;> simp [runInstrs, State.setBuf], rfl, by simp⟩
  | cons x rest ih =>
    intro s hfit
    have hone : overCap (capOf s.cfg b) ((s.buf b).length + 1) = false :=
      overCap_mono (by simp) hfit
    obtain ⟨responses, hrun, hlen, hok⟩ :=
      ih ((s.setBuf b (s.buf b ++ [x])).deliver ⟨.ok, (s.buf b).length + 1⟩)
        (by simpa [Nat.add_assoc, Nat.add_comm 1] using hfit)
    refine ⟨responses ++ [⟨.ok, (s.buf b).length + 1⟩], ?_, by simp [hlen], ?_⟩
    · rw [List.map_cons, runInstrs_cons (exec_bufAppend hb hone x), hrun, State.setBuf_deliver_setBuf]
      simp
    · simpa [or_imp, forall_and] using hok

/-- Settles O25: `BUF.CLEAR` empties the buffer, and the appends then fill it from the start. -/
theorem loadPseudoFillsBuffer : Obligations.LoadPseudoFillsBuffer := by
  refine ⟨rfl, fun s dst b bytes hb hfit => ⟨rfl, ?_⟩⟩
  obtain ⟨responses, hrun, hlen, hok⟩ :=
    runInstrs_bufAppend hb bytes ((s.replaceBuf b []).deliver ⟨.ok, 0⟩) (by simpa using hfit)
  refine ⟨responses ++ [⟨.ok, 0⟩], ?_, by simp [hlen], by simpa [or_imp, forall_and] using hok⟩
  rw [expandPseudo, runInstrs_cons (exec_bufClear hb s), hrun]
  cases b <;> simp [State.replaceBuf, State.setBuf, State.deliver]

end Sys2Proof.Machine
end

section
/-! PROOF. One command at the pins (30_encoding R66, 70_reset R185): the phases from its transfer to the transfer of its
response. -/

namespace Sys2Proof.Machine

/-! ### A command in the block -/

/-- An idle block accepts the command offered to it. -/
theorem Port.tick_of_idle {p : Port} {i : PortIn} (hidle : p.phase = .idle) (hrst : i.rst = false)
    (hvalid : i.cmdValid = true) :
    p.tick i = ⟨p.block, .waiting i.cmd (Config.latency p.accepted i.cmd p.block), p.accepted + 1⟩ := by
  simp [Port.tick, hidle, hrst, hvalid]

/-- A response transfers when the host is ready, and its command takes effect. -/
theorem Port.tick_of_done (s : State) (w : CmdWord) (accepted : Nat) {j : PortIn} (hrst : j.rst = false)
    (hready : j.rspReady = true) :
    (⟨s, .done w, accepted⟩ : Port).tick j = ⟨afterWord w s, .idle, accepted⟩ := by
  simp [Port.tick, hrst, hready]

/-- Cycles without reset, no more than the command still has, only count down. -/
theorem Port.ticks_waiting (s : State) (w : CmdWord) (accepted : Nat) :
    ∀ (wait : List PortIn) (left : Nat), (∀ j ∈ wait, j.rst = false) →
      (⟨s, .waiting w (wait.length + left), accepted⟩ : Port).ticks wait = ⟨s, .waiting w left, accepted⟩ := by
  intro wait
  induction wait with
  | nil => intro left _; rw [List.length_nil, Nat.zero_add]; rfl
  | cons j rest ih =>
    intro left hrst
    obtain ⟨hj, hrest⟩ := List.forall_mem_cons.1 hrst
    rw [List.length_cons, Nat.add_right_comm, Port.ticks, Laws.tick_waiting s w _ accepted j hj]
    exact ih left hrest

/-- With a command in the block no other is accepted (30_encoding R66). -/
theorem Port.cmdReady_waiting (s : State) (w : CmdWord) (left accepted : Nat) (j : PortIn) :
    (⟨s, .waiting w left, accepted⟩ : Port).cmdReady j = false := by
  simp [Port.cmdReady]

/-- Settles O59: the number of cycles is the free latency, which only counts down until the response is on the channel. -/
theorem transactionRunsOneCommand : Obligations.TransactionRunsOneCommand := by
  rintro p w i hidle hrst hvalid rfl
  refine ⟨Config.latency p.accepted i.cmd p.block, fun wait hlen hwait => ?_⟩
  rw [Port.tick_of_idle hidle hrst hvalid, ← hlen]
  have hdone := Port.ticks_waiting p.block i.cmd (p.accepted + 1) wait 0 hwait
  rw [Nat.add_zero, Laws.waiting_zero] at hdone
  refine ⟨rfl, fun k hk j => ?_, ?_⟩
  · have hcount := Port.ticks_waiting p.block i.cmd (p.accepted + 1) (wait.take k) (wait.length - k)
      fun j hj => hwait j (List.mem_of_mem_take hj)
    rw [List.length_take_of_le hk, Nat.add_sub_cancel' hk] at hcount
    rw [hcount]
    exact Port.cmdReady_waiting ..
  · rw [hdone]
    exact ⟨rfl, rfl, fun j => Port.tick_of_done _ _ _⟩

end Sys2Proof.Machine
end

section
/-! PROOF. Command words written out: a command's word decodes to it, a word with a must-be-zero bit at 1 is refused
(30_encoding R55, R60), and a command of format `Z` has one word. -/

namespace Sys2Proof.Machine

/-- The word of a well-formed command, written out, decodes to it. -/
theorem decode_of_encode_eq {i : Instr} {w : CmdWord} (hw : encode i = w) (hwf : i.wf = true := by rfl) :
    decode w = .ok i := hw ▸ decode_encode hwf

/-- Settles O5: each word is the encoding of its command. -/
theorem exampleWordsDecode : Obligations.ExampleWordsDecode := by
  refine ⟨?_, ?_, ?_, ?_, ?_, ?_, ?_⟩ <;> exact decode_of_encode_eq (by decide)

/-- A word with a must-be-zero bit at 1 is refused (30_encoding R58 step 3). -/
theorem execWord_of_mbz {w : CmdWord} {i : Instr} (hi : instrOf (opField w) (nField w) (dField w) = some i)
    (hmbz : ¬ mbzClear (formatOf i) (nField w) (dField w) = true) (s : State) :
    execWord w s = .next (s.deliver ⟨.eField, 0⟩) :=
  execWord_of_error (e := .reservedField) (by simp [decode_of_some hi, hmbz]) s

/-- An opcode whose commands all have the format `f` refuses the must-be-zero bits of `f` (30_encoding R60). -/
theorem refusesBits_of_format {op : BitVec 8} {f : Format}
    (h : ∀ n d, ∃ i, instrOf op n d = some i ∧ formatOf i = f) : RefusesBits op (mbzN f) (mbzD f) := by
  rintro w s rfl hbits
  obtain ⟨i, hi, rfl⟩ := h (nField w) (dField w)
  refine execWord_of_mbz hi (fun hmbz => ?_) s
  obtain ⟨hn, hd⟩ := (mbzClear_iff _ _ _).1 hmbz
  exact hbits.elim (absurd hn) (absurd hd)

/-- The opcode of a command of format `Z` selects it alone, whatever `n` and `d` hold. -/
theorem instrOf_of_formatZ {i : Instr} (hf : formatOf i = .Z) (n : BitVec 8) (d : BitVec 64) :
    instrOf (opcodeOf i) n d = some i := by
  cases i <;> cases hf <;> rfl

/-- Of a command of format `Z` every field but the opcode is 0. -/
theorem encode_of_formatZ {i : Instr} (hf : formatOf i = .Z) : encode i = mkWord (opcodeOf i) 0 0 := by
  cases i <;> cases hf <;> rfl

/-- A command of format `Z` has one word: any other word of its opcode has a must-be-zero bit at 1. -/
theorem hasOneWord_of_formatZ {i : Instr} {w : CmdWord} (hf : formatOf i = .Z) (hw : encode i = w)
    (hwf : i.wf = true := by rfl) : HasOneWord i w := by
  refine ⟨hw, decode_of_encode_eq hw hwf, fun v s hop hne => ?_⟩
  rw [← hw, encode_of_formatZ hf] at hop hne
  rw [opField_mkWord] at hop
  refine execWord_of_mbz (hop ▸ instrOf_of_formatZ hf _ _) (fun hmbz => hne ?_) s
  rw [hf] at hmbz
  obtain ⟨hn, hd⟩ := (mbzClear_iff _ _ _).1 hmbz
  exact eq_mkWord_iff.2 ⟨hop, (and_ones_n _).symm.trans hn, (and_ones_d _).symm.trans hd⟩

end Sys2Proof.Machine
end

section
/-! PROOF. The commands of the BitStream unit (40_bitstream R77 to R82): one equation for each way a command can end. The
checks of `BS.PUSH` and `BS.PULL` are premises, so that a later proof names the case it is in. -/

namespace Sys2Proof.Machine

/-! ### What a command of the unit leaves -/

/-- The low `n` bits of `v` written at the cursor, and the cursor moved behind them (R79). -/
def State.writeBits (s : State) (n v : Nat) : State :=
  { s with sb := streamWrite s.sb s.cur n v, cur := s.cur + n }

/-- The cursor moved by `m` (R80). -/
def State.advance (s : State) (m : Nat) : State := { s with cur := s.cur + m }

/-! ### `BS.CLEAR`, `BS.REWIND`, `BS.TELL` -/

theorem exec_bsClear (s : State) : exec .bsClear s = .next ({ s with sb := [], cur := 0 }.deliver ⟨.ok, 0⟩) := rfl

theorem exec_bsRewind (s : State) : exec .bsRewind s = .next ({ s with cur := 0 }.deliver ⟨.ok, 0⟩) := rfl

theorem exec_bsTell (s : State) : exec .bsTell s = .next (s.deliver ⟨.ok, s.cur⟩) := rfl

/-- Settles O26: format `Z`, and the three equations above. -/
theorem streamControlCommands : Obligations.StreamControlCommands :=
  ⟨hasOneWord_of_formatZ rfl (by decide), hasOneWord_of_formatZ rfl (by decide),
    hasOneWord_of_formatZ rfl (by decide), exec_bsClear, exec_bsRewind, exec_bsTell⟩

/-! ### `BS.PUSH` -/

section
variable {s : State} {v : BitVec 64} {n : BitVec 8}

theorem exec_bsPush_of_count (hn : maxBits < n.toNat) : exec (.bsPush v n) s = .next (s.deliver ⟨.eCount, 0⟩) := by
  simp [exec, execBsPush, hn]

theorem exec_bsPush_of_unmasked (hn : n.toNat ≤ maxBits) (hv : 2 ^ n.toNat ≤ v.toNat) :
    exec (.bsPush v n) s = .next (s.deliver ⟨.eUnmasked, 0⟩) := by
  simp [exec, execBsPush, hn.not_gt, hv]

theorem exec_bsPush_of_overCap (hn : n.toNat ≤ maxBits) (hv : v.toNat < 2 ^ n.toNat)
    (hc : overCap s.cfg.capSB (s.lenAfterWrite n.toNat) = true) :
    exec (.bsPush v n) s = .next (s.deliver ⟨.eCapacity, 0⟩) := by
  simp [exec, execBsPush, hn.not_gt, hv.not_ge, hc]

theorem exec_bsPush_ok (hn : n.toNat ≤ maxBits) (hv : v.toNat < 2 ^ n.toNat)
    (hc : overCap s.cfg.capSB (s.lenAfterWrite n.toNat) = false) :
    exec (.bsPush v n) s = .next ((s.writeBits n.toNat v.toNat).deliver ⟨.ok, s.cur + n.toNat⟩) := by
  simp [exec, execBsPush, hn.not_gt, hv.not_ge, hc, State.writeBits]

/-- Settles O28: each check fails after those before it have passed, and what is written is `StreamWrite` at the
cursor, whose length and bits 20_memory R37 gives. -/
theorem pushWritesItsBits : Obligations.PushWritesItsBits := by
  refine ⟨fun v n => ⟨rfl, decode_of_encode_eq (i := .bsPush v n) rfl⟩, fun s v n hcur => ?_⟩
  refine ⟨exec_bsPush_of_count, exec_bsPush_of_unmasked, exec_bsPush_of_overCap, fun hn hv hc => ?_⟩
  exact ⟨streamWrite s.sb s.cur n.toNat v.toNat, exec_bsPush_ok hn hv hc, streamWrite_length _ _ _ _ hcur,
    fun p => streamWrite_bitAt _ _ _ _ p hcur⟩

end

/-! ### `BS.PULL` -/

section
variable {s : State} {n : BitVec 8}

theorem exec_bsPull_of_count (hn : maxBits < n.toNat) : exec (.bsPull n) s = .next (s.deliver ⟨.eCount, 0⟩) := by
  simp [exec, execBsPull, hn]

/-- The bits asked for are there. -/
theorem exec_bsPull_ok (hn : n.toNat ≤ maxBits) (ha : n.toNat ≤ s.avail) :
    exec (.bsPull n) s = .next ((s.advance n.toNat).deliver ⟨.ok, streamRead s.sb s.cur n.toNat⟩) := by
  simp [exec, execBsPull, hn.not_gt, ha, Status.ofBool, State.advance]

/-- The stream ends before the bits asked for do. -/
theorem exec_bsPull_exhausted (hn : n.toNat ≤ maxBits) (ha : s.avail < n.toNat) :
    exec (.bsPull n) s = .next ((s.advance s.avail).deliver ⟨.sFalse, streamRead s.sb s.cur s.avail⟩) := by
  simp [exec, execBsPull, hn.not_gt, ha.not_ge, ha.le, Status.ofBool, State.advance]

end

theorem refusesBits_bsPull : RefusesBits 0x13 0 0xFFFFFFFFFFFFFFFF :=
  refusesBits_of_format (f := .PC) fun n _ => ⟨.bsPull n, rfl, rfl⟩

/-- Settles O29: the bits are all there or the stream ends before them; what is read is `StreamRead` at the cursor, whose
bits and bound 20_memory R38 gives. -/
theorem pullReadsWhatIsThere : Obligations.PullReadsWhatIsThere := by
  refine ⟨fun _ => rfl, refusesBits_bsPull, fun s n => ⟨exec_bsPull_of_count, fun hn => ?_⟩⟩
  refine ⟨streamRead s.sb s.cur (min n.toNat s.avail), ?_, streamRead_lt _ _ _, fun i hi => ?_⟩
  · by_cases ha : n.toNat ≤ s.avail
    · rw [← State.avail, if_pos ha, Nat.min_eq_left ha]
      exact exec_bsPull_ok hn ha
    · rw [← State.avail, if_neg ha, Nat.min_eq_right (Nat.le_of_not_le ha)]
      exact exec_bsPull_exhausted hn (Nat.lt_of_not_le ha)
  · have hi' : i < min n.toNat s.avail := hi
    rw [streamRead_testBit, decide_eq_true hi', Bool.true_and]

/-! ### `BS.GET` -/

theorem exec_bsGet_of_lt {s : State} (h : s.cur < 8 * s.sb.length) :
    exec .bsGet s = .next ((s.advance 1).deliver ⟨.ok, (bitAt s.sb s.cur).toNat⟩) := by
  simp [exec, execBsGet, h, State.advance]

theorem exec_bsGet_of_le {s : State} (h : 8 * s.sb.length ≤ s.cur) :
    exec .bsGet s = .next (s.deliver ⟨.ok, 0⟩) := by
  simp [exec, execBsGet, h.not_gt]

/-- A read of one bit is the bit. -/
theorem streamRead_one (bytes : List Byte) (c : Nat) : streamRead bytes c 1 = (bitAt bytes c).toNat := rfl

/-- `BitAt` as 00_scope R10 writes it. -/
theorem bitAt_toNat (bytes : List Byte) (p : Nat) :
    (bitAt bytes p).toNat = (bytes.getD (p / 8) 0).toNat / 2 ^ (p % 8) % 2 := by
  rw [← streamRead_one, ← byte_div_mod_eq_streamRead bytes (by omega), Nat.pow_one]

/-- Settles O27: the bit before the end, 0 from the end on. -/
theorem getReadsOneBit : Obligations.GetReadsOneBit :=
  ⟨hasOneWord_of_formatZ rfl (by decide), fun s h => bitAt_toNat s.sb s.cur ▸ exec_bsGet_of_lt h,
    fun _ => exec_bsGet_of_le⟩

/-- Settles O30: before the end one bit is available and both read it; from the end on none is, and neither command
moves the cursor. -/
theorem getAgreesWithPullOne : Obligations.GetAgreesWithPullOne := by
  intro s
  by_cases h : s.cur < 8 * s.sb.length
  · have ha : (1 : BitVec 8).toNat ≤ s.avail := Nat.le_sub_of_add_le' h
    rw [if_pos h]
    exact ⟨s.advance 1, _, exec_bsGet_of_lt h, exec_bsPull_ok (by decide) ha⟩
  · have ha : s.avail = 0 := Nat.sub_eq_zero_of_le (Nat.le_of_not_lt h)
    have hpull := exec_bsPull_exhausted (s := s) (n := 1) (by decide) (ha ▸ Nat.zero_lt_one)
    rw [if_neg h]
    rw [ha] at hpull
    exact ⟨s, 0, exec_bsGet_of_le (Nat.le_of_not_lt h), hpull⟩

end Sys2Proof.Machine
end

section
/-! PROOF. Sequences of pushes and of pulls (40_bitstream R83, R85): consecutive pushes are one push of the concatenated
value, and consecutive pulls take one read apart. -/

namespace Sys2Proof.Machine

/-! ### A push after a push (R85) -/

section
variable {s : State} (hcur : s.cur ≤ 8 * s.sb.length)
include hcur

theorem State.writeBits_sb_length (n v : Nat) : (s.writeBits n v).sb.length = s.lenAfterWrite n :=
  streamWrite_length _ _ _ _ hcur

/-- (I-1) of 10_state R29 after a push. -/
theorem State.writeBits_cur_le (n v : Nat) : (s.writeBits n v).cur ≤ 8 * (s.writeBits n v).sb.length := by
  rw [State.writeBits_sb_length hcur]
  exact cur_add_le_lenAfterWrite s n

/-- The length after two writes is the length after one write of as many bits. -/
theorem State.lenAfterWrite_writeBits (n1 v1 n2 : Nat) :
    (s.writeBits n1 v1).lenAfterWrite n2 = s.lenAfterWrite (n1 + n2) := by
  rw [State.lenAfterWrite, State.writeBits_sb_length hcur]
  simp only [State.lenAfterWrite, State.writeBits, ceil8]
  omega

/-- Two writes are one write of the concatenation (20_memory R40). -/
theorem State.writeBits_writeBits {n1 v1 : Nat} (hv1 : v1 < 2 ^ n1) (n2 v2 : Nat) :
    (s.writeBits n1 v1).writeBits n2 v2 = s.writeBits (n1 + n2) (v1 + v2 * 2 ^ n1) := by
  obtain ⟨hwrite, -⟩ := streamHasNoWidths
  simp only [State.writeBits, hwrite s.sb s.cur n1 n2 v1 v2 hcur hv1, Nat.add_assoc]

end

/-! ### A pull after a pull (R85) -/

theorem State.avail_advance (s : State) (m : Nat) : (s.advance m).avail = s.avail - m := Nat.sub_add_eq ..

theorem State.advance_advance (s : State) (m n : Nat) : (s.advance m).advance n = s.advance (m + n) := by
  simp only [State.advance, Nat.add_assoc]

/-! ### Two commands and the one command -/

theorem lenAfterWrite_mono (s : State) {m n : Nat} (h : m ≤ n) : s.lenAfterWrite m ≤ s.lenAfterWrite n := by
  unfold State.lenAfterWrite ceil8; omega

/-- The concatenation of two values has as many bits as both. -/
theorem concat_lt {n1 n2 v1 v2 : Nat} (hv1 : v1 < 2 ^ n1) (hv2 : v2 < 2 ^ n2) :
    v1 + v2 * 2 ^ n1 < 2 ^ (n1 + n2) :=
  calc
    v1 + v2 * 2 ^ n1 < (v2 + 1) * 2 ^ n1 := by rw [Nat.succ_mul]; omega
    _ ≤ 2 ^ n2 * 2 ^ n1 := Nat.mul_le_mul_right _ hv2
    _ = 2 ^ (n1 + n2) := by rw [Nat.add_comm, Nat.pow_add]

/-- Bit counts that fit one push are added without wrapping. -/
theorem toNat_add_bitCount {n1 n2 : BitVec 8} (h : n1.toNat + n2.toNat ≤ maxBits) :
    (n1 + n2).toNat = n1.toNat + n2.toNat := by
  rw [BitVec.toNat_add, Nat.mod_eq_of_lt (by unfold maxBits at h; omega)]

/-- The concatenation of two values, the first below `2^n`, comes apart in one way. -/
theorem concat_inj {n v1 v2 w1 w2 : Nat} (hv1 : v1 < 2 ^ n) (hw1 : w1 < 2 ^ n)
    (h : v1 + v2 * 2 ^ n = w1 + w2 * 2 ^ n) : v1 = w1 ∧ v2 = w2 := by
  have hlow : v1 = w1 := by
    calc
      v1 = (v1 + v2 * 2 ^ n) % 2 ^ n := by rw [Nat.add_mul_mod_self_right, Nat.mod_eq_of_lt hv1]
      _ = (w1 + w2 * 2 ^ n) % 2 ^ n := by rw [h]
      _ = w1 := by rw [Nat.add_mul_mod_self_right, Nat.mod_eq_of_lt hw1]
  exact ⟨hlow, Nat.eq_of_mul_eq_mul_right (Nat.two_pow_pos n) (by omega)⟩

/-- The one push of the concatenation, under the checks of the two pushes (R85). -/
theorem exec_bsPush_concat {s : State} {v1 v2 : BitVec 64} {n1 n2 : BitVec 8} (hn : n1.toNat + n2.toNat ≤ maxBits)
    (hv1 : v1.toNat < 2 ^ n1.toNat) (hv2 : v2.toNat < 2 ^ n2.toNat)
    (hc : overCap s.cfg.capSB (s.lenAfterWrite (n1.toNat + n2.toNat)) = false) :
    exec (.bsPush (BitVec.ofNat 64 (v1.toNat + v2.toNat * 2 ^ n1.toNat)) (n1 + n2)) s =
      .next ((s.writeBits (n1.toNat + n2.toNat) (v1.toNat + v2.toNat * 2 ^ n1.toNat)).deliver
        ⟨.ok, s.cur + (n1.toNat + n2.toNat)⟩) := by
  have hlt := concat_lt hv1 hv2
  have hcount := toNat_add_bitCount hn
  have hvalue : (BitVec.ofNat 64 (v1.toNat + v2.toNat * 2 ^ n1.toNat)).toNat = v1.toNat + v2.toNat * 2 ^ n1.toNat :=
    Nat.mod_eq_of_lt (hlt.trans_le (Nat.pow_le_pow_right (by decide) hn))
  have hpush := exec_bsPush_ok (s := s) (v := BitVec.ofNat 64 (v1.toNat + v2.toNat * 2 ^ n1.toNat)) (n := n1 + n2)
    (hcount ▸ hn) (by rw [hvalue, hcount]; exact hlt) (hcount ▸ hc)
  rwa [hvalue, hcount] at hpush

/-- Settles O31: both pushes pass their checks because the one push does, and write what it writes; the two pulls read
the low and the high part of the one read. -/
theorem pushesAndPullsConcatenate : Obligations.PushesAndPullsConcatenate := by
  refine ⟨fun s v1 v2 n1 n2 hcur hn hv1 hv2 hc => ?_, fun s n1 n2 hn hbits => ?_⟩
  · have hc1 := overCap_mono (lenAfterWrite_mono s (Nat.le_add_right n1.toNat n2.toNat)) hc
    have hc2 : overCap s.cfg.capSB ((s.writeBits n1.toNat v1.toNat).lenAfterWrite n2.toNat) = false := by
      rw [State.lenAfterWrite_writeBits hcur]; exact hc
    have hpush1 := exec_bsPush_ok ((Nat.le_add_right _ _).trans hn) hv1 hc1
    have hpush2 := exec_bsPush_ok (s := s.writeBits n1.toNat v1.toNat) ((Nat.le_add_left _ _).trans hn) hv2 hc2
    rw [State.writeBits_writeBits hcur hv1] at hpush2
    exact ⟨_, _, _, _, _, hpush1, rfl, hpush2, exec_bsPush_concat hn hv1 hv2 hc⟩
  · have hcount := toNat_add_bitCount hn
    have ha1 : n1.toNat ≤ s.avail := by unfold State.avail; omega
    have ha2 : n2.toNat ≤ (s.advance n1.toNat).avail := by rw [State.avail_advance]; unfold State.avail; omega
    have ha : (n1 + n2).toNat ≤ s.avail := by unfold State.avail; omega
    have hpull1 := exec_bsPull_ok ((Nat.le_add_right _ _).trans hn) ha1
    have hpull2 := exec_bsPull_ok ((Nat.le_add_left _ _).trans hn) ha2
    have hpull := exec_bsPull_ok (hcount ▸ hn) ha
    rw [hcount, streamRead_add] at hpull
    rw [State.advance_advance] at hpull2
    exact ⟨_, _, _, _, hpull1, rfl, hpull2, hpull⟩

/-! ### Any number of fields (R83) -/

/-- A value and its bit count, as `BS.PUSH` takes them. -/
abbrev Field := BitVec 64 × BitVec 8

/-- `BS.PUSH` accepts the field, where there is room for it (R79). -/
def Field.fits (f : Field) : Prop := f.2.toNat ≤ maxBits ∧ f.1.toNat < 2 ^ f.2.toNat

/-- How many bits the fields have together. -/
def fieldsBits (fields : List Field) : Nat := (fields.map fun f => f.2.toNat).sum

/-- The concatenation of the fields, the first one lowest. -/
def fieldsValue : List Field → Nat
  | [] => 0
  | f :: rest => f.1.toNat + fieldsValue rest * 2 ^ f.2.toNat

theorem fieldsBits_cons (f : Field) (rest : List Field) :
    fieldsBits (f :: rest) = f.2.toNat + fieldsBits rest := List.sum_cons

theorem fieldsValue_lt {fields : List Field} (h : ∀ f ∈ fields, f.fits) :
    fieldsValue fields < 2 ^ fieldsBits fields := by
  induction fields with
  | nil => exact Nat.one_pos
  | cons f rest ih =>
    obtain ⟨⟨-, hv⟩, hrest⟩ := List.forall_mem_cons.1 h
    rw [fieldsValue, fieldsBits_cons]
    exact concat_lt hv (ih hrest)

/-- Fields pushed in order are one write of their concatenation; each push answers `OK`. -/
theorem runInstrs_bsPush (fields : List Field) : ∀ s : State, s.cur ≤ 8 * s.sb.length → (∀ f ∈ fields, f.fits) →
    overCap s.cfg.capSB (s.lenAfterWrite (fieldsBits fields)) = false →
    ∃ pushed : List Response,
      runInstrs (fields.map fun f => .bsPush f.1 f.2) s =
        .next { s.writeBits (fieldsBits fields) (fieldsValue fields) with rsps := pushed ++ s.rsps } ∧
      pushed.length = fields.length ∧ ∀ p ∈ pushed, p.st = .ok := by
  induction fields with
  | nil => intro s _ _ _; exact ⟨[], rfl, rfl, by simp⟩
  | cons f rest ih =>
    intro s hcur hfits hc
    obtain ⟨⟨hn, hv⟩, hrest⟩ := List.forall_mem_cons.1 hfits
    rw [fieldsBits_cons] at hc ⊢
    have hc1 := overCap_mono (lenAfterWrite_mono s (Nat.le_add_right f.2.toNat (fieldsBits rest))) hc
    have hc2 : overCap s.cfg.capSB ((s.writeBits f.2.toNat f.1.toNat).lenAfterWrite (fieldsBits rest)) = false := by
      rw [State.lenAfterWrite_writeBits hcur]; exact hc
    obtain ⟨pushed, hrun, hlen, hok⟩ := ih ((s.writeBits f.2.toNat f.1.toNat).deliver ⟨.ok, s.cur + f.2.toNat⟩)
      (State.writeBits_cur_le hcur _ _) hrest hc2
    refine ⟨pushed ++ [⟨.ok, s.cur + f.2.toNat⟩], ?_, by simp [hlen], by simpa [or_imp, forall_and] using hok⟩
    rw [List.map_cons, runInstrs_cons (exec_bsPush_ok hn hv hc1), hrun, fieldsValue,
      ← State.writeBits_writeBits hcur hv]
    simp [State.deliver, State.writeBits]

/-- The concatenation of the fields, pulled with their bit counts, comes apart into the fields. -/
theorem runInstrs_bsPull (fields : List Field) : ∀ s : State, (∀ f ∈ fields, f.fits) →
    s.cur + fieldsBits fields ≤ 8 * s.sb.length → streamRead s.sb s.cur (fieldsBits fields) = fieldsValue fields →
    runInstrs (fields.map fun f => .bsPull f.2) s =
      .next { s.advance (fieldsBits fields) with
        rsps := (fields.map fun f => ⟨.ok, f.1.toNat⟩).reverse ++ s.rsps } := by
  induction fields with
  | nil => intro s _ _ _; rfl
  | cons f rest ih =>
    intro s hfits hbits hread
    obtain ⟨⟨hn, hv⟩, hrest⟩ := List.forall_mem_cons.1 hfits
    rw [fieldsBits_cons] at hbits hread ⊢
    rw [streamRead_add, fieldsValue] at hread
    obtain ⟨hfirst, hothers⟩ := concat_inj (streamRead_lt _ _ _) hv hread
    have ha : f.2.toNat ≤ s.avail := by unfold State.avail; omega
    rw [List.map_cons, runInstrs_cons (exec_bsPull_ok hn ha), hfirst,
      ih _ hrest (by simpa [State.advance, Nat.add_assoc] using hbits) hothers]
    simp [State.deliver, State.advance, Nat.add_assoc]

/-- Settles O32: the pushes write the concatenation of the fields into the empty stream, and the pulls read it back from
position 0. -/
theorem pushPullRoundTrip : Obligations.PushPullRoundTrip := by
  intro s fields hsb hcur hfits _ hc
  have hstart : s.cur ≤ 8 * s.sb.length := hcur ▸ Nat.zero_le _
  have hend : s.cur + fieldsBits fields = fieldsBits fields := by rw [hcur, Nat.zero_add]
  have hlen : s.lenAfterWrite (fieldsBits fields) = ceil8 (fieldsBits fields) := by
    simp [State.lenAfterWrite, hsb, hend]
  obtain ⟨pushed, hpush, hcount, hok⟩ := runInstrs_bsPush fields s hstart hfits (hlen ▸ hc)
  have hsblen := (State.writeBits_sb_length hstart (fieldsBits fields) (fieldsValue fields)).trans hlen
  have hread : streamRead (s.writeBits (fieldsBits fields) (fieldsValue fields)).sb 0 (fieldsBits fields) =
      fieldsValue fields := hcur ▸ streamRead_streamWrite s.sb s.cur _ _ hstart (fieldsValue_lt hfits)
  refine ⟨_, pushed, _, hpush, rfl, hcount, hok, hend, hsblen, fun p hp => ?_,
    (runInstrs_cons (exec_bsRewind _) _).trans (runInstrs_bsPull fields _ hfits ?_ hread), rfl, Nat.zero_add _, rfl⟩
  · have hbeyond : ¬ (s.cur ≤ p ∧ p < s.cur + fieldsBits fields) := fun h => (hend ▸ h.2).not_ge hp
    refine (streamWrite_bitAt _ _ _ _ p hstart).trans ?_
    rw [if_neg hbeyond, hsb]
    exact bitAt_of_length_le (Nat.zero_le _)
  · calc
      0 + fieldsBits fields = fieldsBits fields := Nat.zero_add _
      _ ≤ 8 * ceil8 (fieldsBits fields) := le_eight_mul_ceil8 _
      _ = 8 * (s.writeBits (fieldsBits fields) (fieldsValue fields)).sb.length := by rw [hsblen]

end Sys2Proof.Machine
end

section
/-! PROOF. No 1 bit beyond the cursor (40_bitstream R76): a write leaves the bits beyond the new cursor as they were, and
a read only moves the cursor on. -/

namespace Sys2Proof.Machine

/-- `Free` in terms of all positions: beyond the end of the stream there is no 1 bit. -/
theorem free_iff (s : State) : Free s ↔ ∀ p, s.cur ≤ p → bitAt s.sb p = false := by
  refine ⟨fun h p hp => ?_, fun h p hp _ => h p hp⟩
  by_cases hlt : p < 8 * s.sb.length
  · exact h p hp hlt
  · exact bitAt_of_length_le (Nat.le_of_not_lt hlt)

theorem free_of_sb_nil {s : State} (h : s.sb = []) : Free s := by
  intro p _ hp
  simp [h] at hp

/-- The cursor did not go back, and the bits beyond it are as they were. -/
theorem Free.of_bitAt {s t : State} (h : Free s) (hcur : s.cur ≤ t.cur)
    (hbits : ∀ p, t.cur ≤ p → bitAt t.sb p = bitAt s.sb p) : Free t :=
  (free_iff t).2 fun p hp => (hbits p hp).trans ((free_iff s).1 h p (hcur.trans hp))

/-- A write of `n` bits at the cursor changes no bit beyond the cursor it leaves (20_memory R37). -/
theorem streamWrite_bitAt_beyond {bytes : List Byte} {c n p : Nat} (hc : c ≤ 8 * bytes.length) (hp : c + n ≤ p)
    (v : Nat) : bitAt (streamWrite bytes c n v) p = bitAt bytes p := by
  rw [streamWrite_bitAt _ _ _ _ _ hc, if_neg fun h => h.2.not_ge hp]

/-- A packed bank changes no bit beyond the cursor it leaves (41_bmap R100). -/
theorem packTiles_bitAt_beyond {bytes : List Byte} {c p : Nat} {tiles : List Tile} (hc : c ≤ 8 * bytes.length)
    (hp : c + 64 * tiles.length ≤ p) : bitAt (packTiles bytes c tiles) p = bitAt bytes p := by
  rw [packTiles_bitAt _ _ _ _ hc, if_neg fun h => h.2.not_ge hp]

/-- The commands that R76 names: those that write or read at the cursor. -/
def AtCursor (i : Instr) : Prop :=
  (∃ v n, i = .bsPush v n) ∨ (∃ k, i = .bmPack k) ∨ (∃ n, i = .bsPull n) ∨ i = .bsGet ∨ ∃ k, i = .bmUnpack k

theorem Effect.free {i : Instr} {s t : State} {p : Response} (h : Effect s i t p) (hi : AtCursor i)
    (hcur : s.cur ≤ 8 * s.sb.length) (hfree : Free s) : Free t := by
  cases h with
  | refused | observed => exact hfree
  | bsPush => exact hfree.of_bitAt (Nat.le_add_right ..) fun _ hp => streamWrite_bitAt_beyond hcur hp _
  | bmPack => exact hfree.of_bitAt (Nat.le_add_right ..) fun _ hp => packTiles_bitAt_beyond hcur hp
  | bsPull | bsGet => exact hfree.of_bitAt (Nat.le_add_right ..) fun _ _ => rfl
  | bmUnpack => exact hfree.of_bitAt (Nat.le_add_right ..) fun _ _ => by rw [State.setBank_sb]
  | bsClear | bsRewind | bmConfig | bmSet | bmClear | rlEnc | rlDec | dnConfig | dnDelta | dnCheck | dnRecode
  | bufClear | bufAppend => simp [AtCursor] at hi

/-- Settles O33: an empty stream has no bits, and the effects of the five commands keep `Free`. -/
theorem freeBitsPreserved : Obligations.FreeBitsPreserved := by
  refine ⟨free_of_sb_nil rfl, fun s t h => ?_, fun i s t hi hcur hfree h => ?_⟩
  · obtain rfl := Host.Outcome.next.inj ((exec_bsClear s).symm.trans h)
    exact free_of_sb_nil rfl
  · obtain ⟨u, p, rfl, heff⟩ := exec_cases h
    exact heff.free hi hcur hfree

end Sys2Proof.Machine
end

section
/-! PROOF. The Morton table (41_bmap R91, R106): it interleaves the bits of the two coordinates inside a tile, and from
that it is injective, a permutation of the 64 positions, and nested. -/

namespace Sys2Proof.Machine

/-- Settles O36: the 64 entries as R91 prints them. -/
theorem mortonInterleavesBits : Obligations.MortonInterleavesBits := by
  unfold Obligations.MortonInterleavesBits
  exact ⟨rfl, by decide⟩

section
variable {lx ly : Nat} (hx : lx < 8) (hy : ly < 8)
include hx hy

theorem morton_interleave :
    morton (ly * 8 + lx) = lx % 2 + 2 * (ly % 2) + 4 * (lx / 2 % 2) + 8 * (ly / 2 % 2) + 16 * (lx / 4 % 2) +
      32 * (ly / 4 % 2) := mortonInterleavesBits.2 lx hx ly hy

theorem morton_lt : morton (ly * 8 + lx) < 64 := by
  rw [morton_interleave hx hy]
  omega

end

/-- The even bits of a position are one coordinate, the odd bits the other. -/
theorem morton_deinterleave :
    ∀ lx < 8, ∀ ly < 8, let p := morton (ly * 8 + lx)
      lx = p % 2 + 2 * (p / 4 % 2) + 4 * (p / 16 % 2) ∧ ly = p / 2 % 2 + 2 * (p / 8 % 2) + 4 * (p / 32 % 2) := by
  decide

theorem morton_inj {lx ly lx' ly' : Nat} (hx : lx < 8) (hy : ly < 8) (hx' : lx' < 8) (hy' : ly' < 8)
    (h : morton (ly * 8 + lx) = morton (ly' * 8 + lx')) : lx = lx' ∧ ly = ly' := by
  obtain ⟨hlx, hly⟩ := morton_deinterleave lx hx ly hy
  obtain ⟨hlx', hly'⟩ := morton_deinterleave lx' hx' ly' hy'
  rw [h] at hlx hly
  exact ⟨hlx.trans hlx'.symm, hly.trans hly'.symm⟩

theorem morton_perm : ((List.range 64).map morton).Perm (List.range 64) := by
  have hsplit : ∀ i ∈ List.range 64, i = i / 8 * 8 + i % 8 ∧ i % 8 < 8 ∧ i / 8 < 8 := by
    intro i hi
    rw [List.mem_range] at hi
    omega
  have hnodup : ((List.range 64).map morton).Nodup := by
    refine List.Nodup.map_on (fun i hi j hj h => ?_) List.nodup_range
    obtain ⟨hi, hi1, hi2⟩ := hsplit i hi
    obtain ⟨hj, hj1, hj2⟩ := hsplit j hj
    rw [hi, hj] at h
    have := morton_inj hi1 hi2 hj1 hj2 h
    omega
  have hsub : (List.range 64).map morton ⊆ List.range 64 := by
    intro p hp
    obtain ⟨i, hi, rfl⟩ := List.mem_map.1 hp
    obtain ⟨hi, hi1, hi2⟩ := hsplit i hi
    rw [List.mem_range, hi]
    exact morton_lt hi1 hi2
  exact (List.subperm_of_subset hnodup hsub).perm_of_length_le (by simp)

/-- Self-similarity: which block of side `side` a point lies in is its Morton position among the blocks. -/
theorem morton_block :
    ∀ side ∈ [2, 4, 8], ∀ a < 8 / side, ∀ b < 8 / side, ∀ i < side, ∀ j < side,
      morton ((b * side + j) * 8 + (a * side + i)) / (side * side) = morton (b * 8 + a) := by
  decide

/-- There are `64 / side²` blocks of side `side`, and the Morton table numbers them from 0. -/
theorem morton_block_lt :
    ∀ side ∈ [2, 4, 8], ∀ a < 8 / side, ∀ b < 8 / side, morton (b * 8 + a) < 64 / (side * side) := by
  decide

/-- Settles O37: the consecutive positions of a block are those whose quotient is the block's own position. -/
theorem mortonPermutesAndNests : Obligations.MortonPermutesAndNests :=
  ⟨morton_perm, fun side hside a ha b hb =>
    ⟨morton (b * 8 + a), morton_block_lt side hside a ha b hb, morton_block side hside a ha b hb⟩⟩

end Sys2Proof.Machine
end

section
/-! PROOF. One point of a bitmap (41_bmap R90, R92): the tile and the position of a point determine it, so a write of
one bit changes no other point of the tile grid, padding included. -/

namespace Sys2Proof.Machine

/-! ### Where a point lies -/

section
variable {m : Bank} {x y x' y' : BitVec 32}

/-- The tile grid covers the bitmap (R90). -/
theorem Bank.covers_of_inRange (h : m.inRange x y = true) : m.covers x y := by
  obtain ⟨hx, hy⟩ := (inRange_iff m x y).1 h
  constructor <;> unfold ceil8 <;> omega

theorem tileIndex_lt (h : m.covers x y) : tileIndex m.bw x y < tileCount m.bw m.bh := by
  obtain ⟨hx, hy⟩ := h
  calc tileIndex m.bw x y
    _ < ceil8 m.bw.toNat * (y.toNat / 8) + ceil8 m.bw.toNat := Nat.add_lt_add_left hx _
    _ = ceil8 m.bw.toNat * (y.toNat / 8 + 1) := rfl
    _ ≤ tileCount m.bw m.bh := Nat.mul_le_mul_left _ hy

/-- Tiles are numbered row by row, so a tile's index gives its row and its column. -/
theorem tileIndex_inj (h : m.covers x y) (h' : m.covers x' y') (ht : tileIndex m.bw x y = tileIndex m.bw x' y') :
    x.toNat / 8 = x'.toNat / 8 ∧ y.toNat / 8 = y'.toNat / 8 := by
  have hcol {u v : BitVec 32} (hc : m.covers u v) : tileIndex m.bw u v % ceil8 m.bw.toNat = u.toNat / 8 := by
    rw [tileIndex, Nat.mul_add_mod, Nat.mod_eq_of_lt hc.1]
  have hrow {u v : BitVec 32} (hc : m.covers u v) : tileIndex m.bw u v / ceil8 m.bw.toNat = v.toNat / 8 := by
    rw [tileIndex, Nat.mul_add_div (Nat.zero_lt_of_lt hc.1), Nat.div_eq_of_lt hc.1, Nat.add_zero]
  exact ⟨by rw [← hcol h, ht, hcol h'], by rw [← hrow h, ht, hrow h']⟩

theorem bitPos_lt (x y : BitVec 32) : bitPos x y < 64 :=
  morton_lt (Nat.mod_lt _ (by decide)) (Nat.mod_lt _ (by decide))

/-- Two points of the tile grid in the same tile at the same position are the same point. -/
theorem point_ext (h : m.covers x y) (h' : m.covers x' y') (ht : tileIndex m.bw x y = tileIndex m.bw x' y')
    (hp : bitPos x y = bitPos x' y') : x = x' ∧ y = y' := by
  obtain ⟨hx, hy⟩ := tileIndex_inj h h' ht
  obtain ⟨hx8, hy8⟩ := morton_inj (Nat.mod_lt _ (by decide)) (Nat.mod_lt _ (by decide)) (Nat.mod_lt _ (by decide))
    (Nat.mod_lt _ (by decide)) hp
  exact ⟨BitVec.eq_of_toNat_eq (by omega), BitVec.eq_of_toNat_eq (by omega)⟩

end

/-! ### One bit of a tile -/

/-- A tile word with the bit at position `p` replaced by `b` (R95, R96). -/
def tileSetBit (w : Tile) (p : Nat) (b : Bool) : Tile := if b then w ||| posMask p else w &&& ~~~ posMask p

theorem tileSetBit_getLsbD (w : Tile) (p j : Nat) (b : Bool) (hj : j < 64) :
    (tileSetBit w p b).getLsbD j = if j = p then b else w.getLsbD j := by
  by_cases h : p = j
  · subst h; cases b <;> simp [tileSetBit, posMask, hj]
  · have h' : ¬ j = p := fun e => h e.symm
    cases b <;> simp [tileSetBit, posMask, hj, h']

/-- A tile bit as a number: the quotient by its weight is odd (R92). -/
theorem getLsbD_toNat (w : Tile) (p : Nat) : (w.getLsbD p).toNat = w.toNat / 2 ^ p % 2 :=
  Nat.toNat_testBit w.toNat p

/-! ### One point of a bank -/

/-- The bank with the bit of `(x, y)` replaced by `v`: what `BM.SET` and `BM.CLEAR` leave (R95, R96). -/
def Bank.writeXY (m : Bank) (x y : BitVec 32) (v : Bool) : Bank :=
  m.modifyTile (tileIndex m.bw x y) fun w => tileSetBit w (bitPos x y) v

section
variable (m : Bank) (x y : BitVec 32) (v : Bool)

@[simp] theorem Bank.writeXY_bw : (m.writeXY x y v).bw = m.bw := rfl

@[simp] theorem Bank.writeXY_bh : (m.writeXY x y v).bh = m.bh := rfl

@[simp] theorem Bank.writeXY_tiles_length : (m.writeXY x y v).tiles.length = m.tiles.length := List.length_modify ..

theorem Bank.writeXY_shape : (m.writeXY x y v).bw = m.bw ∧ (m.writeXY x y v).bh = m.bh ∧
    (m.writeXY x y v).tiles.length = m.tiles.length :=
  ⟨rfl, rfl, m.writeXY_tiles_length x y v⟩

end

/-- A write of one point is read back there, and every other point of the tile grid reads as before. -/
theorem Bank.writeXY_bitXY {m : Bank} {x y x' y' : BitVec 32} (hlen : m.tiles.length = tileCount m.bw m.bh)
    (h : m.covers x y) (h' : m.covers x' y') (v : Bool) :
    (m.writeXY x y v).bitXY x' y' = if x' = x ∧ y' = y then v else m.bitXY x' y' := by
  have ht' : tileIndex m.bw x' y' < m.tiles.length := hlen ▸ tileIndex_lt h'
  simp only [Bank.bitXY, Bank.writeXY, Bank.modifyTile, List.getD_eq_getElem?_getD, List.getElem?_modify,
    List.getElem?_eq_getElem ht']
  by_cases ht : tileIndex m.bw x y = tileIndex m.bw x' y'
  · have hpoint : bitPos x' y' = bitPos x y ↔ x' = x ∧ y' = y :=
      ⟨fun hp => point_ext h' h ht.symm hp, fun ⟨hx, hy⟩ => by rw [hx, hy]⟩
    simp [ht, tileSetBit_getLsbD _ _ _ _ (bitPos_lt x' y'), hpoint]
  · have hne : ¬ (x' = x ∧ y' = y) := fun ⟨hx, hy⟩ => ht (by rw [hx, hy])
    simp [ht, hne]

/-! ### Padding (R104) -/

theorem Bank.paddingClear_zero (width height : BitVec 32) (n : Nat) :
    Bank.paddingClear ⟨width, height, List.replicate n 0⟩ := by
  intro x y _ _
  rw [Bank.bitXY, List.getD_eq_getElem?_getD, List.getElem?_getD_replicate_default_eq]
  exact BitVec.getLsbD_zero

/-- A write inside the bitmap reaches no padding bit. -/
theorem Bank.paddingClear_writeXY {m : Bank} (h : m.paddingClear) (hlen : m.tiles.length = tileCount m.bw m.bh)
    {x y : BitVec 32} (hr : m.inRange x y = true) (v : Bool) : (m.writeXY x y v).paddingClear := by
  intro x' y' hcov hpad
  have hne : ¬ (x' = x ∧ y' = y) := by
    rintro ⟨rfl, rfl⟩
    exact Bool.noConfusion (hr.symm.trans hpad)
  rw [Bank.writeXY_bitXY hlen (Bank.covers_of_inRange hr) hcov, if_neg hne]
  exact h x' y' hcov hpad

end Sys2Proof.Machine
end

section
/-! PROOF. The commands of the BMap unit on one bank and its points (41_bmap R93 to R99, R102): one equation for each
way a command can end. -/

namespace Sys2Proof.Machine

/-! ### Banks -/

theorem bankOf_of_reserved {k : BitVec 4} (h : 2 ≤ k.toNat) : bankOf k = none := by
  rw [bankOf_eq_none_iff]
  exact decide_eq_false h.not_gt

/-- An id that names no bank is refused before any other check (30_encoding R60, 60_exceptions R151). -/
theorem withBank_of_reserved {k : BitVec 4} (h : 2 ≤ k.toNat) (s : State) (f : BankId → Outcome) :
    withBank s k f = .next (s.deliver ⟨.eField, 0⟩) :=
  withBank_of_none (bankOf_of_reserved h) s f

/-- (I-3) of 10_state R29. -/
theorem AtRest.tiles_length {s : State} (h : AtRest s) (b : BankId) :
    (s.bank b).tiles.length = ceil8 (s.bank b).bw.toNat * ceil8 (s.bank b).bh.toNat :=
  (Bank.wf_iff.1 (h.bank_wf b)).1

/-- A bank of the dimensions of one that is there fits (I-3). -/
theorem AtRest.tileCount_fits {s : State} (h : AtRest s) (b : BankId) :
    overCap s.cfg.tileCap (tileCount (s.bank b).bw (s.bank b).bh) = false := by
  obtain ⟨hlen, hfits⟩ := Bank.wf_iff.1 (h.bank_wf b)
  exact hlen ▸ hfits

/-! ### `BM.CONFIG` -/

section
variable {s : State} {k : BitVec 4} {b : BankId} (hk : bankOf k = some b)
include hk

/-- A bank with no tile set, as `BM.CONFIG` constructs it. -/
theorem exec_bmConfig_ok {width height : BitVec 32} (hc : overCap s.cfg.tileCap (tileCount width height) = false) :
    exec (.bmConfig k width height) s =
      .next ((s.setBank b ⟨width, height, List.replicate (tileCount width height) 0⟩).deliver
        ⟨.ok, tileCount width height⟩) := by
  simp [exec, execBmConfig, withBank_of_some hk, hc]

theorem exec_bmConfig_of_overCap {width height : BitVec 32}
    (hc : overCap s.cfg.tileCap (tileCount width height) = true) :
    exec (.bmConfig k width height) s = .next (s.deliver ⟨.eCapacity, 0⟩) := by
  simp [exec, execBmConfig, withBank_of_some hk, hc]

/-! ### `BM.BIT`, `BM.SET`, `BM.CLEAR` -/

variable {x y : BitVec 32}

theorem exec_bmBit_of_inRange (hr : (s.bank b).inRange x y = true) :
    exec (.bmBit k x y) s = .next (s.deliver ⟨.ok, ((s.bank b).bitXY x y).toNat⟩) :=
  withPoint_of_inRange hk hr _

theorem exec_bmBit_of_outOfRange (hr : (s.bank b).inRange x y = false) :
    exec (.bmBit k x y) s = .next (s.deliver ⟨.eRange, 0⟩) :=
  withPoint_of_outOfRange hk hr _

theorem exec_bmSet_of_inRange (hr : (s.bank b).inRange x y = true) :
    exec (.bmSet k x y) s = .next ((s.setBank b ((s.bank b).writeXY x y true)).deliver ⟨.ok, 0⟩) :=
  withPoint_of_inRange hk hr _

theorem exec_bmSet_of_outOfRange (hr : (s.bank b).inRange x y = false) :
    exec (.bmSet k x y) s = .next (s.deliver ⟨.eRange, 0⟩) :=
  withPoint_of_outOfRange hk hr _

theorem exec_bmClear_of_inRange (hr : (s.bank b).inRange x y = true) :
    exec (.bmClear k x y) s = .next ((s.setBank b ((s.bank b).writeXY x y false)).deliver ⟨.ok, 0⟩) :=
  withPoint_of_inRange hk hr _

theorem exec_bmClear_of_outOfRange (hr : (s.bank b).inRange x y = false) :
    exec (.bmClear k x y) s = .next (s.deliver ⟨.eRange, 0⟩) :=
  withPoint_of_outOfRange hk hr _

/-! ### `BM.DSIZE`, `BM.GETSIZE`, `BM.RDTILE` -/

theorem exec_bmDsize (s : State) :
    exec (.bmDsize k) s = .next (s.deliver ⟨.ok, 8 * (s.bank b).tiles.length⟩) :=
  withBank_of_some hk s _

theorem exec_bmGetsize (s : State) :
    exec (.bmGetsize k) s = .next (s.deliver ⟨.ok, (s.bank b).bh.toNat * 2 ^ 32 + (s.bank b).bw.toNat⟩) :=
  withBank_of_some hk s _

theorem exec_bmRdtile_of_lt {t : BitVec 64} (ht : t.toNat < (s.bank b).tiles.length) :
    exec (.bmRdtile k t) s = .next (s.deliver ⟨.ok, ((s.bank b).tiles.getD t.toNat 0).toNat⟩) := by
  simp [exec, execBmRdtile, withBank_of_some hk, ht]

theorem exec_bmRdtile_of_le {t : BitVec 64} (ht : (s.bank b).tiles.length ≤ t.toNat) :
    exec (.bmRdtile k t) s = .next (s.deliver ⟨.eRange, 0⟩) := by
  simp [exec, execBmRdtile, withBank_of_some hk, ht]

end

/-! ### `BM.CMP` -/

section
variable {s : State} {a b : BitVec 4} {ka kb : BankId} (ha : bankOf a = some ka) (hb : bankOf b = some kb)
include ha hb

theorem exec_bmCmp_of_eq (h : (s.bank ka).tiles = (s.bank kb).tiles) :
    exec (.bmCmp a b) s = .next (s.deliver ⟨.ok, 1⟩) := by
  simp [exec, execBmCmp, withBank_of_some ha, withBank_of_some hb, h]

theorem exec_bmCmp_of_ne (h : (s.bank ka).tiles ≠ (s.bank kb).tiles) :
    exec (.bmCmp a b) s = .next (s.deliver ⟨.sFalse, 0⟩) := by
  simp [exec, execBmCmp, withBank_of_some ha, withBank_of_some hb, h]

end

theorem exec_bmCmp_of_reserved {a b : BitVec 4} (h : 2 ≤ a.toNat ∨ 2 ≤ b.toNat) (s : State) :
    exec (.bmCmp a b) s = .next (s.deliver ⟨.eField, 0⟩) := by
  cases ha : bankOf a with
  | none => exact withBank_of_none ha s _
  | some ka =>
    have hb : 2 ≤ b.toNat := h.resolve_left fun hres => by simp [bankOf_of_reserved hres] at ha
    exact (withBank_of_some ha s _).trans (withBank_of_reserved hb s _)

/-- Tile arrays are equal when they have the same length and the same words (R99). -/
theorem tiles_eq_iff {ta tb : List Tile} :
    ta = tb ↔ ta.length = tb.length ∧ ∀ t < ta.length, ta.getD t 0 = tb.getD t 0 := by
  refine ⟨fun h => h ▸ ⟨rfl, fun _ _ => rfl⟩, fun ⟨hlen, hword⟩ => List.ext_getElem hlen fun t h h' => ?_⟩
  simpa [h, h'] using hword t h

/-! ### The statements -/

/-- Settles O40: the two commands write one point, and a write of one point is read back there alone. -/
theorem setAndClearChangeOneBit : Obligations.SetAndClearChangeOneBit := by
  refine ⟨fun _ _ _ => ⟨rfl, rfl⟩, refusesBits_of_format (f := .KXY) fun _ _ => ⟨_, rfl, rfl⟩,
    refusesBits_of_format (f := .KXY) fun _ _ => ⟨_, rfl, rfl⟩,
    fun s k x y h => ⟨withBank_of_reserved h s _, withBank_of_reserved h s _⟩, fun s k b x y hk =>
      ⟨fun hr => ⟨exec_bmSet_of_outOfRange hk hr, exec_bmClear_of_outOfRange hk hr⟩, fun hrest hr => ?_⟩⟩
  have hread {x' y' : BitVec 32} (hcov : (s.bank b).covers x' y') (v : Bool) :=
    Bank.writeXY_bitXY (hrest.tiles_length b) (Bank.covers_of_inRange hr) hcov v
  exact ⟨_, _, exec_bmSet_of_inRange hk hr, exec_bmClear_of_inRange hk hr, Bank.writeXY_shape .., Bank.writeXY_shape ..,
    fun x' y' hcov => ⟨hread hcov true, hread hcov false⟩⟩

/-- One bank's padding after a write of one point in any bank. -/
theorem paddingClear_setBank_writeXY {s : State} {b c : BankId} {x y : BitVec 32} (hrest : AtRest s)
    (hpad : (s.bank b).paddingClear) (hr : (s.bank c).inRange x y = true) (v : Bool) :
    ((s.setBank c ((s.bank c).writeXY x y v)).bank b).paddingClear := by
  by_cases hbc : b = c
  · subst hbc
    rw [State.setBank_bank_same]
    exact Bank.paddingClear_writeXY hpad (hrest.tiles_length b) hr v
  · rw [State.setBank_bank_other _ _ _ _ hbc]
    exact hpad

/-- Settles O41: a new bank has no 1 bit, and of the effects of the two commands only a write inside the bitmap changes
a bank. -/
theorem paddingStaysClear : Obligations.PaddingStaysClear := by
  refine ⟨fun s t k b w h hk hexec hc => ?_, fun s t k b x y hrest hpad hexec => ?_⟩
  · obtain rfl := Host.Outcome.next.inj ((exec_bmConfig_ok hk hc).symm.trans hexec)
    rw [State.deliver_bank, State.setBank_bank_same]
    exact Bank.paddingClear_zero w h _
  · obtain hset | hclear := hexec
    · obtain ⟨u, p, rfl, heff⟩ := exec_cases hset
      rw [State.deliver_bank]
      cases heff with
      | refused | observed => exact hpad
      | bmSet _ hr => exact paddingClear_setBank_writeXY hrest hpad hr true
    · obtain ⟨u, p, rfl, heff⟩ := exec_cases hclear
      rw [State.deliver_bank]
      cases heff with
      | refused | observed => exact hpad
      | bmClear _ hr => exact paddingClear_setBank_writeXY hrest hpad hr false

/-- Settles O38: the capacity is exceeded or it is not. -/
theorem configConstructsBitmap : Obligations.ConfigConstructsBitmap :=
  ⟨fun _ _ _ => rfl, refusesBits_of_format (f := .KXY) fun _ _ => ⟨_, rfl, rfl⟩,
    fun s _ _ _ h => withBank_of_reserved h s _, fun _ _ _ _ _ hk =>
    ⟨exec_bmConfig_of_overCap hk, fun hc =>
      ⟨_, exec_bmConfig_ok hk hc, rfl, rfl, List.length_replicate, fun _ => List.eq_of_mem_replicate⟩⟩⟩

/-- Settles O39: the point is outside the bitmap, or its bit is the one R92 gives. -/
theorem bitReadsItsTileBit : Obligations.BitReadsItsTileBit := by
  refine ⟨fun _ _ _ => rfl, refusesBits_of_format (f := .KXY) fun _ _ => ⟨_, rfl, rfl⟩,
    fun s _ _ _ h => withBank_of_reserved h s _,
    fun s k b x y hk => ⟨fun hout => ?_, fun hx hy => ?_⟩⟩
  · have hr : (s.bank b).inRange x y = false := by
      rw [Bool.eq_false_iff, ne_eq, inRange_iff]
      omega
    exact exec_bmBit_of_outOfRange hk hr
  · rw [exec_bmBit_of_inRange hk ((inRange_iff _ _ _).2 ⟨hx, hy⟩), Bank.bitXY, getLsbD_toNat]
    rfl

/-- Settles O42: at rest the number of tiles is the one the dimensions give. -/
theorem sizesAndTilesObserve : Obligations.SizesAndTilesObserve := by
  refine ⟨fun _ _ => ⟨rfl, rfl, rfl⟩, refusesBits_of_format (f := .K) fun _ _ => ⟨_, rfl, rfl⟩,
    refusesBits_of_format (f := .K) fun _ _ => ⟨_, rfl, rfl⟩, refusesBits_of_format (f := .KI) fun _ _ => ⟨_, rfl, rfl⟩,
    fun s k t h => ⟨withBank_of_reserved h s _, withBank_of_reserved h s _, withBank_of_reserved h s _⟩,
    fun s k b t hrest hk => ?_⟩
  have hlen := hrest.tiles_length b
  exact ⟨(exec_bmDsize hk s).trans (by rw [hlen]), exec_bmGetsize hk s,
    fun ht => exec_bmRdtile_of_le hk (hlen.trans_le ht),
    fun ht => exec_bmRdtile_of_lt hk (ht.trans_eq hlen.symm)⟩

/-- Settles O43: same length and same words is equality of the tile arrays. -/
theorem compareAnswersEquality : Obligations.CompareAnswersEquality := by
  refine ⟨fun _ _ => rfl, refusesBits_of_format (f := .KK) fun _ _ => ⟨_, rfl, rfl⟩,
    fun s a b h => exec_bmCmp_of_reserved h s,
    fun s a b ka kb ha hb => ⟨fun h => exec_bmCmp_of_eq ha hb (tiles_eq_iff.2 h), fun h => ?_⟩⟩
  refine exec_bmCmp_of_ne ha hb fun heq => ?_
  obtain ⟨hlen, hword⟩ := tiles_eq_iff.1 heq
  obtain hne | ⟨t, ht, hne⟩ := h
  · exact hne hlen
  · exact hne (hword t ht)

/-- Settles O44: equality of tile arrays is reflexive and symmetric, and equal arrays have equal lengths and bits. -/
theorem compareLaws : Obligations.CompareLaws := by
  intro s a b ka kb ha hb
  refine ⟨exec_bmCmp_of_eq ha ha rfl, fun ⟨t, p, _, _, _, hbit⟩ => exec_bmCmp_of_ne ha hb fun h => hbit (by rw [h]),
    fun hlen => exec_bmCmp_of_ne ha hb fun h => hlen (by rw [h]), exec_bmCmp_of_eq ha hb, ?_⟩
  by_cases h : (s.bank ka).tiles = (s.bank kb).tiles
  · rw [exec_bmCmp_of_eq ha hb h, exec_bmCmp_of_eq hb ha h.symm]
  · rw [exec_bmCmp_of_ne ha hb h, exec_bmCmp_of_ne hb ha (Ne.symm h)]

end Sys2Proof.Machine
end

section
/-! PROOF. Packing a bank into the stream and unpacking it (41_bmap R100, R101, R103): unpacking reads the bits that
packing wrote. -/

namespace Sys2Proof.Machine

/-! ### Tiles and their bits in the stream -/

/-- Position `64·t + j` from where packing began holds bit `j` of tile `t` (R100). -/
theorem packTiles_bitAt_tile {bytes : List Byte} {c : Nat} (hc : c ≤ 8 * bytes.length) {tiles : List Tile} {t j : Nat}
    (ht : t < tiles.length) (hj : j < 64) :
    bitAt (packTiles bytes c tiles) (c + 64 * t + j) = (tiles.getD t 0).getLsbD j := by
  have htile : (c + 64 * t + j - c) / 64 = t := by omega
  have hpos : (c + 64 * t + j - c) % 64 = j := by omega
  rw [packTiles_bitAt _ _ _ _ hc, if_pos (by omega), htile, hpos]

/-- Bit `j` of tile `t` is the bit of the stream at position `64·t + j` from where unpacking began (R101). -/
theorem unpackTiles_getLsbD (bytes : List Byte) (c : Nat) {n t j : Nat} (ht : t < n) (hj : j < 64) :
    ((unpackTiles bytes c n).getD t 0).getLsbD j = bitAt bytes (c + 64 * t + j) := by
  have hlt : t < (unpackTiles bytes c n).length := (unpackTiles_length bytes c n).symm ▸ ht
  rw [List.getD_eq_getElem _ _ hlt, unpackTiles_getElem _ _ _ _ ht, BitVec.getLsbD_ofNat, streamRead_testBit]
  simp [hj]

/-- Unpacking where packing began gives the tiles back (R103). -/
theorem unpackTiles_packTiles {bytes : List Byte} {c : Nat} (hc : c ≤ 8 * bytes.length) (tiles : List Tile) :
    unpackTiles (packTiles bytes c tiles) c tiles.length = tiles := by
  refine tiles_eq_iff.2 ⟨unpackTiles_length _ _ _, fun t ht => BitVec.eq_of_getLsbD_eq fun j hj => ?_⟩
  rw [unpackTiles_length] at ht
  rw [unpackTiles_getLsbD _ _ ht hj, packTiles_bitAt_tile hc ht hj]

/-! ### `BM.PACK` and `BM.UNPACK` -/

/-- Bank `b` packed at the cursor (R100). -/
def State.packed (s : State) (b : BankId) : State :=
  { s with sb := packTiles s.sb s.cur (s.bank b).tiles, cur := s.cur + 64 * (s.bank b).tiles.length }

/-- Bank `b` filled from the stream at the cursor (R101). -/
def State.unpacked (s : State) (b : BankId) : State :=
  { s.setBank b { s.bank b with tiles := unpackTiles s.sb s.cur (s.bank b).tiles.length } with
    cur := s.cur + 64 * (s.bank b).tiles.length }

section
variable (s : State) (b : BankId)

@[simp] theorem State.packed_sb : (s.packed b).sb = packTiles s.sb s.cur (s.bank b).tiles := rfl
@[simp] theorem State.packed_cur : (s.packed b).cur = s.cur + 64 * (s.bank b).tiles.length := rfl
@[simp] theorem State.packed_rsps : (s.packed b).rsps = s.rsps := rfl
@[simp] theorem State.packed_bank (c : BankId) : (s.packed b).bank c = s.bank c := by cases c <;> rfl

@[simp] theorem State.unpacked_cur : (s.unpacked b).cur = s.cur + 64 * (s.bank b).tiles.length := rfl
@[simp] theorem State.unpacked_rsps : (s.unpacked b).rsps = s.rsps := State.setBank_rsps ..

@[simp] theorem State.unpacked_bank_same :
    (s.unpacked b).bank b = { s.bank b with tiles := unpackTiles s.sb s.cur (s.bank b).tiles.length } := by
  cases b <;> rfl

theorem State.unpacked_bank_other {c : BankId} (h : c ≠ b) : (s.unpacked b).bank c = s.bank c := by
  rw [← State.setBank_bank_other s b { s.bank b with tiles := unpackTiles s.sb s.cur (s.bank b).tiles.length } c h]
  cases c <;> rfl

end

section
variable {s : State} {k : BitVec 4} {b : BankId} (hk : bankOf k = some b)
include hk

theorem exec_bmPack_of_overCap (hc : overCap s.cfg.capSB (s.lenAfterWrite (64 * (s.bank b).tiles.length)) = true) :
    exec (.bmPack k) s = .next (s.deliver ⟨.eCapacity, 0⟩) := by
  simp [exec, execBmPack, withBank_of_some hk, hc]

theorem exec_bmPack_ok (hc : overCap s.cfg.capSB (s.lenAfterWrite (64 * (s.bank b).tiles.length)) = false) :
    exec (.bmPack k) s = .next ((s.packed b).deliver ⟨.ok, 64 * (s.bank b).tiles.length⟩) := by
  simp [exec, execBmPack, withBank_of_some hk, hc, State.packed]

theorem exec_bmUnpack_of_underrun (ha : s.avail < 64 * (s.bank b).tiles.length) :
    exec (.bmUnpack k) s = .next (s.deliver ⟨.eUnderrun, 0⟩) := by
  simp [exec, execBmUnpack, withBank_of_some hk, ha]

theorem exec_bmUnpack_ok (ha : 64 * (s.bank b).tiles.length ≤ s.avail) :
    exec (.bmUnpack k) s = .next ((s.unpacked b).deliver ⟨.ok, 64 * (s.bank b).tiles.length⟩) := by
  simp [exec, execBmUnpack, withBank_of_some hk, ha.not_gt, State.unpacked]

end

/-- Settles O45: there is room or there is not, and what is written is the tiles in order. -/
theorem packWritesTilesInOrder : Obligations.PackWritesTilesInOrder := by
  refine ⟨fun _ => rfl, refusesBits_of_format (f := .K) fun _ _ => ⟨_, rfl, rfl⟩,
    fun s _ h => withBank_of_reserved h s _, fun s k b hrest hk => ?_⟩
  have ⟨_, hcur, _⟩ := hrest
  have hlen := hrest.tiles_length b
  dsimp only
  rw [← hlen]
  exact ⟨exec_bmPack_of_overCap hk, fun hc => ⟨(s.packed b).sb, exec_bmPack_ok hk hc, packTiles_length _ _ _ hcur,
    fun t j ht hj => packTiles_bitAt_tile hcur (by omega) hj,
    fun p hp => (packTiles_bitAt _ _ _ p hcur).trans (if_neg (by omega))⟩⟩

/-- Settles O46: the bits are there or they are not, and what is read is the tiles in order. -/
theorem unpackReadsTilesInOrder : Obligations.UnpackReadsTilesInOrder := by
  refine ⟨fun _ => rfl, refusesBits_of_format (f := .K) fun _ _ => ⟨_, rfl, rfl⟩,
    fun s _ h => withBank_of_reserved h s _, fun s k b hrest hk => ?_⟩
  have hlen := hrest.tiles_length b
  dsimp only
  rw [← hlen]
  exact ⟨exec_bmUnpack_of_underrun hk, fun ha => ⟨_, exec_bmUnpack_ok hk ha,
    unpackTiles_length _ _ _, fun t j ht hj => unpackTiles_getLsbD _ _ ht hj⟩⟩

/-! ### The round trip (R103) -/

theorem Bank.eq_of_fields {m n : Bank} (hbw : m.bw = n.bw) (hbh : m.bh = n.bh) (htiles : m.tiles = n.tiles) :
    m = n := by
  cases m; cases n
  exact (Bank.mk.injEq ..).mpr ⟨hbw, hbh, htiles⟩

section
variable {s u : State} {ka kb : BankId} (hcur : s.cur ≤ 8 * s.sb.length) (hsb : u.sb = (s.packed ka).sb)
  (hucur : u.cur = s.cur) (hlen : (u.bank kb).tiles.length = (s.bank ka).tiles.length)
include hcur hsb hucur hlen

/-- The packed stream holds as many bits from where packing began as it takes to fill a bank of as many tiles. -/
theorem le_avail_of_packed : 64 * (u.bank kb).tiles.length ≤ u.avail := by
  have hpacked := packTiles_length (s.bank ka).tiles s.sb s.cur hcur
  have hend := le_eight_mul_ceil8 (s.cur + 64 * (s.bank ka).tiles.length)
  rw [State.avail, hsb, State.packed_sb, hpacked, hucur, hlen]
  omega

/-- From the packed stream, with the cursor brought back, a bank of the same dimensions is filled with what the packed
bank was, and the packed bank is that bank or stays. -/
theorem exec_bmUnpack_of_packed {b : BitVec 4} (hb : bankOf b = some kb) (hka : ka ≠ kb → u.bank ka = s.bank ka)
    (hbw : (u.bank kb).bw = (s.bank ka).bw) (hbh : (u.bank kb).bh = (s.bank ka).bh) :
    exec (.bmUnpack b) u = .next ((u.unpacked kb).deliver ⟨.ok, 64 * (s.bank ka).tiles.length⟩) ∧
      (u.unpacked kb).bank kb = s.bank ka ∧ (u.unpacked kb).bank ka = s.bank ka ∧
      (u.unpacked kb).cur = (s.packed ka).cur := by
  have hfilled : (u.unpacked kb).bank kb = s.bank ka := by
    rw [State.unpacked_bank_same]
    refine Bank.eq_of_fields hbw hbh ?_
    rw [hsb, hucur, hlen, State.packed_sb]
    exact unpackTiles_packTiles hcur _
  refine ⟨hlen ▸ exec_bmUnpack_ok hb (le_avail_of_packed hcur hsb hucur hlen), hfilled, ?_, ?_⟩
  · by_cases h : ka = kb
    · exact (congrArg _ h).trans hfilled
    · rw [State.unpacked_bank_other _ _ h, hka h]
  · rw [State.unpacked_cur, State.packed_cur, hucur, hlen]

end

/-- Equal banks answer `BM.BIT` alike at every coordinate. -/
theorem exec_bmBit_of_bank_eq {s : State} {a b : BitVec 4} {ka kb : BankId} (ha : bankOf a = some ka)
    (hb : bankOf b = some kb) (h : s.bank ka = s.bank kb) (x y : BitVec 32) :
    ∃ p : Response, exec (.bmBit a x y) s = .next (s.deliver p) ∧ exec (.bmBit b x y) s = .next (s.deliver p) := by
  cases hr : (s.bank ka).inRange x y with
  | false => exact ⟨_, exec_bmBit_of_outOfRange ha hr, exec_bmBit_of_outOfRange hb (h ▸ hr)⟩
  | true => exact ⟨_, exec_bmBit_of_inRange ha hr, h ▸ exec_bmBit_of_inRange hb (h ▸ hr)⟩

/-- Rewinding and configuring leave the stream and the other bank, the cursor at 0 and an empty bank (R78, R93). -/
theorem runInstrs_rewind_config {k : BitVec 4} {b : BankId} (hk : bankOf k = some b) {s : State}
    {width height : BitVec 32} (hc : overCap s.cfg.tileCap (tileCount width height) = false) :
    ∃ u : State, (∀ is, runInstrs (.bsRewind :: .bmConfig k width height :: is) s = runInstrs is u) ∧ u.sb = s.sb ∧
      u.cur = 0 ∧ u.bank b = ⟨width, height, List.replicate (tileCount width height) 0⟩ ∧
      (∀ c ≠ b, u.bank c = s.bank c) ∧ u.rsps = ⟨.ok, tileCount width height⟩ :: ⟨.ok, 0⟩ :: s.rsps := by
  have hconfig := exec_bmConfig_ok (s := { s with cur := 0 }.deliver ⟨.ok, 0⟩) hk hc
  refine ⟨_, fun is => (runInstrs_cons (exec_bsRewind s) _).trans (runInstrs_cons hconfig is), ?_, ?_, ?_, ?_, ?_⟩
  · simp
  · simp
  · simp
  · intro c hcb
    rw [State.deliver_bank, State.setBank_bank_other _ _ _ _ hcb]
    cases c <;> rfl
  · simp

/-- Settles O47: in the first form `u` is any state with the packed stream; in the second it is the one that the rewind
and the configuration leave. -/
theorem packUnpackRoundTrip : Obligations.PackUnpackRoundTrip := by
  intro s a b ka kb hrest ha hb
  have ⟨_, hcur, _⟩ := hrest
  have hcount := hrest.tiles_length ka
  dsimp only
  rw [← hcount]
  intro hc
  have hpack := exec_bmPack_ok ha hc
  refine ⟨⟨s.packed ka, hpack, fun u hsb hucur hka hbw hbh hlen => ?_⟩, fun hne hzero => ?_⟩
  · obtain ⟨hunpack, hkb', hka', hcur'⟩ := exec_bmUnpack_of_packed hcur hsb hucur hlen hb hka hbw hbh
    have hbanks := hka'.trans hkb'.symm
    exact ⟨u.unpacked kb, hunpack, hkb', hcur', exec_bmBit_of_bank_eq ha hb hbanks,
      exec_bmCmp_of_eq ha hb (congrArg Bank.tiles hbanks)⟩
  · obtain ⟨u, hrun, hsb, hucur, hkb, hother, hrsps⟩ := runInstrs_rewind_config hb
      (s := (s.packed ka).deliver ⟨.ok, 64 * (s.bank ka).tiles.length⟩) (hrest.tileCount_fits ka)
    have hlen : (u.bank kb).tiles.length = (s.bank ka).tiles.length := by
      rw [hkb, hcount]
      exact List.length_replicate
    have hka : u.bank ka = s.bank ka := (hother ka hne).trans (by rw [State.deliver_bank, State.packed_bank])
    obtain ⟨hunpack, hkb', hka', hcur'⟩ := exec_bmUnpack_of_packed hcur hsb (hucur.trans hzero.symm) hlen hb
      (fun _ => hka) (by rw [hkb]) (by rw [hkb])
    have hcmp := exec_bmCmp_of_eq (s := (u.unpacked kb).deliver ⟨.ok, 64 * (s.bank ka).tiles.length⟩) ha hb
      (by rw [State.deliver_bank, State.deliver_bank, hka', hkb'])
    refine ⟨((u.unpacked kb).deliver ⟨.ok, 64 * (s.bank ka).tiles.length⟩).deliver ⟨.ok, 1⟩, ?_, ?_, ?_, ?_, ?_⟩
    · rw [runInstrs_cons hpack, hrun, runInstrs_cons hunpack, runInstrs_cons hcmp, runInstrs]
    · simp [hrsps, hcount, tileCount]
    · simpa using hkb'
    · simpa using hka'
    · simpa [hzero] using hcur'

end Sys2Proof.Machine
end

section
/-! PROOF. Run-length pairs (42_rle R113 to R118): what a well-formed sequence of pairs is and decodes to, and that the
encoder's output is one that decodes to the encoder's input. -/

namespace Sys2Proof.Machine

/-! ### Sequences of pairs (R114, R116) -/

/-- Even length and no zero count, with the counts found by their index. -/
theorem rlWellFormed_iff (bytes : List Byte) :
    rlWellFormed bytes = true ↔ bytes.length % 2 = 0 ∧ ∀ j < bytes.length / 2, bytes.getD (2 * j) 0 ≠ 0 := by
  induction bytes using rlWellFormed.induct with
  | case1 => simp [rlWellFormed]
  | case2 x => simp [rlWellFormed]
  | case3 count v rest ih =>
    have hlen : (count :: v :: rest).length = rest.length + 2 := rfl
    have hpair : (∀ j < rest.length / 2 + 1, (count :: v :: rest).getD (2 * j) 0 ≠ 0) ↔
        count ≠ 0 ∧ ∀ j < rest.length / 2, rest.getD (2 * j) 0 ≠ 0 := Nat.forall_lt_succ_left
    rw [rlWellFormed, Bool.and_eq_true, decide_eq_true_iff, ih, hlen, Nat.add_mod_right,
      Nat.add_div_right _ Nat.two_pos, hpair]
    exact and_left_comm

/-- The decoding, with the pairs found by their index. -/
theorem rlDecode_eq_flatMap (bytes : List Byte) :
    rlDecode bytes = (List.range (bytes.length / 2)).flatMap fun j =>
      List.replicate (bytes.getD (2 * j) 0).toNat (bytes.getD (2 * j + 1) 0) := by
  induction bytes using rlWellFormed.induct with
  | case1 => rfl
  | case2 x => simp [rlDecode]
  | case3 count v rest ih =>
    have hpairs : (count :: v :: rest).length / 2 = rest.length / 2 + 1 := Nat.add_div_right _ Nat.two_pos
    rw [hpairs, List.range_succ_eq_map, List.flatMap_cons, List.flatMap_map, rlDecode, ih]
    rfl

/-- A pair stands for 1 to 255 bytes. -/
theorem rlTotal_bounds {bytes : List Byte} (h : rlWellFormed bytes = true) :
    bytes.length ≤ 2 * rlTotal bytes ∧ rlTotal bytes ≤ 255 * (bytes.length / 2) := by
  induction bytes using rlWellFormed.induct with
  | case1 => simp [rlTotal]
  | case2 x => simp [rlWellFormed] at h
  | case3 count v rest ih =>
    rw [rlWellFormed, Bool.and_eq_true, decide_eq_true_iff] at h
    obtain ⟨hcount, hrest⟩ := h
    have hpos : count.toNat ≠ 0 := fun h0 => hcount (BitVec.eq_of_toNat_eq h0)
    have hlt : count.toNat < 256 := count.isLt
    obtain ⟨hlow, hhigh⟩ := ih hrest
    simp only [rlTotal, List.length_cons]
    omega

/-! ### The encoder, one run at a time (R115) -/

/-- The first run: its pair, then the encoding of what comes after it. -/
theorem rlEncode_cons (v : Byte) (rest : List Byte) :
    rlEncode (v :: rest) = BitVec.ofNat 8 (rlScan v 1 rest) :: v :: rlEncode (rest.drop (rlScan v 1 rest - 1)) :=
  rlRun_eq v rest 1

/-- Induction over the greedy runs of an input. -/
theorem run_induction {P : List Byte → Prop} (nil : P [])
    (run : ∀ v rest, P (rest.drop (rlScan v 1 rest - 1)) → P (v :: rest)) : ∀ bytes, P bytes
  | [] => nil
  | v :: rest => run v rest (run_induction nil run _)
termination_by bytes => bytes.length
decreasing_by simp only [List.length_drop, List.length_cons]; omega

/-- The rule's two loops make the encoding, given a turn for each byte. -/
theorem rlEncodeLoop_eq_rlEncode (fuel : Nat) :
    ∀ bytes : List Byte, bytes.length ≤ fuel → rlEncodeLoop fuel bytes = rlEncode bytes := by
  induction fuel with
  | zero => intro bytes h; rw [List.eq_nil_of_length_eq_zero (Nat.le_zero.1 h)]; rfl
  | succ fuel ih =>
    intro bytes h
    cases bytes with
    | nil => rfl
    | cons v rest =>
      have hrest : (rest.drop (rlScan v 1 rest - 1)).length ≤ fuel := by
        rw [List.length_drop]
        exact (Nat.sub_le ..).trans (Nat.le_of_succ_le_succ h)
      rw [rlEncode_cons, rlEncodeLoop, ih _ hrest]

/-- The count byte of a run holds the run's length, which is not 0. -/
theorem rlScan_count (v : Byte) (rest : List Byte) :
    (BitVec.ofNat 8 (rlScan v 1 rest)).toNat = rlScan v 1 rest ∧ BitVec.ofNat 8 (rlScan v 1 rest) ≠ 0 := by
  have hpos := (rlScan_bounds v rest 1).1
  have hmax := rlScan_le v rest 1 (by decide)
  have hcount : (BitVec.ofNat 8 (rlScan v 1 rest)).toNat = rlScan v 1 rest := by
    rw [BitVec.toNat_ofNat, Nat.mod_eq_of_lt (by omega)]
  refine ⟨hcount, fun h0 => ?_⟩
  rw [h0] at hcount
  exact absurd (hcount ▸ hpos) (by decide)

/-- A run holds nothing but its value: written out, with what comes after it, it is the input. -/
theorem replicate_rlScan_append_drop (v : Byte) (bytes : List Byte) :
    ∀ len, List.replicate (rlScan v len bytes) v ++ bytes.drop (rlScan v len bytes - len) =
      List.replicate len v ++ bytes := by
  induction bytes with
  | nil => intro len; simp [rlScan]
  | cons x rest ih =>
    intro len
    rw [rlScan]
    split
    next h =>
      obtain ⟨-, rfl⟩ := h
      have hlow := (rlScan_bounds x rest (len + 1)).1
      have hdrop : rlScan x (len + 1) rest - len = rlScan x (len + 1) rest - (len + 1) + 1 := by omega
      rw [hdrop, List.drop_succ_cons, ih, List.replicate_succ', List.append_assoc]
      rfl
    next => rw [Nat.sub_self, List.drop_zero]

theorem rlWellFormed_rlEncode (bytes : List Byte) : rlWellFormed (rlEncode bytes) = true := by
  induction bytes using run_induction with
  | nil => rfl
  | run v rest ih => rw [rlEncode_cons, rlWellFormed, ih, Bool.and_true, decide_eq_true (rlScan_count v rest).2]

/-- The round trip on bytes (R113 law 1). -/
theorem rlDecode_rlEncode (bytes : List Byte) : rlDecode (rlEncode bytes) = bytes := by
  induction bytes using run_induction with
  | nil => rfl
  | run v rest ih =>
    rw [rlEncode_cons, rlDecode, ih, (rlScan_count v rest).1]
    exact replicate_rlScan_append_drop v rest 1

theorem rlTotal_rlEncode (bytes : List Byte) : rlTotal (rlEncode bytes) = bytes.length := by
  rw [rlTotal_eq, rlDecode_rlEncode]

/-- Settles O51: the output is a well-formed sequence of pairs whose counts sum to the input's length. -/
theorem encodedLengthBounds : Obligations.EncodedLengthBounds := by
  intro bytes
  have hwf := rlWellFormed_rlEncode bytes
  obtain ⟨hlow, hhigh⟩ := rlTotal_bounds hwf
  obtain ⟨heven, -⟩ := (rlWellFormed_iff _).1 hwf
  rw [rlTotal_rlEncode] at hlow hhigh
  exact ⟨heven, hlow, by omega⟩

end Sys2Proof.Machine
end

section
/-! PROOF. The commands of the RLE unit (42_rle R115 to R117): one equation for each way a command can end. -/

namespace Sys2Proof.Machine

/-! ### Buffers -/

theorem bufOf_of_reserved {k : BitVec 4} (h : 4 ≤ k.toNat) : bufOf k = none := by
  rw [bufOf_eq_none_iff]
  exact decide_eq_false h.not_gt

/-- An id that names no buffer is refused before any other check (30_encoding R60, 60_exceptions R151). -/
theorem withBuf_of_reserved {k : BitVec 4} (h : 4 ≤ k.toNat) (s : State) (f : BufId → Outcome) :
    withBuf s k f = .next (s.deliver ⟨.eField, 0⟩) :=
  withBuf_of_none (bufOf_of_reserved h) s f

/-- The same for a command on two buffers, whichever id it is. -/
theorem withBuf_withBuf_of_reserved {dst src : BitVec 4} (h : 4 ≤ dst.toNat ∨ 4 ≤ src.toNat) (s : State)
    (f : BufId → BufId → Outcome) :
    (withBuf s dst fun tgt => withBuf s src (f tgt)) = .next (s.deliver ⟨.eField, 0⟩) := by
  cases hd : bufOf dst with
  | none => exact withBuf_of_none hd s _
  | some tgt =>
    have hsrc : 4 ≤ src.toNat := h.resolve_left fun hres => by simp [bufOf_of_reserved hres] at hd
    exact (withBuf_of_some hd s _).trans (withBuf_of_reserved hsrc s _)

theorem withBuf_withBuf_of_some {dst src : BitVec 4} {tgt frm : BufId} (hd : bufOf dst = some tgt)
    (hs : bufOf src = some frm) (s : State) (f : BufId → BufId → Outcome) :
    (withBuf s dst fun tgt => withBuf s src (f tgt)) = f tgt frm :=
  (withBuf_of_some hd s _).trans (withBuf_of_some hs s _)

/-- What a buffer replaced whole leaves: the bytes in it, a cursor of 0 when it is `SB`, and all else as it was
(20_memory R52). -/
theorem State.replaceBuf_leaves (s : State) (b : BufId) (bytes : List Byte) :
    (s.replaceBuf b bytes).buf b = bytes ∧ (∀ c, c ≠ b → (s.replaceBuf b bytes).buf c = s.buf c) ∧
      (s.replaceBuf b bytes).cur = (if b = .sb then 0 else s.cur) ∧
      s.replaceBuf b bytes =
        { s with
          sb := (s.replaceBuf b bytes).sb, ib := (s.replaceBuf b bytes).ib, ob := (s.replaceBuf b bytes).ob
          vb := (s.replaceBuf b bytes).vb, cur := (s.replaceBuf b bytes).cur } :=
  ⟨replaceBuf_buf_same .., replaceBuf_buf_other s b bytes, replaceBuf_cur .., by cases b <;> rfl⟩

/-! ### `RL.ENC` and `RL.DEC` -/

section
variable {s : State} {dst src : BitVec 4} {tgt frm : BufId} (hd : bufOf dst = some tgt) (hs : bufOf src = some frm)
include hd hs

theorem exec_rlEnc_of_alias (h : frm = tgt) : exec (.rlEnc dst src) s = .next (s.deliver ⟨.eAlias, 0⟩) :=
  (withBuf_withBuf_of_some hd hs s _).trans (if_pos h)

theorem exec_rlEnc_of_overCap (hne : frm ≠ tgt)
    (hc : overCap (capOf s.cfg tgt) (rlEncode (s.buf frm)).length = true) :
    exec (.rlEnc dst src) s = .next (s.deliver ⟨.eCapacity, 0⟩) :=
  (withBuf_withBuf_of_some hd hs s _).trans ((if_neg hne).trans (if_pos hc))

theorem exec_rlEnc_ok (hne : frm ≠ tgt) (hc : overCap (capOf s.cfg tgt) (rlEncode (s.buf frm)).length = false) :
    exec (.rlEnc dst src) s =
      .next ((s.replaceBuf tgt (rlEncode (s.buf frm))).deliver ⟨.ok, (rlEncode (s.buf frm)).length⟩) :=
  (withBuf_withBuf_of_some hd hs s _).trans ((if_neg hne).trans (if_neg (Bool.eq_false_iff.1 hc)))

theorem exec_rlDec_of_alias (h : frm = tgt) : exec (.rlDec dst src) s = .next (s.deliver ⟨.eAlias, 0⟩) :=
  (withBuf_withBuf_of_some hd hs s _).trans (if_pos h)

theorem exec_rlDec_of_malformed (hne : frm ≠ tgt) (hw : rlWellFormed (s.buf frm) = false) :
    exec (.rlDec dst src) s = .next (s.deliver ⟨.eMalformed, 0⟩) :=
  (withBuf_withBuf_of_some hd hs s _).trans ((if_neg hne).trans (if_pos hw))

/-- A well-formed source under two different ids leaves the check of the capacity. -/
theorem exec_rlDec_of_wellFormed (hne : frm ≠ tgt) (hw : rlWellFormed (s.buf frm) = true) :
    exec (.rlDec dst src) s =
      if overCap (capOf s.cfg tgt) (rlDecode (s.buf frm)).length then .next (s.deliver ⟨.eCapacity, 0⟩)
      else .next ((s.replaceBuf tgt (rlDecode (s.buf frm))).deliver ⟨.ok, (rlDecode (s.buf frm)).length⟩) := by
  refine (withBuf_withBuf_of_some hd hs s _).trans ((if_neg hne).trans ((if_neg (ne_false_of_eq_true hw)).trans ?_))
  rw [rlTotal_eq]
  rfl

/-- A source that is an encoding decodes to what was encoded, where that fits. -/
theorem exec_rlDec_of_rlEncode (hne : frm ≠ tgt) {bytes : List Byte} (hbuf : s.buf frm = rlEncode bytes)
    (hc : overCap (capOf s.cfg tgt) bytes.length = false) :
    exec (.rlDec dst src) s = .next ((s.replaceBuf tgt bytes).deliver ⟨.ok, bytes.length⟩) := by
  rw [exec_rlDec_of_wellFormed hd hs hne (hbuf ▸ rlWellFormed_rlEncode bytes), hbuf, rlDecode_rlEncode,
    if_neg (Bool.eq_false_iff.1 hc)]

end

/-- Settles O48: the rule's loops, with the source's length as their bound, make the encoding. -/
theorem encodeReplacesDestination : Obligations.EncodeReplacesDestination := by
  refine ⟨fun _ _ => rfl, refusesBits_of_format (f := .SD) fun n _ => ⟨.rlEnc (nHi n) (nLo n), rfl, rfl⟩,
    fun s _ _ h => withBuf_withBuf_of_reserved h s _, fun s dst src tgt frm hd hs => ?_⟩
  dsimp only
  rw [rlEncodeLoop_eq_rlEncode _ _ (Nat.le_refl _)]
  exact ⟨exec_rlEnc_of_alias hd hs, exec_rlEnc_of_overCap hd hs,
    fun hne hc => ⟨_, exec_rlEnc_ok hd hs hne hc, s.replaceBuf_leaves tgt _⟩⟩

/-- Settles O49: the pairs found by their index are the pairs that the command checks and expands. -/
theorem decodeExpandsPairs : Obligations.DecodeExpandsPairs := by
  refine ⟨fun _ _ => rfl, refusesBits_of_format (f := .SD) fun n _ => ⟨.rlDec (nHi n) (nLo n), rfl, rfl⟩,
    fun s _ _ h => withBuf_withBuf_of_reserved h s _, fun s dst src tgt frm hd hs => ?_⟩
  dsimp only
  rw [← rlDecode_eq_flatMap]
  have hwf := rlWellFormed_iff (s.buf frm)
  refine ⟨exec_rlDec_of_alias hd hs, fun hne hbad => ?_, fun hne heven hcounts hc => ?_,
    fun hne heven hcounts hc => ⟨s.replaceBuf tgt (rlDecode (s.buf frm)), ?_, s.replaceBuf_leaves tgt _⟩⟩
  · refine exec_rlDec_of_malformed hd hs hne (Bool.eq_false_iff.2 fun h => ?_)
    obtain ⟨heven, hcounts⟩ := hwf.1 h
    obtain hodd | ⟨j, hj, hzero⟩ := hbad
    · omega
    · exact hcounts j hj hzero
  · rw [exec_rlDec_of_wellFormed hd hs hne (hwf.2 ⟨heven, hcounts⟩), if_pos hc]
  · rw [exec_rlDec_of_wellFormed hd hs hne (hwf.2 ⟨heven, hcounts⟩), if_neg (Bool.eq_false_iff.1 hc)]

/-- Settles O50: the encoding stands in the middle buffer, is well-formed, and decodes to the source's bytes. -/
theorem encodeDecodeRoundTrip : Obligations.EncodeDecodeRoundTrip := by
  intro s src mid dst b m d hb hm hd hmb hmd hcm hcd
  refine ⟨s.replaceBuf m (rlEncode (s.buf b)), _, exec_rlEnc_ok hm hb hmb.symm hcm,
    exec_rlDec_of_rlEncode hd hm hmd ?_ ?_, State.replaceBuf_buf_same ..⟩
  · rw [State.deliver_buf, State.replaceBuf_buf_same]
  · rw [State.deliver_cfg, State.replaceBuf_cfg, hcd]

end Sys2Proof.Machine
end

section
/-! PROOF. The commands of the Denc unit (43_denc R125 to R129): one equation for each way a command can end. -/

namespace Sys2Proof.Machine

/-! ### What a command of the unit leaves -/

/-- The coder constructed for `n` bands (R125). -/
def State.configured (s : State) (n : Nat) : State :=
  { s with bands := n, prev := List.replicate n prevDefault, vb := [] }

/-- Buffer `b` coded into `VB` (R126). -/
def State.coded (s : State) (b : BufId) : State :=
  { s with vb := s.vb ++ (s.deltaOut b).1, prev := (s.deltaOut b).2 }

theorem State.configured_buf {b : BufId} (h : b ≠ .vb) (s : State) (n : Nat) : (s.configured n).buf b = s.buf b := by
  cases b with
  | sb | ib | ob => rfl
  | vb => exact absurd rfl h

theorem State.coded_buf {b : BufId} (h : b ≠ .vb) (s : State) : (s.coded b).buf b = s.buf b := by
  cases b with
  | sb | ib | ob => rfl
  | vb => exact absurd rfl h

/-! ### `DN.CONFIG` and `DN.RDPREV` -/

section
variable {s : State} {bands c : BitVec 32}

theorem exec_dnConfig_of_illegal (h : bands.toNat = 0 ∨ s.cfg.bandsMax < bands.toNat) :
    exec (.dnConfig bands) s = .next (s.deliver ⟨.eParam, 0⟩) :=
  if_pos h

theorem exec_dnConfig_ok (hmin : 1 ≤ bands.toNat) (hmax : bands.toNat ≤ s.cfg.bandsMax) :
    exec (.dnConfig bands) s = .next ((s.configured bands.toNat).deliver ⟨.ok, 0⟩) :=
  if_neg (by omega)

theorem exec_dnRdprev_of_le (h : s.bands ≤ c.toNat) : exec (.dnRdprev c) s = .next (s.deliver ⟨.eRange, 0⟩) :=
  if_pos h

theorem exec_dnRdprev_of_lt (h : c.toNat < s.bands) :
    exec (.dnRdprev c) s = .next (s.deliver ⟨.ok, (s.prev.getD c.toNat 0).toNat⟩) :=
  if_neg h.not_ge

/-- Settles O52: the seeded `PREV` is `BANDS` copies of the default. -/
theorem dencConfigSeeds : Obligations.DencConfigSeeds :=
  ⟨fun _ => rfl, refusesBits_of_format (f := .I) fun _ _ => ⟨_, rfl, rfl⟩, fun _ _ =>
    ⟨exec_dnConfig_of_illegal, fun hmin hmax =>
      ⟨_, exec_dnConfig_ok hmin hmax, List.length_replicate, fun _ => List.eq_of_mem_replicate⟩⟩⟩

/-- Settles O58: at rest `PREV` has an entry for each of the `BANDS` bands, and no other. -/
theorem readPrevObserves : Obligations.ReadPrevObserves := by
  refine ⟨fun _ => rfl, refusesBits_of_format (f := .I) fun _ _ => ⟨_, rfl, rfl⟩, fun s c hrest => ?_⟩
  refine ⟨exec_dnRdprev_of_le, fun hc => ?_⟩
  rw [exec_dnRdprev_of_lt (hrest.prev_length ▸ hc), List.getD_eq_getElem _ _ hc]

end

/-! ### `DN.RECODE` -/

/-- The map of R128 on naturals: `255 − 2b` wraps to `511 − 2b` from 128 up. -/
theorem recodeByte_toNat (b : Byte) :
    (recodeByte b).toNat = if 128 ≤ b.toNat then 511 - 2 * b.toNat else 2 * b.toNat := by
  unfold recodeByte
  split <;> bv_omega

/-- The inverse of R132, which no command of the block carries out. -/
def unrecodeByte (r : Byte) : Byte :=
  BitVec.ofNat 8 (if r.toNat % 2 = 0 then r.toNat / 2 else (255 - r.toNat) / 2 + 128)

theorem unrecodeByte_toNat (r : Byte) :
    (unrecodeByte r).toNat = if r.toNat % 2 = 0 then r.toNat / 2 else (255 - r.toNat) / 2 + 128 := by
  have hr := r.isLt
  refine (BitVec.toNat_ofNat ..).trans (Nat.mod_eq_of_lt ?_)
  split <;> omega

theorem recodeByte_unrecodeByte (r : Byte) : recodeByte (unrecodeByte r) = r := by
  have hr := r.isLt
  apply BitVec.eq_of_toNat_eq
  rw [recodeByte_toNat, unrecodeByte_toNat]
  by_cases heven : r.toNat % 2 = 0
  · rw [if_pos heven, if_neg (by omega)]; omega
  · rw [if_neg heven, if_pos (by omega)]; omega

theorem unrecodeByte_recodeByte (b : Byte) : unrecodeByte (recodeByte b) = b := by
  have hb := b.isLt
  apply BitVec.eq_of_toNat_eq
  rw [unrecodeByte_toNat, recodeByte_toNat]
  by_cases htop : 128 ≤ b.toNat
  · rw [if_pos htop, if_neg (by omega)]; omega
  · rw [if_neg htop, if_pos (by omega)]; omega

/-- Settles O56: the command maps `recodeByte` over `VB`. -/
theorem recodeMapsEveryByte : Obligations.RecodeMapsEveryByte := by
  refine ⟨hasOneWord_of_formatZ rfl (by decide), fun s => ⟨s.vb.map recodeByte, rfl, List.length_map _, fun j hj => ?_⟩⟩
  rw [List.getD_eq_getElem _ _ (by simpa using hj), List.getElem_map, recodeByte_toNat, List.getD_eq_getElem _ _ hj]

/-- Settles O57: the two maps undo each other. -/
theorem recodeIsBijective : Obligations.RecodeIsBijective := by
  intro b
  refine ⟨?_, ?_, unrecodeByte b, recodeByte_unrecodeByte b⟩
  · rw [recodeByte_toNat]; split <;> split <;> omega
  · rw [← unrecodeByte_toNat, unrecodeByte_recodeByte]

/-! ### `DN.DELTA` and `DN.CHECK` -/

section
variable {s : State} {src : BitVec 4} {b : BufId} (hs : bufOf src = some b)
include hs

theorem exec_dnDelta_of_overCap (hne : b ≠ .vb)
    (hc : overCap s.cfg.capVB (s.vb.length + processed (s.buf b).length s.bands) = true) :
    exec (.dnDelta src) s = .next (s.deliver ⟨.eCapacity, 0⟩) :=
  (withBuf_of_some hs s _).trans ((if_neg hne).trans (if_pos hc))

theorem exec_dnDelta_ok (hne : b ≠ .vb)
    (hc : overCap s.cfg.capVB (s.vb.length + processed (s.buf b).length s.bands) = false) :
    exec (.dnDelta src) s = .next ((s.coded b).deliver ⟨.ok, processed (s.buf b).length s.bands⟩) :=
  (withBuf_of_some hs s _).trans ((if_neg hne).trans (if_neg (Bool.eq_false_iff.1 hc)))

theorem exec_dnCheck_of_agrees {prev : List Byte} (h : s.checkOut b = (prev, none)) :
    exec (.dnCheck src) s = .next ({ s with prev := prev }.deliver ⟨.ok, processed (s.buf b).length s.bands⟩) := by
  unfold State.checkOut at h
  simp [exec, execDnCheck, withBuf_of_some hs, h]

theorem exec_dnCheck_of_diverges {prev : List Byte} {i : Nat} (h : s.checkOut b = (prev, some i)) :
    exec (.dnCheck src) s = .next ({ s with prev := prev }.deliver ⟨.sFalse, i⟩) := by
  unfold State.checkOut at h
  simp [exec, execDnCheck, withBuf_of_some hs, h]

end

end Sys2Proof.Machine
end

section
/-! PROOF. The loops of `DN.DELTA` and `DN.CHECK` (43_denc R126, R127) in closed form. `PREV` is a window of `BANDS`
places that moves over one sequence: the seeds, then each byte in the order it was stored. -/

namespace Sys2Proof.Machine

/-! ### The processed bytes -/

theorem processed_mod (len bands : Nat) : processed len bands % bands = 0 := Nat.mul_mod_left ..

/-- An input of less than one group is not processed, and any other to the end of a group. -/
theorem le_processed {len bands : Nat} (h : processed len bands ≠ 0) : bands ≤ processed len bands :=
  Nat.le_of_dvd (Nat.pos_of_ne_zero h) (Nat.dvd_of_mod_eq_zero (processed_mod ..))

/-- The bytes of an input that are processed: its whole groups (R124). -/
def wholeGroups (bands : Nat) (bytes : List Byte) : List Byte := bytes.take (processed bytes.length bands)

@[simp] theorem wholeGroups_length (bands : Nat) (bytes : List Byte) :
    (wholeGroups bands bytes).length = processed bytes.length bands := by
  rw [wholeGroups, List.length_take, Nat.min_eq_left (processed_le ..)]

theorem wholeGroups_getD {bands i : Nat} {bytes : List Byte} (hi : i < processed bytes.length bands) :
    (wholeGroups bands bytes).getD i 0 = bytes.getD i 0 := by
  simp [wholeGroups, List.getD_eq_getElem?_getD, hi]

/-! ### The window -/

/-- `PREV` at index `i` of a loop holds the `bands` places of `hist` from `i` on, each in the entry of its band: the
values that the next `bands` positions of the input look back at. -/
structure Window (bands : Nat) (hist : Nat → Byte) (i : Nat) (prev : List Byte) : Prop where
  length : prev.length = bands
  get : ∀ k, i ≤ k → k < i + bands → prev.getD (k % bands) 0 = hist k

/-- The sequence a loop stores: the seeds of the first group, then what is stored at index 0, 1, and so on. -/
def history (bands : Nat) (seed stored : Nat → Byte) (k : Nat) : Byte :=
  if k < bands then seed k else stored (k - bands)

section
variable {bands n : Nat} {hist seed stored : Nat → Byte} {prev : List Byte}

theorem history_of_lt {k : Nat} (h : k < bands) : history bands seed stored k = seed k := if_pos h

@[simp] theorem history_add (i : Nat) : history bands seed stored (i + bands) = stored i := by simp [history]

theorem Window.of_seed (hlen : prev.length = bands) (hseed : ∀ k < bands, prev.getD k 0 = seed k) :
    Window bands (history bands seed stored) 0 prev := by
  refine ⟨hlen, fun k _ hk => ?_⟩
  have hk : k < bands := by omega
  rw [Nat.mod_eq_of_lt hk, hseed k hk, history_of_lt hk]

/-- The entry of the current band is the oldest place of the window. -/
theorem Window.current (h : Window bands hist n prev) (hb : 1 ≤ bands) : prev.getD (n % bands) 0 = hist n :=
  h.get n (Nat.le_refl n) (by omega)

/-- A byte stored for the current band moves the window on by one place. -/
theorem Window.store (h : Window bands hist n prev) (hb : 1 ≤ bands) {x : Byte} (hx : hist (n + bands) = x) :
    Window bands hist (n + 1) (prev.set (n % bands) x) := by
  obtain ⟨hlen, hget⟩ := h
  have hlt : n % bands < prev.length := by rw [hlen]; exact Nat.mod_lt n hb
  refine ⟨by rw [List.length_set, hlen], fun k hnk hk => ?_⟩
  by_cases hnew : k = n + bands
  · rw [hnew, Nat.add_mod_right, hx, List.getD_eq_getElem?_getD, List.getElem?_set_self hlt, Option.getD_some]
  · have hband : n % bands ≠ k % bands := fun heq => by
      have hmod := Nat.sub_mod_eq_zero_of_mod_eq heq.symm
      rw [Nat.mod_eq_of_lt (by omega)] at hmod
      omega
    rw [List.getD_eq_getElem?_getD, List.getElem?_set_ne hband, ← List.getD_eq_getElem?_getD]
    exact hget k (by omega) (by omega)

/-- `PREV` band by band: each entry is the place of the window that belongs to the band. -/
theorem Window.eq_map (h : Window bands hist n prev) {place : Nat → Nat} {f : Nat → Byte}
    (hplace : ∀ c < bands, n ≤ place c ∧ place c < n + bands ∧ place c % bands = c ∧ hist (place c) = f c) :
    prev = (List.range bands).map f := by
  obtain ⟨hlen, hget⟩ := h
  refine List.ext_getElem (by simp [hlen]) fun c hc _ => ?_
  obtain ⟨hlo, hhi, hmod, hval⟩ := hplace c (hlen ▸ hc)
  have hentry := hget (place c) hlo hhi
  rw [hmod, hval, List.getD_eq_getElem _ _ hc] at hentry
  simp [hentry]

end

/-! ### `DN.DELTA` -/

/-- Each delta byte is the difference of an input byte from the place `bands` before it. -/
theorem deltaLoop_of_window {bands : Nat} (hb : 1 ≤ bands) {hist : Nat → Byte} (bytes : List Byte) :
    ∀ (i : Nat) (prev : List Byte), Window bands hist i prev →
      (∀ j < bytes.length, hist (i + j + bands) = bytes.getD j 0) →
      (deltaLoop bands i bytes prev).1 = (List.range bytes.length).map (fun j => bytes.getD j 0 - hist (i + j)) ∧
        Window bands hist (i + bytes.length) (deltaLoop bands i bytes prev).2 := by
  induction bytes with
  | nil => intro i prev hw _; exact ⟨rfl, hw⟩
  | cons x rest ih =>
    intro i prev hw hbytes
    have hx : hist (i + bands) = x := hbytes 0 (by simp)
    obtain ⟨hdeltas, hfinal⟩ := ih (i + 1) _ (hw.store hb hx) fun j hj => by
      rw [Nat.add_assoc i 1 j, Nat.add_comm 1 j]; exact hbytes (j + 1) (by simpa using hj)
    rw [deltaLoop, hw.current hb]
    refine ⟨?_, ?_⟩
    · rw [hdeltas, List.length_cons, List.range_succ_eq_map]
      simp [Function.comp_def, Nat.add_assoc, Nat.add_comm 1]
    · simpa [Nat.add_assoc, Nat.add_comm 1] using hfinal

/-- The value the delta byte of index `i` is taken from: the byte one group before, or an entry of `PREV` (R126). -/
def State.prior (s : State) (b : BufId) : Nat → Byte :=
  history s.bands (s.prev.getD · 0) ((s.buf b).getD · 0)

theorem State.deltaOut_eq {s : State} (hb : 1 ≤ s.bands) (hlen : s.prev.length = s.bands) (b : BufId) :
    let P := processed (s.buf b).length s.bands
    s.deltaOut b =
      ((List.range P).map fun i => (s.buf b).getD i 0 - s.prior b i,
        (List.range s.bands).map fun c =>
          if P = 0 then s.prev.getD c 0 else (s.buf b).getD (P - s.bands + c) 0) := by
  intro P
  have hP : (wholeGroups s.bands (s.buf b)).length = P := wholeGroups_length ..
  obtain ⟨hdeltas, hfinal⟩ := deltaLoop_of_window hb (wholeGroups s.bands (s.buf b)) 0 s.prev
    (Window.of_seed (seed := (s.prev.getD · 0)) (stored := ((s.buf b).getD · 0)) hlen fun _ _ => rfl) fun j hj => by
      rw [Nat.zero_add, history_add, wholeGroups_getD (lt_of_lt_of_eq hj hP)]
  rw [hP, Nat.zero_add] at hfinal
  refine Prod.ext ?_ (hfinal.eq_map (place := (P + ·)) fun c hc => ⟨?_, ?_, ?_, ?_⟩)
  · refine hdeltas.trans ?_
    rw [hP]
    refine List.map_congr_left fun i hi => ?_
    rw [wholeGroups_getD (List.mem_range.1 hi), Nat.zero_add, State.prior]
  · exact Nat.le_add_right ..
  · exact Nat.add_lt_add_left hc P
  · rw [Nat.add_mod, processed_mod, Nat.zero_add, Nat.mod_mod, Nat.mod_eq_of_lt hc]
  · by_cases h0 : P = 0
    · rw [if_pos h0, h0, Nat.zero_add, history_of_lt hc]
    · have hge : s.bands ≤ P := le_processed h0
      rw [if_neg h0, show P + c = P - s.bands + c + s.bands by omega, history_add]

/-- Settles O53: the sequence of R126 is the entries of `PREV`, then the input. -/
theorem deltaAppendsDifferences : Obligations.DeltaAppendsDifferences := by
  refine ⟨fun _ => rfl, refusesBits_of_format (f := .S) fun _ _ => ⟨_, rfl, rfl⟩,
    fun s _ h => withBuf_of_reserved h s _, fun _ => rfl, fun s src b hrest hs hne => ?_⟩
  have ⟨_, _, _, hb, _⟩ := hrest
  refine ⟨exec_dnDelta_of_overCap hs hne, fun hc => ?_⟩
  rw [exec_dnDelta_ok hs hne hc, State.coded, State.deltaOut_eq hb hrest.prev_length]
  rfl

/-! ### `DN.CHECK` -/

/-- As long as the byte to store is the input's, the replay goes on. -/
theorem checkLoop_of_stored {bands : Nat} (hb : 1 ≤ bands) {hist : Nat → Byte} {bytes vb prev : List Byte}
    (hw : Window bands hist 0 prev) (n : Nat) (hbytes : n ≤ bytes.length) (hvb : n ≤ vb.length)
    (hstore : ∀ i < n, hist (i + bands) = hist i + vb.getD i 0 ∧ hist (i + bands) = bytes.getD i 0) :
    ∃ prev', Window bands hist n prev' ∧
      checkLoop bands 0 bytes vb prev = checkLoop bands n (bytes.drop n) (vb.drop n) prev' := by
  induction n with
  | zero => exact ⟨prev, hw, rfl⟩
  | succ n ih =>
    obtain ⟨prev', hw', hrun⟩ := ih (by omega) (by omega) fun i hi => hstore i (by omega)
    obtain ⟨hsum, hsame⟩ := hstore n (Nat.lt_succ_self n)
    rw [List.getD_eq_getElem _ _ hvb] at hsum
    rw [List.getD_eq_getElem _ _ hbytes] at hsame
    refine ⟨_, hw'.store hb hsame, ?_⟩
    rw [hrun, List.drop_eq_getElem_cons hbytes, List.drop_eq_getElem_cons hvb, checkLoop, hw'.current hb, ← hsum, hsame]
    exact if_pos rfl

section
variable (s : State) (b : BufId)

/-- What the replay stores at index `i`, when it gets there (R127). -/
def State.rebuilt (i : Nat) : Byte :=
  (if i < s.bands then prevDefault else (s.buf b).getD (i - s.bands) 0) + s.vb.getD i 0

/-- Position `i` of the input agrees with the replay (R127). -/
def State.agrees (i : Nat) : Prop := i < s.vb.length ∧ s.rebuilt b i = (s.buf b).getD i 0

/-- `PREV` after `n` stored bytes: for each band the last of its indices below `n`, or the default. -/
def State.replayed (n : Nat) : List Byte :=
  (List.range s.bands).map fun c =>
    if c < n then s.rebuilt b (c + s.bands * ((n - 1 - c) / s.bands)) else prevDefault

/-- The sequence the replay stores: the defaults, then the rebuilt bytes. -/
def State.replay : Nat → Byte := history s.bands (fun _ => prevDefault) (s.rebuilt b)

end

section
variable {s : State} {b : BufId} {n : Nat}

/-- Where all positions before agree, what is stored next is the place one group before with the delta byte added. -/
theorem State.replay_add (hb : 1 ≤ s.bands) (hagree : ∀ i < n, s.agrees b i) :
    s.replay b (n + s.bands) = s.replay b n + s.vb.getD n 0 := by
  rw [State.replay, history_add, State.rebuilt, history]
  split
  · rfl
  · obtain ⟨-, hsame⟩ := hagree (n - s.bands) (by omega)
    rw [hsame]

theorem Window.eq_replayed (hb : 1 ≤ s.bands) {prev : List Byte} (h : Window s.bands (s.replay b) n prev) :
    prev = s.replayed b n := by
  refine h.eq_map (place := fun c => if c < n then c + s.bands * ((n - 1 - c) / s.bands) + s.bands else c)
    fun c hc => ?_
  by_cases hcn : c < n
  · have hdiv := Nat.div_add_mod (n - 1 - c) s.bands
    have hmod := Nat.mod_lt (n - 1 - c) hb
    rw [if_pos hcn, if_pos hcn, Nat.add_mod_right, Nat.add_mul_mod_self_left]
    exact ⟨by omega, by omega, Nat.mod_eq_of_lt hc, history_add _⟩
  · rw [if_neg hcn, if_neg hcn]
    exact ⟨by omega, by omega, Nat.mod_eq_of_lt hc, history_of_lt hc⟩

/-- `DN.CHECK` comes to index `n` when every position before agrees. -/
theorem State.checkOut_eq_checkLoop (hb : 1 ≤ s.bands) (hn : n ≤ processed (s.buf b).length s.bands)
    (hagree : ∀ i < n, s.agrees b i) :
    ∃ prev, Window s.bands (s.replay b) n prev ∧
      s.checkOut b = checkLoop s.bands n ((wholeGroups s.bands (s.buf b)).drop n) (s.vb.drop n) prev := by
  refine checkLoop_of_stored hb (bytes := wholeGroups s.bands (s.buf b))
    (Window.of_seed List.length_replicate fun k hk => ?_) n ?_ ?_ fun i hi => ⟨?_, ?_⟩
  · rw [List.getD_eq_getElem _ _ (by simpa using hk), List.getElem_replicate]
  · rwa [wholeGroups_length]
  · by_contra hlt
    obtain ⟨hvb, -⟩ := hagree s.vb.length (by omega)
    omega
  · exact s.replay_add hb fun j hj => hagree j (by omega)
  · obtain ⟨-, hsame⟩ := hagree i hi
    rw [wholeGroups_getD (by omega), ← hsame]; exact history_add i

theorem State.checkOut_of_all_agree (hb : 1 ≤ s.bands)
    (hagree : ∀ i < processed (s.buf b).length s.bands, s.agrees b i) :
    s.checkOut b = (s.replayed b (processed (s.buf b).length s.bands), none) := by
  obtain ⟨prev, hw, hrun⟩ := State.checkOut_eq_checkLoop hb (Nat.le_refl _) hagree
  rw [hrun, List.drop_of_length_le (by rw [wholeGroups_length]), checkLoop, hw.eq_replayed hb]

/-- The diverging byte is stored too, where there is a delta byte for it. -/
theorem State.checkOut_of_diverges (hb : 1 ≤ s.bands) (hn : n < processed (s.buf b).length s.bands)
    (hagree : ∀ i < n, s.agrees b i) (hdiv : ¬ s.agrees b n) :
    s.checkOut b = (s.replayed b (if n < s.vb.length then n + 1 else n), some n) := by
  obtain ⟨prev, hw, hrun⟩ := State.checkOut_eq_checkLoop hb hn.le hagree
  have hlt : n < (wholeGroups s.bands (s.buf b)).length := by rwa [wholeGroups_length]
  rw [hrun, List.drop_eq_getElem_cons hlt, ← List.getD_eq_getElem _ 0 hlt, wholeGroups_getD hn]
  by_cases hvb : n < s.vb.length
  · have hstored : s.replay b (n + s.bands) = s.rebuilt b n := history_add n
    have hsum : prev.getD (n % s.bands) 0 + s.vb[n] = s.rebuilt b n := by
      rw [hw.current hb, ← List.getD_eq_getElem _ 0 hvb, ← s.replay_add hb hagree, hstored]
    rw [if_pos hvb, List.drop_eq_getElem_cons hvb, checkLoop, hsum, ← (hw.store hb hstored).eq_replayed hb]
    exact if_neg fun hsame => hdiv ⟨hvb, hsame⟩
  · rw [if_neg hvb, List.drop_of_length_le (Nat.le_of_not_lt hvb), checkLoop, hw.eq_replayed hb]

end

/-- Settles O54: the replay as far as it goes, and what ends it. -/
theorem checkReportsFirstDivergence : Obligations.CheckReportsFirstDivergence := by
  refine ⟨fun _ => rfl, refusesBits_of_format (f := .S) fun _ _ => ⟨_, rfl, rfl⟩,
    fun s _ h => withBuf_of_reserved h s _, fun s src b hb hs => ⟨fun hagree => ?_, fun j hj hagree hdiv => ?_⟩⟩
  · exact exec_dnCheck_of_agrees hs (State.checkOut_of_all_agree hb hagree)
  · exact exec_dnCheck_of_diverges hs (State.checkOut_of_diverges hb hj hagree hdiv)

end Sys2Proof.Machine
end

section
/-! PROOF. `DN.DELTA`, then `DN.CHECK` (43_denc R131). The replay adds each delta byte to the entry of `PREV` it was
taken from, so it rebuilds the input; and several inputs of whole groups are coded as their concatenation is. -/

namespace Sys2Proof.Machine

/-! ### The loops -/

/-- From the same `PREV`, the replay of the delta bytes of an input rebuilds the input. -/
theorem checkLoop_deltaLoop (bands : Nat) (bytes : List Byte) : ∀ (i : Nat) (prev : List Byte),
    checkLoop bands i bytes (deltaLoop bands i bytes prev).1 prev = ((deltaLoop bands i bytes prev).2, none) := by
  induction bytes with
  | nil => intro i prev; rfl
  | cons x rest ih =>
    intro i prev
    have hsum : prev.getD (i % bands) 0 + (x - prev.getD (i % bands) 0) = x := add_sub_cancel ..
    simp only [deltaLoop, checkLoop, hsum, if_true, ih]

theorem deltaLoop_append (bands : Nat) (xs ys : List Byte) : ∀ (i : Nat) (prev : List Byte),
    deltaLoop bands i (xs ++ ys) prev =
      ((deltaLoop bands i xs prev).1 ++ (deltaLoop bands (i + xs.length) ys (deltaLoop bands i xs prev).2).1,
        (deltaLoop bands (i + xs.length) ys (deltaLoop bands i xs prev).2).2) := by
  induction xs with
  | nil => intro i prev; rfl
  | cons x rest ih => intro i prev; simp [deltaLoop, ih, Nat.add_assoc, Nat.add_comm 1]

/-- Of its index the loop sees only the band. -/
theorem deltaLoop_congr {bands : Nat} (bytes : List Byte) : ∀ {i j : Nat} (prev : List Byte), i % bands = j % bands →
    deltaLoop bands i bytes prev = deltaLoop bands j bytes prev := by
  induction bytes with
  | nil => intro i j prev _; rfl
  | cons x rest ih =>
    intro i j prev h
    simp only [deltaLoop, h, ih _ (Nat.ModEq.add_right 1 h)]

/-! ### A state in which bytes have been coded -/

/-- From `s` to `t` the commands coded exactly `bytes`, by any number of `DN.DELTA`. -/
structure Coded (s t : State) (bytes : List Byte) : Prop where
  cfg : t.cfg = s.cfg
  bands : t.bands = s.bands
  vb : t.vb = s.vb ++ (deltaLoop s.bands 0 bytes s.prev).1
  prev : t.prev = (deltaLoop s.bands 0 bytes s.prev).2

section
variable {s t u : State} {xs ys : List Byte}

theorem Coded.refl (s : State) : Coded s s [] := ⟨rfl, rfl, (List.append_nil _).symm, rfl⟩

/-- Behind whole groups the coding goes on in the first band. -/
theorem Coded.trans (h : Coded s t xs) (h' : Coded t u ys) (hgroups : xs.length % s.bands = 0) :
    Coded s u (xs ++ ys) := by
  have hstart := deltaLoop_congr (bands := s.bands) ys (deltaLoop s.bands 0 xs s.prev).2
    (show (0 + xs.length) % s.bands = 0 % s.bands by rw [Nat.zero_add, hgroups, Nat.zero_mod])
  have happ := deltaLoop_append s.bands xs ys 0 s.prev
  rw [hstart] at happ
  exact ⟨h'.cfg.trans h.cfg, h'.bands.trans h.bands,
    by rw [h'.vb, h.bands, h.vb, h.prev, happ, List.append_assoc], by rw [h'.prev, h.bands, h.prev, happ]⟩

theorem Coded.vb_length (h : Coded s t xs) : t.vb.length = s.vb.length + xs.length := by
  rw [h.vb, List.length_append, (deltaLoop_length _ _ _ _).1]

theorem processed_of_groups {len bands : Nat} (h : len % bands = 0) : processed len bands = len :=
  Nat.div_mul_cancel (Nat.dvd_of_mod_eq_zero h)

theorem wholeGroups_of_groups {bands : Nat} (h : xs.length % bands = 0) : wholeGroups bands xs = xs := by
  rw [wholeGroups, processed_of_groups h, List.take_length]

/-- Whole groups in front of an input are processed whole. -/
theorem wholeGroups_append {bands : Nat} (hb : 1 ≤ bands) (h : xs.length % bands = 0) :
    wholeGroups bands (xs ++ ys) = xs ++ wholeGroups bands ys := by
  have hlen : processed (xs ++ ys).length bands = xs.length + processed ys.length bands := by
    obtain ⟨k, hk⟩ := Nat.dvd_of_mod_eq_zero h
    rw [processed, List.length_append, hk, Nat.mul_add_div hb, Nat.add_mul, Nat.mul_comm k, processed]
  rw [wholeGroups, hlen, List.take_length_add_append, wholeGroups]

end

/-! ### The two commands -/

/-- `DN.CONFIG` leaves the seeds, an empty `VB`, and the other buffers as they were. -/
theorem exec_dnConfig_seeded {s : State} {bands : BitVec 32} {b : BufId} (hmin : 1 ≤ bands.toNat)
    (hmax : bands.toNat ≤ s.cfg.bandsMax) (hne : b ≠ .vb) :
    ∃ t, exec (.dnConfig bands) s = .next t ∧ t.cfg = s.cfg ∧ t.bands = bands.toNat ∧ t.vb = [] ∧
      t.prev = List.replicate t.bands prevDefault ∧ t.buf b = s.buf b ∧ t.rsps = ⟨.ok, 0⟩ :: s.rsps :=
  ⟨_, exec_dnConfig_ok hmin hmax, rfl, rfl, rfl, rfl, (State.deliver_buf ..).trans (s.configured_buf hne _), rfl⟩

section
variable {s t : State} {src : BitVec 4} {b : BufId} (hs : bufOf src = some b)
include hs

theorem exec_dnDelta_coded (hne : b ≠ .vb)
    (hc : overCap s.cfg.capVB (s.vb.length + processed (s.buf b).length s.bands) = false) :
    ∃ t, exec (.dnDelta src) s = .next t ∧ Coded s t (wholeGroups s.bands (s.buf b)) ∧ t.buf b = s.buf b ∧
      t.rsps = ⟨.ok, processed (s.buf b).length s.bands⟩ :: s.rsps :=
  ⟨_, exec_dnDelta_ok hs hne hc, ⟨rfl, rfl, rfl, rfl⟩, (State.deliver_buf ..).trans (s.coded_buf hne), rfl⟩

/-- `DN.CHECK` on what was coded from the seeds into an empty `VB` finds no divergence. -/
theorem exec_dnCheck_of_coded (hvb : s.vb = []) (hseed : s.prev = List.replicate s.bands prevDefault)
    (h : Coded s t (wholeGroups t.bands (t.buf b))) :
    ∃ u, exec (.dnCheck src) t = .next u ∧ u.rsps = ⟨.ok, processed (t.buf b).length t.bands⟩ :: t.rsps := by
  refine ⟨_, exec_dnCheck_of_agrees hs (prev := t.prev) ?_, rfl⟩
  rw [State.checkOut, h.vb, h.prev, hvb, h.bands, hseed]
  exact h.bands ▸ checkLoop_deltaLoop ..

end

/-! ### Runs -/

theorem runInstrs_append {is : List Instr} {s t : State} (h : runInstrs is s = .next t) (js : List Instr) :
    runInstrs (is ++ js) s = runInstrs js t := by
  induction is generalizing s with
  | nil => rw [← Host.Outcome.next.inj h]; rfl
  | cons i is ih =>
    obtain ⟨u, p, hexec, -⟩ := exec_ends i s
    rw [runInstrs_cons hexec] at h
    rw [List.cons_append, runInstrs_cons hexec, ih h]

/-- One input loaded into `IB` and coded. -/
def loadAndDelta (bytes : List Byte) : List Instr := expandPseudo (.bufLoad 1 bytes) ++ [.dnDelta 1]

/-- `BUF.LOAD IB` leaves the bytes in `IB`, and the host with more responses. -/
theorem runInstrs_loadIB {s : State} {bytes : List Byte} (hib : overCap s.cfg.capIB bytes.length = false) :
    ∃ rs, runInstrs (expandPseudo (.bufLoad 1 bytes)) s = .next { s with ib := bytes, rsps := rs } := by
  obtain ⟨-, hload⟩ := loadPseudoFillsBuffer
  obtain ⟨-, responses, hrun, -⟩ := hload s 1 .ib bytes rfl hib
  exact ⟨_, hrun⟩

theorem runInstrs_loadAndDelta {s : State} {bytes : List Byte} (hib : overCap s.cfg.capIB bytes.length = false)
    (hvb : overCap s.cfg.capVB (s.vb.length + bytes.length) = false) :
    ∃ t, runInstrs (loadAndDelta bytes) s = .next t ∧ Coded s t (wholeGroups s.bands bytes) := by
  obtain ⟨rs, hload⟩ := runInstrs_loadIB hib
  have hfit : overCap s.cfg.capVB (s.vb.length + processed bytes.length s.bands) = false :=
    overCap_mono (Nat.add_le_add_left (processed_le ..) _) hvb
  obtain ⟨t, hdelta, hcoded, -⟩ :=
    exec_dnDelta_coded (s := { s with ib := bytes, rsps := rs }) (src := 1) (b := .ib) rfl (by decide) hfit
  exact ⟨t, (runInstrs_append hload _).trans (runInstrs_cons hdelta _),
    hcoded.cfg, hcoded.bands, hcoded.vb, hcoded.prev⟩

/-- Inputs of whole groups, one after the other. -/
theorem runInstrs_flatMap_loadAndDelta (ins : List (List Byte)) : ∀ s : State, (∀ x ∈ ins, x.length % s.bands = 0) →
    overCap s.cfg.capIB ins.flatten.length = false →
    overCap s.cfg.capVB (s.vb.length + ins.flatten.length) = false →
    ∃ t, runInstrs (ins.flatMap loadAndDelta) s = .next t ∧ Coded s t ins.flatten := by
  induction ins with
  | nil => intro s _ _ _; exact ⟨s, rfl, .refl s⟩
  | cons x rest ih =>
    intro s hgroups hib hvb
    obtain ⟨hx, hrest⟩ := List.forall_mem_cons.1 hgroups
    rw [List.flatten_cons, List.length_append] at hib hvb
    obtain ⟨t, hfirst, hcoded⟩ := runInstrs_loadAndDelta (s := s) (bytes := x) (overCap_mono (by omega) hib)
      (overCap_mono (by omega) hvb)
    rw [wholeGroups_of_groups hx] at hcoded
    obtain ⟨u, hrun, hcoded'⟩ := ih t (hcoded.bands ▸ hrest) (hcoded.cfg ▸ overCap_mono (by omega) hib)
      (by rw [hcoded.cfg, hcoded.vb_length, Nat.add_assoc]; exact hvb)
    exact ⟨u, (runInstrs_append hfirst _).trans hrun, hcoded.trans hcoded' hx⟩

theorem length_flatten_mod {bands : Nat} {ins : List (List Byte)} (h : ∀ x ∈ ins, x.length % bands = 0) :
    ins.flatten.length % bands = 0 := by
  rw [List.length_flatten]
  exact Nat.mod_eq_zero_of_dvd (List.dvd_sum (by simpa using fun x hx => Nat.dvd_of_mod_eq_zero (h x hx)))

/-- The three commands of R131 on one buffer. -/
theorem runInstrs_config_delta_check {s : State} {src : BitVec 4} {b : BufId} {bands : BitVec 32}
    (hs : bufOf src = some b) (hne : b ≠ .vb) (hmin : 1 ≤ bands.toNat) (hmax : bands.toNat ≤ s.cfg.bandsMax)
    {P : Nat} (hP : P = processed (s.buf b).length bands.toNat) (hc : overCap s.cfg.capVB P = false) :
    ∃ t : State, runInstrs [.dnConfig bands, .dnDelta src, .dnCheck src] s = .next t ∧
      t.rsps = [⟨.ok, P⟩, ⟨.ok, P⟩, ⟨.ok, 0⟩] ++ s.rsps := by
  obtain ⟨u, hconfig, hcfg, hbands, hvb, hseed, hbuf, hrsps⟩ := exec_dnConfig_seeded hmin hmax hne
  rw [← hbands, ← hbuf] at hP
  obtain ⟨v, hdelta, hcoded, hbuf', hrsps'⟩ := exec_dnDelta_coded hs hne
    (by rw [hcfg, hvb, List.length_nil, Nat.zero_add, ← hP]; exact hc)
  rw [← hcoded.bands, ← hbuf'] at hcoded hP
  obtain ⟨w, hcheck, hrsps''⟩ := exec_dnCheck_of_coded hs hvb hseed hcoded
  refine ⟨w, ?_, ?_⟩
  · rw [runInstrs_cons hconfig, runInstrs_cons hdelta, runInstrs_cons hcheck, runInstrs]
  · rw [hrsps'', hrsps', hrsps, ← hbuf', ← hcoded.bands, ← hP]; rfl

/-- Inputs of whole groups and a last one of any length, then the check of all their bytes. -/
theorem runInstrs_deltas_check {s : State} {ins : List (List Byte)} {last all : List Byte} (hb : 1 ≤ s.bands)
    (hvb : s.vb = []) (hseed : s.prev = List.replicate s.bands prevDefault)
    (hgroups : ∀ x ∈ ins, x.length % s.bands = 0) (hall : ins.flatten ++ last = all)
    (hib : overCap s.cfg.capIB all.length = false) (hfit : overCap s.cfg.capVB all.length = false) :
    ∃ (t : State) (rs : List Response),
      runInstrs ((ins ++ [last]).flatMap loadAndDelta ++ expandPseudo (.bufLoad 1 all) ++ [.dnCheck 1]) s = .next t ∧
        t.rsps = ⟨.ok, processed all.length s.bands⟩ :: rs := by
  have hwhole := length_flatten_mod hgroups
  have hlen : ins.flatten.length + last.length = all.length := by rw [← hall, List.length_append]
  obtain ⟨t, hins, hcoded⟩ := runInstrs_flatMap_loadAndDelta ins s hgroups (overCap_mono (by omega) hib)
    (overCap_mono (by rw [hvb, List.length_nil]; omega) hfit)
  have hroom : t.vb.length + last.length = all.length := by
    rw [hcoded.vb_length, hvb, List.length_nil, Nat.zero_add, hlen]
  obtain ⟨u, hlast, hcoded'⟩ := runInstrs_loadAndDelta (s := t) (bytes := last)
    (hcoded.cfg ▸ overCap_mono (by omega) hib) (by rw [hcoded.cfg, hroom]; exact hfit)
  have hboth := hcoded.trans hcoded' hwhole
  rw [hcoded.bands, ← wholeGroups_append hb hwhole, hall, ← hboth.bands] at hboth
  obtain ⟨rs, hload⟩ := runInstrs_loadIB (s := u) (hboth.cfg ▸ hib)
  obtain ⟨v, hcheck, hrsps⟩ := exec_dnCheck_of_coded (t := { u with ib := all, rsps := rs }) (src := 1) (b := .ib) rfl
    hvb hseed ⟨hboth.cfg, hboth.bands, hboth.vb, hboth.prev⟩
  refine ⟨v, rs, ?_, hboth.bands ▸ hrsps⟩
  rw [List.flatMap_append, List.append_assoc, List.append_assoc, runInstrs_append hins, List.flatMap_singleton,
    runInstrs_append hlast, runInstrs_append hload, runInstrs_cons hcheck, runInstrs]

/-- Settles O55: the two runs. -/
theorem deltaThenCheckSucceeds : Obligations.DeltaThenCheckSucceeds := by
  refine ⟨fun s src b bands hs hne hmin hmax hc => runInstrs_config_delta_check hs hne hmin hmax rfl hc,
    fun s ins last hrest hvb hseed hgroups hib hfit => ?_⟩
  have ⟨_, _, _, hb, _⟩ := hrest
  exact runInstrs_deltas_check hb hvb (List.eq_replicate_iff.2 ⟨hrest.prev_length, hseed⟩) hgroups rfl hib hfit

end Sys2Proof.Machine
end

section
/-! PROOF. The host commands (44_host R138 to R142): one equation for each way a command can end, beside those of
`BUF.CLEAR` and of a `BUF.APPEND` that fits, which loading a buffer needed. -/

namespace Sys2Proof.Machine

/-! ### `SYS.NOP` -/

theorem exec_sysNop (s : State) : exec .sysNop s = .next (s.deliver ⟨.ok, 0⟩) := rfl

/-- Settles O21: format `Z`, and the equation above. -/
theorem nopDoesNothing : Obligations.NopDoesNothing :=
  ⟨hasOneWord_of_formatZ rfl (by decide), exec_sysNop⟩

/-! ### `BUF.CLEAR` -/

/-- Settles O22: emptying is replacing the whole contents, which for `SB` also moves the cursor (20_memory R52). -/
theorem bufClearEmpties : Obligations.BufClearEmpties :=
  ⟨fun _ => rfl, refusesBits_of_format (f := .D) fun _ _ => ⟨_, rfl, rfl⟩, fun s _ h => withBuf_of_reserved h s _,
    exec_bufClear (b := .sb) rfl, exec_bufClear (b := .ib) rfl, exec_bufClear (b := .ob) rfl,
    exec_bufClear (b := .vb) rfl, fun s => (exec_bufClear (b := .sb) rfl s).trans (exec_bsClear s).symm⟩

/-! ### `BUF.APPEND` -/

theorem exec_bufAppend_of_overCap {s : State} {dst : BitVec 4} {b : BufId} (hb : bufOf dst = some b)
    (hc : overCap (capOf s.cfg b) ((s.buf b).length + 1) = true) (x : Byte) :
    exec (.bufAppend dst x) s = .next (s.deliver ⟨.eCapacity, 0⟩) :=
  (withBuf_of_some hb s _).trans (if_pos hc)

/-- What a buffer set leaves: the bytes in it and all else as it was, the cursor too (20_memory R52). -/
theorem State.setBuf_leaves (s : State) (b : BufId) (bytes : List Byte) :
    (s.setBuf b bytes).buf b = bytes ∧ (∀ c, c ≠ b → (s.setBuf b bytes).buf c = s.buf c) ∧
      (s.setBuf b bytes).cur = s.cur ∧
      s.setBuf b bytes =
        { s with
          sb := (s.setBuf b bytes).sb, ib := (s.setBuf b bytes).ib, ob := (s.setBuf b bytes).ob
          vb := (s.setBuf b bytes).vb } :=
  ⟨setBuf_buf_same .., setBuf_buf_other s b bytes, setBuf_cur .., by cases b <;> rfl⟩

/-- Settles O23: the buffer is full or has room for the byte, which is set behind the others. -/
theorem bufAppendAddsOneByte : Obligations.BufAppendAddsOneByte :=
  ⟨fun _ _ => rfl, refusesBits_of_format (f := .DB) fun _ _ => ⟨_, rfl, rfl⟩,
    fun s _ _ h => withBuf_of_reserved h s _, fun s _ b x hb =>
      ⟨fun hc => exec_bufAppend_of_overCap hb hc x,
        fun hc => ⟨s.setBuf b (s.buf b ++ [x]), exec_bufAppend hb hc x, s.setBuf_leaves b _⟩⟩⟩

/-! ### `BUF.READ` and `BUF.LEN` -/

section
variable {s : State} {src : BitVec 4} {b : BufId} (hb : bufOf src = some b) {index : BitVec 64}
include hb

theorem exec_bufRead_of_lt (h : index.toNat < (s.buf b).length) :
    exec (.bufRead src index) s = .next (s.deliver ⟨.ok, ((s.buf b)[index.toNat]'h).toNat⟩) := by
  simp [exec, execBufRead, withBuf_of_some hb, State.readByte, List.getElem?_eq_getElem h]

theorem exec_bufRead_of_le (h : (s.buf b).length ≤ index.toNat) :
    exec (.bufRead src index) s = .next (s.deliver ⟨.eRange, 0⟩) := by
  simp [exec, execBufRead, withBuf_of_some hb, State.readByte, List.getElem?_eq_none h]

theorem exec_bufLen : exec (.bufLen src) s = .next (s.deliver ⟨.ok, (s.buf b).length⟩) :=
  withBuf_of_some hb s _

end

/-- Settles O24: an index below the length names a byte, every other index none. -/
theorem bufReadAndLenObserve : Obligations.BufReadAndLenObserve :=
  ⟨fun _ _ => rfl, refusesBits_of_format (f := .SI) fun _ _ => ⟨_, rfl, rfl⟩,
    fun _ => rfl, refusesBits_of_format (f := .S) fun _ _ => ⟨_, rfl, rfl⟩,
    fun s _ _ h => ⟨withBuf_of_reserved h s _, withBuf_of_reserved h s _⟩,
    fun _ _ _ _ hb => ⟨exec_bufRead_of_lt hb, exec_bufRead_of_le hb, exec_bufLen hb⟩⟩

end Sys2Proof.Machine
end

section
/-! PROOF. Exceptions (60_exceptions R149, R150, R166): the steps that run no command, what a refusal leaves, and which
statuses a command can answer. -/

namespace Sys2Proof.Machine

/-! ### The two steps that run no command (60_exceptions R166, 70_reset R173) -/

theorem step_of_idle {s : State} (h : s.inbox = []) : step s = .next s := by
  simp [step, h]

theorem step_of_rst {s : State} {rest : List HostEvent} (h : s.inbox = .rst :: rest) :
    step s = .next { s with inbox := rest }.applyReset := by
  simp [step, h]

/-- Settles O11: the host's side of the port is all that the reset state takes from the state before. -/
theorem idleAndResetSteps : Obligations.IdleAndResetSteps :=
  ⟨fun _ => step_of_idle, fun _ _ => step_of_rst⟩

/-! ### A refusal changes nothing (60_exceptions R149) -/

/-- The inversion of `execWord` at the response `p` that it gives: either the decoder refuses the word, or the word's
command is run and ends with `p`. -/
theorem execWord_cases {w : CmdWord} {s t : State} {p : Response} (h : execWord w s = .next t)
    (hp : t.rsps = p :: s.rsps) :
    (∃ e, decode w = .error e ∧ p = ⟨statusOfDecodeError e, 0⟩ ∧ t = s.deliver p) ∨
      ∃ (i : Instr) (u : State), decode w = .ok i ∧ t = u.deliver p ∧ exec i s = .next (u.deliver p) := by
  cases hw : decode w with
  | error e =>
    rw [execWord_of_error hw] at h
    obtain rfl := Host.Outcome.next.inj h
    obtain ⟨rfl, -⟩ := List.cons.inj hp
    exact .inl ⟨e, rfl, rfl, rfl⟩
  | ok i =>
    rw [execWord_of_ok hw] at h
    obtain ⟨u, q, rfl, -⟩ := exec_cases h
    obtain ⟨rfl, -⟩ := List.cons.inj ((exec_deliver_rsps h).symm.trans hp)
    exact .inr ⟨i, u, rfl, rfl, h⟩

/-- Settles O14: the decoder's refusal is a response alone, and of a command's effects only the refusal has such a
code. -/
theorem refusalChangesNothing : Obligations.RefusalChangesNothing := by
  intro w s t p h hp hcode
  rcases execWord_cases h hp with ⟨e, -, rfl, ht⟩ | ⟨i, u, -, rfl, hexec⟩
  · exact ⟨rfl, ht⟩
  · obtain ⟨rfl, hr⟩ := (Effect.of_exec hexec).of_refused (decide_eq_true hcode)
    exact ⟨hr, rfl⟩

/-! ### The status matrix (60_exceptions R150) -/

/-- The outcome `o` is a next state with a response, whose status is in the row of the command `i`. -/
def Answers (i : Instr) (o : Outcome) : Prop :=
  ∃ (t : State) (p : Response), o = .next (t.deliver p) ∧ p.st ∈ statusesOf i

section
variable {i : Instr} {s t : State}

theorem Answers.respond {st : Status} {r : Nat} (h : st ∈ statusesOf i := by simp [statusesOf]) :
    Answers i (t.respond st r) :=
  ⟨t, ⟨st, r⟩, rfl, h⟩

theorem Answers.raise {e : Status} (h : e ∈ statusesOf i := by simp [statusesOf]) : Answers i (s.raise e) :=
  .respond h

theorem Answers.ite {c : Prop} [Decidable c] {a b : Outcome} (ha : Answers i a) (hb : Answers i b) :
    Answers i (if c then a else b) := by
  split
  · exact ha
  · exact hb

theorem Answers.withBank {k : BitVec 4} {f : BankId → Outcome} (h : ∀ b, Answers i (f b))
    (he : .eField ∈ statusesOf i := by simp [statusesOf]) : Answers i (withBank s k f) := by
  cases hk : bankOf k with
  | none => rw [withBank_of_none hk]; exact .raise he
  | some b => rw [withBank_of_some hk]; exact h b

theorem Answers.withBuf {k : BitVec 4} {f : BufId → Outcome} (h : ∀ b, Answers i (f b))
    (he : .eField ∈ statusesOf i := by simp [statusesOf]) : Answers i (withBuf s k f) := by
  cases hk : bufOf k with
  | none => rw [withBuf_of_none hk]; exact .raise he
  | some b => rw [withBuf_of_some hk]; exact h b

theorem Answers.withPoint {k : BitVec 4} {x y : BitVec 32} {f : BankId → Outcome} (h : ∀ b, Answers i (f b))
    (he : .eField ∈ statusesOf i := by simp [statusesOf]) (hr : .eRange ∈ statusesOf i := by simp [statusesOf]) :
    Answers i (withPoint s k x y f) :=
  .withBank (fun b => .ite (h b) (.raise hr)) he

end

/-- The status that carries a boolean outcome (10_state R17) is one of two. -/
theorem Status.ofBool_mem {sts : List Status} (htrue : .ok ∈ sts) (hfalse : .sFalse ∈ sts) (b : Bool) :
    Status.ofBool b ∈ sts := by
  cases b with
  | true => exact htrue
  | false => exact hfalse

theorem execBmRdtile_answers (k : BitVec 4) (j : BitVec 64) (s : State) :
    Answers (.bmRdtile k j) (execBmRdtile k j s) := by
  refine .withBank fun b => ?_
  split
  · exact .raise
  · exact .respond

theorem execDnCheck_answers (src : BitVec 4) (s : State) : Answers (.dnCheck src) (execDnCheck src s) := by
  refine .withBuf fun b => ?_
  dsimp only
  split
  · exact .respond
  · exact .respond

theorem execBufRead_answers (src : BitVec 4) (index : BitVec 64) (s : State) :
    Answers (.bufRead src index) (execBufRead src index s) := by
  refine .withBuf fun b => ?_
  split
  · exact .raise
  · exact .respond

/-- Every command, in every state, answers a status of its row. -/
theorem exec_answers (i : Instr) (s : State) : Answers i (exec i s) := by
  cases i with
  | sysNop | bsClear | bsRewind | bsTell | dnRecode => exact .respond
  | bsPush value n => exact .ite .raise (.ite .raise (.ite .raise .respond))
  | bsPull n => exact .ite .raise (.respond (Status.ofBool_mem (by simp [statusesOf]) (by simp [statusesOf]) _))
  | bsGet => exact .ite .respond .respond
  | bmConfig k width height => exact .withBank fun _ => .ite .raise .respond
  | bmBit k x y | bmSet k x y | bmClear k x y => exact .withPoint fun _ => .respond
  | bmDsize k | bmGetsize k => exact .withBank fun _ => .respond
  | bmCmp a b => exact .withBank fun _ => .withBank fun _ => .ite .respond .respond
  | bmPack k | bmUnpack k => exact .withBank fun _ => .ite .raise .respond
  | bmRdtile k j => exact execBmRdtile_answers k j s
  | rlEnc dst src => exact .withBuf fun _ => .withBuf fun _ => .ite .raise (.ite .raise .respond)
  | rlDec dst src => exact .withBuf fun _ => .withBuf fun _ => .ite .raise (.ite .raise (.ite .raise .respond))
  | dnConfig bands => exact .ite .raise .respond
  | dnDelta src => exact .withBuf fun _ => .ite .raise (.ite .raise .respond)
  | dnCheck src => exact execDnCheck_answers src s
  | dnRdprev c => exact .ite .raise .respond
  | bufClear dst | bufLen dst => exact .withBuf fun _ => .respond
  | bufAppend dst byte => exact .withBuf fun _ => .ite .raise .respond
  | bufRead src index => exact execBufRead_answers src index s

/-- `BS.PUSH` alone has no `E_FIELD` in its row: its format has no must-be-zero bit, and it names no bank and no
buffer. -/
theorem eField_mem_statusesOf {w : CmdWord} {i : Instr} (hi : instrOf (opField w) (nField w) (dField w) = some i)
    (hw : decode w ≠ .ok i) : .eField ∈ statusesOf i := by
  cases i with
  | bsPush value n => simp [decode_eq_ok_iff, hi, formatOf, mbzClear, mbzN, mbzD, Instr.wf] at hw
  | _ => simp [statusesOf]

/-- Settles O15: a word whose opcode is defined answers `E_FIELD` when the decoder refuses it, and what its command
answers otherwise. -/
theorem statusesStayInTheMatrix : Obligations.StatusesStayInTheMatrix := by
  intro w s i t p hi h hp
  rcases execWord_cases h hp with ⟨e, he, rfl, -⟩ | ⟨j, u, hj, -, hexec⟩
  · cases e with
    | reservedOpcode => simp [decode_eq_reservedOpcode_iff, hi] at he
    | reservedField => exact eField_mem_statusesOf hi (by simp [he])
  · obtain ⟨hij, -⟩ := (decode_eq_ok_iff w j).1 hj
    obtain rfl := Option.some.inj (hi.symm.trans hij)
    obtain ⟨v, q, heq, hmem⟩ := exec_answers i s
    obtain ⟨-, rfl⟩ := State.deliver_inj (Host.Outcome.next.inj (hexec.symm.trans heq))
    exact hmem

end Sys2Proof.Machine
end

section
/-! PROOF. Reset (70_reset R173, R175): the six commands that lead to the reset state, and `rst` at the port. -/

namespace Sys2Proof.Machine

/-! ### The reset state by commands (R175) -/

theorem tileCount_zero : tileCount 0 0 = 0 := rfl

/-- A bitmap of no size needs no tile, so it fits every `TILE_CAP` and is the bank as reset leaves it (R93, R172). -/
theorem exec_bmConfig_zero {k : BitVec 4} {b : BankId} (hk : bankOf k = some b) (s : State) :
    exec (.bmConfig k 0 0) s = .next ((s.setBank b Bank.reset).deliver ⟨.ok, 0⟩) :=
  exec_bmConfig_ok hk (tileCount_zero ▸ overCap_zero _)

/-- Settles O12: each command puts its own part of the state at the reset values; `BANDS_MAX` is needed for the band
count 1 alone. -/
theorem resetStateReachedByCommands : Obligations.ResetStateReachedByCommands := by
  intro s hbands
  rw [runInstrs_cons (exec_bsClear s),
    runInstrs_cons (exec_bufClear (b := .ib) rfl _),
    runInstrs_cons (exec_bufClear (b := .ob) rfl _),
    runInstrs_cons (exec_bmConfig_zero (b := .m0) rfl _),
    runInstrs_cons (exec_bmConfig_zero (b := .m1) rfl _)]
  refine runInstrs_cons (exec_dnConfig_ok (bands := 1) le_rfl ?_) []
  exact hbands

/-! ### `rst` at the port (R173) -/

section
variable {i : PortIn} (hrst : i.rst = true) (p : Port)
include hrst

theorem Port.cmdReady_of_rst : p.cmdReady i = false := by
  simp [Port.cmdReady, hrst]

theorem Port.rspValid_of_rst : p.rspValid i = false := by
  cases hphase : p.phase with
  | idle | busy w left => simp [Port.rspValid, hphase]
  | done w => simp [Port.rspValid, hphase, hrst]

/-- Reset wins over every phase: no `afterWord` is applied, so a command in flight leaves nothing. -/
theorem Port.tick_of_rst : p.tick i = ⟨p.block.applyReset, .idle, p.accepted⟩ :=
  if_pos hrst

end

/-- Settles O60: both channels are silent, and the cycle ends idle in the reset state. -/
theorem portResetAbandonsCommand : Obligations.PortResetAbandonsCommand := by
  intro p i hrst
  rw [Port.tick_of_rst hrst]
  exact ⟨Port.cmdReady_of_rst hrst p, Port.rspValid_of_rst hrst p, rfl, rfl⟩

end Sys2Proof.Machine
end
